-- ==== Sys2Proof/Word.lean ====
section
/-! DEFINITION. The word types of the block: bytes of the buffers, 32-bit bus words, 512-bit bignum registers and
offsets into the 4 KiB register window (10_state.md R20, R23; 20_memory.md R60). -/

namespace Sys2Proof

/-- One byte of DIGBUF or SIGBUF, or of an entropy answer. -/
abbrev Byte := BitVec 8

/-- One 32-bit bus word: the data of a transaction, and the command word of CMD (20_memory.md R60, 30_encoding.md R90). -/
abbrev Word32 := BitVec 32

/-- The contents of a bignum register: an unsigned value below 2^512 (10_state.md R20). -/
abbrev Big := BitVec 512

/-- A byte offset into the 4 KiB window, 0x000 to 0xFFF (20_memory.md R60). -/
abbrev Offset := BitVec 12

/-- The bignum zero, written with its bound so that it evaluates without computing 2^512. -/
def Big.zero : Big := BitVec.ofNatLT 0 (Nat.two_pow_pos 512)

end Sys2Proof
end

