-- ==== Sys2Proof/Syntax.lean ====
section
/-! DEFINITION. The commands of the block, one constructor per row of spec/opcode_table.json, and the three fields of a
command word in the format CMD32 (30_encoding.md R90, R94). -/

namespace Sys2Proof

/-- The modulus select of opcodes 0x01 to 0x06: OPM (suffix `.M`), P (`.P`) or Q (`.Q`). The fourth value of the two
bits is reserved and makes the word illegal, so it is no modulus select (30_encoding.md R92). -/
inductive MSel where
  | opm
  | p
  | q
  deriving DecidableEq, Repr

/-- The 13 commands (30_encoding.md R94). The command word carries no operand but MSEL (30_encoding.md R93). -/
inductive Instr where
  | nop
  | modred (m : MSel)
  | modadd (m : MSel)
  | modsub (m : MSel)
  | modmul (m : MSel)
  | modinv (m : MSel)
  | egcd (m : MSel)
  | padd
  | pdbl
  | pmul
  | keygen
  | sign
  | verify
  deriving DecidableEq, Repr

/-- The three fields of a command word: OPC bits 7:0, MSEL bits 9:8, RSV bits 31:10 (30_encoding.md R90). As syntax
they may hold anything; `CommandFields.illegal` of WellFormed.lean says which combinations are illegal. -/
structure CommandFields where
  opc : Nat
  msel : Nat
  rsv : Nat
  deriving DecidableEq, Repr

/-- Why a command word is illegal: one constructor per clause of 30_encoding.md R96, in its order. -/
inductive IllegalWord where
  /-- Clause 1: RSV is not 0. -/
  | reservedBits
  /-- Clause 2: the opcode is reserved. -/
  | reservedOpcode
  /-- Clause 3: an opcode with a modulus operand has MSEL = 3. -/
  | reservedMsel
  /-- Clause 4: an opcode without a modulus operand has MSEL other than 0. -/
  | mselNotZero
  deriving DecidableEq, Repr

end Sys2Proof
end

