-- ==== Sys2Proof/WellFormed.lean ====
section
/-! DEFINITION. Which command words are well formed, clause by clause as 30_encoding.md R96 writes them. The decoder of
Decode.lean is written from the other table of the spec, the match and mask columns of R95, so that their agreement is a
statement and not a definition. A term of `Instr` needs no check: its only operand, `MSel`, has no reserved value. -/

namespace Sys2Proof

/-- The fields of a command word (30_encoding.md R91). -/
def CommandFields.ofWord (w : Word32) : CommandFields :=
  { opc := w.toNat % 256, msel := w.toNat / 256 % 4, rsv := w.toNat / 1024 }

/-- The opcodes that take a modulus operand: 0x01 to 0x06 (30_encoding.md R92). -/
def CommandFields.takesModulus (f : CommandFields) : Bool :=
  1 ≤ f.opc && f.opc ≤ 6

/-- The opcodes of the map of 30_encoding.md R94; every other value is reserved. -/
def CommandFields.assigned (f : CommandFields) : Bool :=
  f.opc == 0x00 || f.takesModulus || f.opc == 0x10 || f.opc == 0x11 || f.opc == 0x12
    || f.opc == 0x20 || f.opc == 0x21 || f.opc == 0x22

/-- `Illegal(w)` of 30_encoding.md R96 on the fields of w: the disjunction of its four clauses. -/
def CommandFields.illegal (f : CommandFields) : Bool :=
  f.rsv != 0 || !f.assigned || (f.takesModulus && f.msel == 3) || (!f.takesModulus && f.msel != 0)

/-- `Illegal(w)` of 30_encoding.md R96. -/
def illegalWord (w : Word32) : Bool :=
  (CommandFields.ofWord w).illegal

/-- A well-formed command word: one that is not illegal. -/
def wellFormedWord (w : Word32) : Bool :=
  !illegalWord w

end Sys2Proof
end

