-- ==== Sys2Proof/Decode.lean ====
section
/-! DEFINITION. The decoder and the encoder of command words, from the match and mask columns of 30_encoding.md R95 and
the assembler rule R104. The decoder is total on 32-bit words and rejects by the clause of R96 that applies. -/

namespace Sys2Proof

/-- The mask of the rows that take a modulus operand: every bit but the two MSEL bits (30_encoding.md R95). -/
def modulusRowMask : Word32 := 0xFFFFFCFF

/-- The modulus select in bits 9:8 of a word; the value 3 selects none (30_encoding.md R92). -/
def mselOf (w : Word32) : Option MSel :=
  match (w.extractLsb' 8 2).toNat with
  | 0 => some .opm
  | 1 => some .p
  | 2 => some .q
  | _ => none

/-- The rows of 30_encoding.md R95 whose mask is 0xFFFFFFFF, by their match value. -/
def plainRow : Nat → Option Instr
  | 0x00000000 => some .nop
  | 0x00000010 => some .padd
  | 0x00000011 => some .pdbl
  | 0x00000012 => some .pmul
  | 0x00000020 => some .keygen
  | 0x00000021 => some .sign
  | 0x00000022 => some .verify
  | _ => none

/-- The rows of 30_encoding.md R95 whose mask is 0xFFFFFCFF, by their match value; the command is the one of the modulus
that MSEL selects. -/
def modulusRow : Nat → Option (MSel → Instr)
  | 0x00000001 => some .modred
  | 0x00000002 => some .modadd
  | 0x00000003 => some .modsub
  | 0x00000004 => some .modmul
  | 0x00000005 => some .modinv
  | 0x00000006 => some .egcd
  | _ => none

/-- The row of 30_encoding.md R95 that a word selects: (w AND mask) = match, and MSEL other than 3 where the row has
MSEL bits. -/
def matchRow (w : Word32) : Option Instr :=
  match plainRow (w &&& 0xFFFFFFFF).toNat with
  | some i => some i
  | none =>
    match modulusRow (w &&& modulusRowMask).toNat with
    | some f => (mselOf w).map f
    | none => none

/-- The first clause of 30_encoding.md R96 that a word which selects no row meets. -/
def rejection (w : Word32) : IllegalWord :=
  let f := CommandFields.ofWord w
  if f.rsv ≠ 0 then .reservedBits
  else if f.assigned = false then .reservedOpcode
  else if f.takesModulus = true then .reservedMsel
  else .mselNotZero

/-- The decoder: the command of a word, or the reason why the word is illegal (30_encoding.md R95, R96). -/
def decode (w : Word32) : Except IllegalWord Instr :=
  match matchRow w with
  | some i => .ok i
  | none => .error (rejection w)

/-- The value of the MSEL field (30_encoding.md R92, R104). -/
def MSel.bits : MSel → Word32
  | .opm => 0
  | .p => 1
  | .q => 2

/-- The opcode of a command (30_encoding.md R94). -/
def Instr.opcode : Instr → Word32
  | .nop => 0x00
  | .modred _ => 0x01
  | .modadd _ => 0x02
  | .modsub _ => 0x03
  | .modmul _ => 0x04
  | .modinv _ => 0x05
  | .egcd _ => 0x06
  | .padd => 0x10
  | .pdbl => 0x11
  | .pmul => 0x12
  | .keygen => 0x20
  | .sign => 0x21
  | .verify => 0x22

/-- The MSEL field of a command: 0 where the command takes no modulus operand (30_encoding.md R96 clause 4). -/
def Instr.mselBits : Instr → Word32
  | .nop => 0
  | .modred m => m.bits
  | .modadd m => m.bits
  | .modsub m => m.bits
  | .modmul m => m.bits
  | .modinv m => m.bits
  | .egcd m => m.bits
  | .padd => 0
  | .pdbl => 0
  | .pmul => 0
  | .keygen => 0
  | .sign => 0
  | .verify => 0

/-- The encoder: `(MSEL << 8) | OPC` (30_encoding.md R104). -/
def encode (i : Instr) : Word32 :=
  (i.mselBits <<< 8) ||| i.opcode

/-- The command the decoder reads from an instruction of `nbits` bits whose bits are w. A command is always one 32-bit
word (30_encoding.md R90), so a value with a bit above bit 31 is no command word. -/
def decodeTableWord (nbits w : Nat) : Option Instr :=
  let v := w % 2 ^ nbits
  if v < 4294967296 then (decode (BitVec.ofNat 32 v)).toOption else none

end Sys2Proof
end

