-- ==== Sys2Proof/Config.lean ====
section
/-! DEFINITION. What an implementation of gost34102012-core fixes: the constants of 00_scope.md R6 and the one platform
parameter that has a value of its own, BASE. The other open parameters of R6 (BUS_PROTOCOL, LATENCY, ACCESS_FILTER,
REDUCTION_ALGO, SMUL_SCHEDULE) have no effect on any rule; ENTROPY is the input `State.answers` of the machine. -/

namespace Sys2Proof.Config

/-- The constant ID register: the ASCII bytes "GOST" (10_state.md R24). -/
def idValue : Word32 := 0x474F5354

/-- The constant VERSION register: version 1.0 (10_state.md R26). -/
def versionValue : Word32 := 0x00010000

/-- The bytes of the nonce that SIGN draws, in both modes (00_scope.md R6, 42_signature_engine.md R177). -/
def nonceBytes : Nat := 64

/-- The value at which RETRY_CNT saturates (10_state.md R38). -/
def retryCntMax : Nat := 0xFFFFFFFF

/-- The size of the register window (00_scope.md R6). -/
def windowBytes : Nat := 0x1000

/-- Parameter BASE in 4 KiB pages: open, so it has no value here. The window is aligned to 4 KiB
(92_eei_decisions.md D35). -/
opaque basePage : Nat

/-- The platform address of an offset of the window. Every rule speaks of offsets, so nothing of the machine reads it
(20_memory.md R60, 60_exceptions.md R227). -/
def windowAddress (off : Offset) : Nat := basePage * windowBytes + off.toNat

end Sys2Proof.Config
end

