-- ==== Sys2Proof/Machine/State.lean ====
section
/-! DEFINITION. The state of the block as plain data: every register, flag, buffer and hidden state of 10_state.md, and
beside them the inputs that the three agents of 00_scope.md R15 bring (the order of turns, the entropy answers) and the
reply to the last bus transaction. Fields with reserved bits hold only the bits the spec gives storage; the bus word is
computed (10_state.md R23: a reserved bit reads 0 and ignores writes). -/

namespace Sys2Proof.Machine

/-- The names of the 20 bignum registers (10_state.md R20). -/
inductive BN where
  | a | b | p | q | gx | gy | opa | opb | opm | p1x | p1y | p2x | p2y | k | d | pubx | puby | res0 | res1 | res2
  deriving DecidableEq, Repr

/-- The security mode of CTRL.MODE: 256 when the bit is 0, 512 when it is 1 (00_scope.md R7). -/
inductive Mode where
  | m256
  | m512
  deriving DecidableEq, Repr

/-- The nonzero codes of STATUS.ERR (60_exceptions.md R210); NONE is the absent error of `Status.err`, and the reserved
codes 10 to 15 do not exist here. -/
inductive Err where
  | illegal | badModulus | notInvertible | range | config | format | entropy | retryLimit | aborted
  deriving DecidableEq, Repr

/-- The engine phase (10_state.md R46). -/
inductive Phase where
  | idle
  | run
  deriving DecidableEq, Repr

/-- The stored fields of CTRL; ABORT and SRST are write actions that read 0 (10_state.md R27). -/
structure Ctrl where
  mode : Mode := .m256
  ie : Bool := false
  digLE : Bool := false
  vfyCompat : Bool := false
  deriving DecidableEq, Repr

/-- The stored fields of STATUS. BUSY is not stored: it is 1 exactly when the phase is RUN (10_state.md R28, R46). -/
structure Status where
  done : Bool := false
  wbusy : Bool := false
  err : Option Err := none
  deriving DecidableEq, Repr

/-- RFLAGS (10_state.md R32). -/
structure RFlags where
  rinf : Bool := false
  res1Neg : Bool := false
  res2Neg : Bool := false
  verifyOk : Bool := false
  deriving DecidableEq, Repr

/-- PFLAGS (10_state.md R35). -/
structure PFlags where
  p1inf : Bool := false
  p2inf : Bool := false
  deriving DecidableEq, Repr

/-- One answer of the entropy port: FAIL, or bytes in the order the port delivers them. A request asks for at most 64
bytes, and one for L bytes receives the first L (10_state.md R50), so every answer has exactly the length asked for. -/
inductive Answer where
  | fail
  | bytes (b : Vector Byte 64)
  deriving DecidableEq, Repr

/-- A bus transaction of the host (20_memory.md R60, R61): its offset in the window, its size in bytes and, for a write,
its byte strobes and data. Only size 4 is ever served, so 32 data bits are enough. -/
inductive BusTxn where
  | read (off : Offset) (size : Nat)
  | write (off : Offset) (size : Nat) (strobes : BitVec 4) (data : Word32)
  deriving DecidableEq, Repr

/-- The response of the block to a transaction (20_memory.md R60). -/
inductive Resp where
  | ok
  | error
  deriving DecidableEq, Repr

/-- What a transaction returns: a read a pair of data and response, a write a response (20_memory.md R60). -/
inductive Reply where
  | read (data : Word32) (resp : Resp)
  | write (resp : Resp)
  deriving DecidableEq, Repr

/-- One entry of the total order of steps (00_scope.md R15): a bus transaction of the host, an engine step, an answer of
the entropy source, or the hardware reset input (70_reset_and_hazards.md R240). -/
inductive Turn where
  | bus (t : BusTxn)
  | engine
  | entropy (a : Answer)
  | resetInput
  deriving DecidableEq, Repr

/-- The machine. The fields up to `pending` are the block's, as 10_state.md names them; `turns`, `answers` and `reply`
are the model's own: what is still to come from outside, and what the last transaction returned. -/
structure State where
  /-- The 20 bignum registers, at the index of 20_memory.md R67 (10_state.md R20). -/
  bns : Vector Big 20
  /-- CTRL (10_state.md R27). -/
  ctrl : Ctrl
  /-- STATUS (10_state.md R28). -/
  status : Status
  /-- CMD: the last command word accepted while idle (10_state.md R30). -/
  cmd : Word32
  /-- RFLAGS (10_state.md R32). -/
  rflags : RFlags
  /-- PFLAGS (10_state.md R35). -/
  pflags : PFlags
  /-- ATTEMPT_MAX (10_state.md R37). -/
  attemptMax : BitVec 32
  /-- RETRY_CNT (10_state.md R38). -/
  retryCnt : BitVec 32
  /-- SIG_LEN bits 7:0 (10_state.md R39). -/
  sigLen : BitVec 8
  /-- DIGBUF (10_state.md R44). -/
  digbuf : Vector Byte 64
  /-- SIGBUF (10_state.md R45). -/
  sigbuf : Vector Byte 128
  /-- The engine phase (10_state.md R46). -/
  phase : Phase
  /-- The byte count of an outstanding entropy request (10_state.md R46, R50). -/
  pending : Option Nat
  /-- The steps still to come, in the total order of 00_scope.md R15. Model's own. -/
  turns : List Turn
  /-- The answers the entropy source has given and no draw has taken (10_state.md R50). Model's own. -/
  answers : List Answer
  /-- What the last bus transaction returned (20_memory.md R60). Model's own. -/
  reply : Option Reply
  deriving DecidableEq, Repr

/-- The reset state of 10_state.md R55: every register, buffer and flag 0, MODE 256, phase IDLE, no request. Nothing is
to come from outside: the host's program is an input (log entry 1). -/
def State.reset : State :=
  { bns := Vector.replicate 20 Big.zero
    ctrl := {}
    status := {}
    cmd := 0
    rflags := {}
    pflags := {}
    attemptMax := 0
    retryCnt := 0
    sigLen := 0
    digbuf := Vector.replicate 64 0
    sigbuf := Vector.replicate 128 0
    phase := .idle
    pending := none
    turns := []
    answers := []
    reply := none }

/-- Why the machine stops with a fault. -/
inductive Fault where
  /-- Raised by the engine when it is running and CMD holds an illegal word. 10_state.md R31 never starts an illegal
  word, so no state that a run from reset reaches raises it (log entry 7). Safe: the machine stops where the spec has no
  behaviour. -/
  | runningIllegalWord
  deriving DecidableEq, Repr

/-- Why the machine refuses an instruction. -/
inductive Refusal where
  /-- Raised by an arm of `exec` for a command that has no meaning yet; no arm does. Safe: the machine stops. -/
  | notModelled (mnemonic : String)
  deriving DecidableEq, Repr

end Sys2Proof.Machine
end

