-- ==== Sys2Proof/Machine/Flags.lean ====
section
/-! DEFINITION. The flags of the block and the bus words of its 32-bit registers (10_state.md R27, R28, R32, R35, R52),
and the interrupt output (10_state.md R51). -/

namespace Sys2Proof.Machine

/-- A bus word with the one bit `i` set when `b` holds. -/
def flagBit (b : Bool) (i : Nat) : Word32 :=
  if b then 1#32 <<< i else 0

/-- STATUS.BUSY: 1 exactly when the phase is RUN (10_state.md R46). -/
def State.busy (s : State) : Bool :=
  s.phase = .run

/-- The irq output: STATUS.DONE and CTRL.IE, in every state (60_exceptions.md R220). -/
def State.irq (s : State) : Bool :=
  s.status.done && s.ctrl.ie

/-- The code of an error (60_exceptions.md R210). -/
def Err.code : Err → Nat
  | .illegal => 1
  | .badModulus => 2
  | .notInvertible => 3
  | .range => 4
  | .config => 5
  | .format => 6
  | .entropy => 7
  | .retryLimit => 8
  | .aborted => 9

/-- The value of STATUS.ERR: the code, or 0 for NONE (60_exceptions.md R210). -/
def errField : Option Err → Nat
  | none => 0
  | some e => e.code

/-- The word CTRL reads as: ABORT, SRST and the reserved bits read 0 (10_state.md R27). -/
def Ctrl.word (c : Ctrl) : Word32 :=
  flagBit (c.mode = .m512) 0 ||| flagBit c.ie 1 ||| flagBit c.digLE 2 ||| flagBit c.vfyCompat 3

/-- The word STATUS reads as: BUSY, DONE, WBUSY and ERR in bits 11:8 (10_state.md R28). -/
def State.statusWord (s : State) : Word32 :=
  flagBit s.busy 0 ||| flagBit s.status.done 1 ||| flagBit s.status.wbusy 2
    ||| (BitVec.ofNat 32 (errField s.status.err) <<< 8)

/-- The word RFLAGS reads as (10_state.md R32). -/
def RFlags.word (f : RFlags) : Word32 :=
  flagBit f.rinf 0 ||| flagBit f.res1Neg 1 ||| flagBit f.res2Neg 2 ||| flagBit f.verifyOk 3

/-- The word PFLAGS reads as (10_state.md R35). -/
def PFlags.word (f : PFlags) : Word32 :=
  flagBit f.p1inf 0 ||| flagBit f.p2inf 1

/-- The PFLAGS a written word leaves: bits 1:0 are stored, the rest ignored (10_state.md R35). -/
def PFlags.ofWord (w : Word32) : PFlags :=
  { p1inf := w.getLsbD 0, p2inf := w.getLsbD 1 }

/-- The mode a written MODE bit selects (00_scope.md R7). -/
def Mode.ofBit (b : Bool) : Mode :=
  if b then .m512 else .m256

/-- The flags of EGCD's commit: the signs of the two coefficients, a zero counting as positive
(40_modular_arithmetic.md R118, R125). -/
def RFlags.signs (x y : Int) : RFlags :=
  { res1Neg := x < 0, res2Neg := y < 0 }

/-- The flags of VERIFY's commit (42_signature_engine.md R180). -/
def RFlags.verified (ok : Bool) : RFlags :=
  { verifyOk := ok }

/-- The flags of a point result (41_curve_group.md R149). -/
def RFlags.point (inf : Bool) : RFlags :=
  { rinf := inf }

end Sys2Proof.Machine
end

