-- ==== Sys2Proof/Machine/Ops.lean ====
section
/-! DEFINITION. The named operations over the registers, and the three ways an engine step ends: a commit
(10_state.md R48), a raised error, which is this block's exception (60_exceptions.md R212), and the retry of a degenerate
attempt (42_signature_engine.md R171). There is no return from an error (60_exceptions.md R218): the host acknowledges
through STATUS (Bus.lean). -/

namespace Sys2Proof.Machine

/-- The index of a bignum register in the address map (20_memory.md R67). -/
def BN.index : BN → Fin 20
  | .a => 0
  | .b => 1
  | .p => 2
  | .q => 3
  | .gx => 4
  | .gy => 5
  | .opa => 6
  | .opb => 7
  | .opm => 8
  | .p1x => 9
  | .p1y => 10
  | .p2x => 11
  | .p2y => 12
  | .k => 13
  | .d => 14
  | .pubx => 15
  | .puby => 16
  | .res0 => 17
  | .res1 => 18
  | .res2 => 19

/-- `BN[r]` as bits (00_scope.md R12). -/
def State.bn (s : State) (r : BN) : Big :=
  s.bns[r.index]

/-- `BN[r]` as the natural number it holds (00_scope.md R8, R12). -/
def State.nat (s : State) (r : BN) : Nat :=
  (s.bn r).toNat

/-- `BN[r] <- v` (00_scope.md R12). -/
def State.setBn (s : State) (r : BN) (v : Big) : State :=
  { s with bns := s.bns.set r.index v }

/-- `BN[r] <- v` for a natural number v below 2^512 (00_scope.md R12). -/
def State.setNat (s : State) (r : BN) (v : Nat) : State :=
  s.setBn r (BitVec.ofNat 512 v)

/-- The end of a command that succeeds: IDLE, BUSY 0, DONE 1, ERR 0, no request outstanding (10_state.md R48). -/
def State.endOk (s : State) : State :=
  { s with phase := .idle, pending := none, status := { s.status with done := true, err := none } }

/-- `raise Error(e)`: IDLE, BUSY 0, DONE 1, ERR e, a pending entropy request discarded, and nothing else changed
(60_exceptions.md R212). -/
def State.raiseError (e : Err) (s : State) : State :=
  { s with phase := .idle, pending := none, status := { s.status with done := true, err := some e } }

/-- RETRY_CNT after one more degenerate attempt: it saturates (10_state.md R38). -/
def State.countedRetry (s : State) : BitVec 32 :=
  BitVec.ofNat 32 (min (s.retryCnt.toNat + 1) Config.retryCntMax)

/-- `retry`: a degenerate attempt counts, and with a cap that is reached the command ends with RETRY_LIMIT
(42_signature_engine.md R171, R172). -/
def State.retry (s : State) : State :=
  let s' := { s with retryCnt := s.countedRetry }
  if s.attemptMax ≠ 0 ∧ s.attemptMax.toNat ≤ s.countedRetry.toNat then s'.raiseError .retryLimit else s'

/-- How an engine step of a command ends: with the writes of its `commit` made, with an error, or as a degenerate
attempt. -/
inductive Ending where
  | commit (t : State)
  | raise (e : Err)
  | retry
  deriving DecidableEq, Repr

/-- The state after an engine step on s that ends in the given way (10_state.md R47, R48). -/
def State.finish (s : State) : Ending → State
  | .commit t => t.endOk
  | .raise e => s.raiseError e
  | .retry => s.retry

/-- One attempt with an answer of the entropy port to a request for `len` bytes (10_state.md R50). The oldest answer is
taken; FAIL ends the command with ENTROPY and counts no retry (42_signature_engine.md R174). While the source has given
no answer the request stays outstanding and nothing else changes (log entry 3). -/
def State.withDraw (s : State) (len : Nat) (attempt : List Byte → State → Ending) : State :=
  match s.answers with
  | [] => { s with pending := some len }
  | .fail :: rest => ({ s with answers := rest, pending := none }).raiseError .entropy
  | .bytes b :: rest =>
    let s' := { s with answers := rest, pending := none }
    s'.finish (attempt (b.toList.take len) s')

/-- Every piece of the block's state at its reset value (10_state.md R55, 43_control_commands.md R203); the turns,
answers and reply of the world outside the block are kept. -/
def State.blockReset (s : State) : State :=
  { State.reset with turns := s.turns, answers := s.answers, reply := s.reply }

end Sys2Proof.Machine
end

