-- ==== Sys2Proof/Machine/Operands.lean ====
section
/-! DEFINITION. How a command assembles its operands from registers (30_encoding.md R98): the modulus MSEL selects, input
points, the digest, the signature halves, and the configuration predicates; and the byte-string conversions of
00_scope.md R11. -/

namespace Sys2Proof.Machine

/-- MODE as a number of bits (00_scope.md R7). -/
def Mode.bits : Mode → Nat
  | .m256 => 256
  | .m512 => 512

/-- n = MODE/8, the byte width of keys, digests and signature halves (00_scope.md R6, R7). -/
def Mode.bytes (m : Mode) : Nat :=
  m.bits / 8

/-- `int_BE(b)`: the byte at index 0 is the most significant (00_scope.md R11). -/
def intBE (b : List Byte) : Nat :=
  b.foldl (fun acc x => acc * 256 + x.toNat) 0

/-- `int_LE(b)`: the byte at index 0 is the least significant (00_scope.md R11). -/
def intLE (b : List Byte) : Nat :=
  b.foldr (fun x acc => x.toNat + 256 * acc) 0

/-- Byte i of `BE_L(v)` (00_scope.md R11). -/
def beByte (len v i : Nat) : Byte :=
  BitVec.ofNat 8 (v / 256 ^ (len - 1 - i))

/-- `z mod m`, the Euclidean remainder, as a natural number (00_scope.md R9). -/
def modInt (z : Int) (m : Nat) : Nat :=
  (z % (m : Int)).toNat

/-- The modulus M that MSEL selects: OPM, P or Q (30_encoding.md R92). -/
def State.modulus (s : State) : MSel → Nat
  | .opm => s.nat .opm
  | .p => s.nat .p
  | .q => s.nat .q

/-- A curve point: the point at infinity, or affine coordinates (00_scope.md R14). -/
inductive Point where
  | infinity
  | aff (x y : Nat)
  deriving DecidableEq, Repr

/-- Input point 1: O when PFLAGS.P1INF is set, else (P1X, P1Y) (10_state.md R36). -/
def State.pt1 (s : State) : Point :=
  if s.pflags.p1inf then .infinity else .aff (s.nat .p1x) (s.nat .p1y)

/-- Input point 2: O when PFLAGS.P2INF is set, else (P2X, P2Y) (10_state.md R36). -/
def State.pt2 (s : State) : Point :=
  if s.pflags.p2inf then .infinity else .aff (s.nat .p2x) (s.nat .p2y)

/-- The base point G (00_scope.md R17). -/
def State.basePoint (s : State) : Point :=
  .aff (s.nat .gx) (s.nat .gy)

/-- The public key as a point (42_signature_engine.md R183). -/
def State.pubPoint (s : State) : Point :=
  .aff (s.nat .pubx) (s.nat .puby)

/-- The range check of an input point: an affine one has both coordinates below P (41_curve_group.md R141). -/
def Point.inRange (P : Nat) : Point → Bool
  | .infinity => true
  | .aff x y => x < P && y < P

/-- `CfgCurve`: 3 ≤ P < 2^MODE and A < P (41_curve_group.md R140). -/
def State.cfgCurve (s : State) : Bool :=
  3 ≤ s.nat .p && s.nat .p < 2 ^ s.ctrl.mode.bits && s.nat .a < s.nat .p

/-- `CfgSig`: CfgCurve, 2 ≤ Q < 2^MODE, GX < P and GY < P (42_signature_engine.md R170). -/
def State.cfgSig (s : State) : Bool :=
  s.cfgCurve && 2 ≤ s.nat .q && s.nat .q < 2 ^ s.ctrl.mode.bits && s.nat .gx < s.nat .p && s.nat .gy < s.nat .p

/-- n for the current mode (00_scope.md R7). -/
def State.n (s : State) : Nat :=
  s.ctrl.mode.bytes

/-- The digest value e: the first n bytes of DIGBUF, in the byte order of CTRL.DIG_LE, reduced modulo Q, and 1 when that
is 0 (42_signature_engine.md R173). -/
def State.digestE (s : State) : Nat :=
  let h := s.digbuf.toList.take s.n
  let e := (if s.ctrl.digLE then intLE h else intBE h) % s.nat .q
  if e = 0 then 1 else e

/-- The first signature half r: SIGBUF[0..n-1] read big-endian (42_signature_engine.md R181). -/
def State.sigR (s : State) : Nat :=
  intBE (s.sigbuf.toList.take s.n)

/-- The second signature half s: SIGBUF[n..2n-1] read big-endian (42_signature_engine.md R181). -/
def State.sigS (s : State) : Nat :=
  intBE ((s.sigbuf.toList.drop s.n).take s.n)

/-- SIGBUF as SIGN writes it: r and s as n big-endian bytes each, then zeros (42_signature_engine.md R178). -/
def sigBytes (n r sg : Nat) : Vector Byte 128 :=
  Vector.ofFn fun i =>
    if i.val < n then beByte n r i.val
    else if i.val < 2 * n then beByte n sg (i.val - n)
    else 0

end Sys2Proof.Machine
end

