-- ==== Sys2Proof/Machine/Control.lean ====
section
/-! DEFINITION. The control operations: the command NOP, the start of a command, and the CTRL actions ABORT and SRST
(43_control_commands.md). -/

namespace Sys2Proof.Machine

/-- NOP: its one engine step writes only the end-of-command STATUS fields (43_control_commands.md R200). -/
def execNop (s : State) : Host.Outcome State Fault Refusal :=
  .next (s.finish (.commit s))

/-- The commands that draw from the entropy port; their start clears RETRY_CNT (10_state.md R31, R38). -/
def drawsEntropy : Instr → Bool
  | .keygen => true
  | .sign => true
  | .nop => false
  | .modred _ => false
  | .modadd _ => false
  | .modsub _ => false
  | .modmul _ => false
  | .modinv _ => false
  | .egcd _ => false
  | .padd => false
  | .pdbl => false
  | .pmul => false
  | .verify => false

/-- A CMD write while idle (10_state.md R31): the word is stored; an illegal one ends at once with ILLEGAL, a legal one
starts the engine (43_control_commands.md R201, 60_exceptions.md R213). -/
def State.acceptCommand (w : Word32) (s : State) : State :=
  match decode w with
  | .error _ => { s with cmd := w, status := { s.status with done := true, err := some .illegal } }
  | .ok i =>
    { s with
      cmd := w
      phase := .run
      status := { s.status with done := false, err := none }
      retryCnt := if drawsEntropy i then 0 else s.retryCnt }

/-- The ABORT action: a running command ends with ABORTED, its pending request discarded, RETRY_CNT kept; while idle
nothing happens (43_control_commands.md R202). -/
def State.abort (s : State) : State :=
  if s.busy then s.raiseError .aborted else s

/-- A CTRL write (10_state.md R27): SRST alone when bit 9 is 1; otherwise IE is stored, MODE, DIG_LE and VFY_COMPAT are
stored when idle and kept when busy, with WBUSY set if one of them differs, and ABORT acts when bit 8 is 1. -/
def State.writeCtrl (v : Word32) (s : State) : State :=
  if v.getLsbD 9 then s.blockReset
  else
    let asked : Ctrl :=
      { mode := .ofBit (v.getLsbD 0), ie := v.getLsbD 1, digLE := v.getLsbD 2, vfyCompat := v.getLsbD 3 }
    let s1 :=
      if s.busy then
        { s with
          ctrl := { s.ctrl with ie := asked.ie }
          status := { s.status with
            wbusy := s.status.wbusy || !decide (asked = { s.ctrl with ie := asked.ie }) } }
      else { s with ctrl := asked }
    if v.getLsbD 8 then s1.abort else s1

/-- A STATUS write: bit 1 clears DONE, bit 2 clears WBUSY, every other bit has no effect (10_state.md R28). -/
def State.writeStatus (v : Word32) (s : State) : State :=
  { s with status := { s.status with
      done := s.status.done && !v.getLsbD 1
      wbusy := s.status.wbusy && !v.getLsbD 2 } }

end Sys2Proof.Machine
end

