-- ==== Sys2Proof/Machine/Bus.lean ====
section
/-! DEFINITION. The register bus: the address map of the window, the word slices of bignum registers and buffers, and
the effect of each transaction (20_memory.md). -/

namespace Sys2Proof.Machine

/-- What a word of the window holds (20_memory.md R66): a 32-bit register, word j of a bignum register, word w of a
buffer, or nothing. -/
inductive Slot where
  | id | version | ctrl | status | cmd | rflags | pflags | attemptMax | retryCnt | sigLen
  | bn (r : BN) (j : Fin 16)
  | digbuf (w : Fin 16)
  | sigbuf (w : Fin 32)
  | reserved
  deriving DecidableEq, Repr

/-- The bignum registers in the order of their indexes (20_memory.md R67). -/
def BN.all : List BN :=
  [.a, .b, .p, .q, .gx, .gy, .opa, .opb, .opm, .p1x, .p1y, .p2x, .p2y, .k, .d, .pubx, .puby, .res0, .res1, .res2]

/-- The offset of a bignum register: 0x100 + 0x40·i (20_memory.md R67). -/
def BN.base (r : BN) : Nat :=
  0x100 + 0x40 * r.index.val

/-- The slot of a word-aligned offset below 0x100 (20_memory.md R66). -/
def controlSlot : Nat → Slot
  | 0x000 => .id
  | 0x004 => .version
  | 0x008 => .ctrl
  | 0x00C => .status
  | 0x010 => .cmd
  | 0x014 => .rflags
  | 0x018 => .pflags
  | 0x01C => .attemptMax
  | 0x020 => .retryCnt
  | 0x024 => .sigLen
  | _ => .reserved

/-- The slot of a word-aligned offset (20_memory.md R62, R63, R66, R67, R68). -/
def slotOf (off : Offset) : Slot :=
  let o := off.toNat
  if o < 0x100 then controlSlot o
  else if o < 0x600 then
    match BN.all[(o - 0x100) / 0x40]? with
    | some r => .bn r (Fin.ofNat 16 (o / 4))
    | none => .reserved
  else if o < 0x640 then .digbuf (Fin.ofNat 16 (o / 4))
  else if o < 0x6C0 then .sigbuf (Fin.ofNat 32 ((o - 0x640) / 4))
  else .reserved

/-- The result registers, which the bus cannot write (10_state.md R20, R25). -/
def BN.readOnly : BN → Bool
  | .res0 => true
  | .res1 => true
  | .res2 => true
  | _ => false

/-- Word j of a bignum: its bits 32j+31 to 32j (20_memory.md R62). -/
def bigWord (x : Big) (j : Fin 16) : Word32 :=
  x.extractLsb' (32 * j.val) 32

/-- A bignum with word j replaced (20_memory.md R62). -/
def setBigWord (x : Big) (j : Fin 16) (v : Word32) : Big :=
  (x &&& ~~~((0xFFFFFFFF : Big) <<< (32 * j.val))) ||| (v.setWidth 512 <<< (32 * j.val))

/-- The four bytes of word w of a buffer, byte 4w in lane 0 (20_memory.md R63). -/
def bufWord {n : Nat} (buf : Vector Byte n) (w : Nat) : Word32 :=
  let lane (j : Nat) : Byte := buf[4 * w + j]?.getD 0
  lane 3 ++ lane 2 ++ lane 1 ++ lane 0

/-- A buffer with word w replaced: byte 4w+j takes bits 8j+7 to 8j (20_memory.md R63). -/
def setBufWord {n : Nat} (buf : Vector Byte n) (w : Nat) (v : Word32) : Vector Byte n :=
  (((buf.setIfInBounds (4 * w) (v.extractLsb' 0 8)).setIfInBounds (4 * w + 1) (v.extractLsb' 8 8)).setIfInBounds
    (4 * w + 2) (v.extractLsb' 16 8)).setIfInBounds (4 * w + 3) (v.extractLsb' 24 8)

/-- The word a read of a slot returns; reserved words read 0 (20_memory.md R62 to R64, R68). -/
def State.readSlot (s : State) : Slot → Word32
  | .id => Config.idValue
  | .version => Config.versionValue
  | .ctrl => s.ctrl.word
  | .status => s.statusWord
  | .cmd => s.cmd
  | .rflags => s.rflags.word
  | .pflags => s.pflags.word
  | .attemptMax => s.attemptMax
  | .retryCnt => s.retryCnt
  | .sigLen => s.sigLen.setWidth 32
  | .bn r j => bigWord (s.bn r) j
  | .digbuf w => bufWord s.digbuf w.val
  | .sigbuf w => bufWord s.sigbuf w.val
  | .reserved => 0

/-- A write that only an idle block takes: while busy it is dropped and sets WBUSY (10_state.md R33). -/
def State.unlessBusy (s : State) (store : State → State) : State :=
  if s.busy then { s with status := { s.status with wbusy := true } } else store s

/-- The effect of a served write on a slot (10_state.md R25 to R39, 20_memory.md R62, R63, R68). -/
def State.writeSlot (s : State) (v : Word32) : Slot → State
  | .id => s
  | .version => s
  | .ctrl => s.writeCtrl v
  | .status => s.writeStatus v
  | .cmd => s.unlessBusy fun t => t.acceptCommand v
  | .rflags => s
  | .pflags => s.unlessBusy fun t => { t with pflags := .ofWord v }
  | .attemptMax => s.unlessBusy fun t => { t with attemptMax := v }
  | .retryCnt => s
  | .sigLen => s.unlessBusy fun t => { t with sigLen := v.extractLsb' 0 8 }
  | .bn r j => if r.readOnly then s else s.unlessBusy fun t => t.setBn r (setBigWord (t.bn r) j v)
  | .digbuf w => s.unlessBusy fun t => { t with digbuf := setBufWord t.digbuf w.val v }
  | .sigbuf w => s.unlessBusy fun t => { t with sigbuf := setBufWord t.sigbuf w.val v }
  | .reserved => s

/-- A transaction is served only when it has 4 bytes, a word-aligned offset and, for a write, all four strobes
(20_memory.md R61). -/
def BusTxn.served : BusTxn → Bool
  | .read off size => size = 4 && off.toNat % 4 = 0
  | .write off size strobes _ => size = 4 && off.toNat % 4 = 0 && strobes = 0xF

/-- `MemRead` and `MemWrite`: one host step. A transaction that is not served changes nothing and is answered ERROR, a
read with data 0 (20_memory.md R60, R61, R71). -/
def State.busStep (s : State) (t : BusTxn) : State :=
  match t with
  | .read off _ =>
    if t.served then { s with reply := some (.read (s.readSlot (slotOf off)) .ok) }
    else { s with reply := some (.read 0 .error) }
  | .write off _ _ v =>
    if t.served then { s.writeSlot v (slotOf off) with reply := some (.write .ok) }
    else { s with reply := some (.write .error) }

end Sys2Proof.Machine
end

