-- ==== Sys2Proof/Machine/ModArith.lean ====
section
/-! DEFINITION. The modular_reduction unit (MODRED, MODADD, MODSUB, MODMUL) and the modular_inverse_engine (MODINV,
EGCD), with the functions EGCD and Inv that the curve and signature commands use (40_modular_arithmetic.md). -/

namespace Sys2Proof.Machine

/-- The loop of 40_modular_arithmetic.md R112. The fuel bounds the iterations: b strictly decreases, so a fuel of b is
never used up before the loop ends. -/
def egcdLoop : Nat → Nat → Nat → Int → Int → Int → Int → Nat × Int × Int
  | 0, a, _, x2, _, y2, _ => (a, x2, y2)
  | fuel + 1, a, b, x2, x1, y2, y1 =>
    if b = 0 then (a, x2, y2)
    else
      let q := a / b
      egcdLoop fuel b (a - q * b) x1 (x2 - (q : Int) * x1) y1 (y2 - (q : Int) * y1)

/-- `EGCD(a, b)` with its start values (40_modular_arithmetic.md R112): the gcd and the two Bézout coefficients. -/
def egcd (a b : Nat) : Nat × Int × Int :=
  egcdLoop b a b 1 0 0 1

/-- `Inv(v, m)`: the coefficient of v, reduced, or NOT_INVERTIBLE (40_modular_arithmetic.md R115, R117;
90_conflicts.md C1). -/
def inv (v m : Nat) : Except Err Nat :=
  let (g, x, _) := egcd (v % m) m
  if g ≠ 1 then .error .notInvertible else .ok (modInt x m)

/-- The common form of the MRU commands: BAD_MODULUS for M = 0, else RES0 takes the residue and RFLAGS 0
(40_modular_arithmetic.md R119 to R123). -/
def mruEnding (m : MSel) (s : State) (residue : Nat → Nat) : Ending :=
  let M := s.modulus m
  if M = 0 then .raise .badModulus
  else .commit { s.setNat .res0 (residue M) with rflags := {} }

/-- MODRED (40_modular_arithmetic.md R120). -/
def execModred (m : MSel) (s : State) : Host.Outcome State Fault Refusal :=
  .next (s.finish (mruEnding m s fun M => s.nat .opa % M))

/-- MODADD (40_modular_arithmetic.md R121). -/
def execModadd (m : MSel) (s : State) : Host.Outcome State Fault Refusal :=
  .next (s.finish (mruEnding m s fun M => (s.nat .opa + s.nat .opb) % M))

/-- MODSUB (40_modular_arithmetic.md R122). -/
def execModsub (m : MSel) (s : State) : Host.Outcome State Fault Refusal :=
  .next (s.finish (mruEnding m s fun M => modInt ((s.nat .opa : Int) - (s.nat .opb : Int)) M))

/-- MODMUL (40_modular_arithmetic.md R123). -/
def execModmul (m : MSel) (s : State) : Host.Outcome State Fault Refusal :=
  .next (s.finish (mruEnding m s fun M => (s.nat .opa * s.nat .opb) % M))

/-- How MODINV ends: BAD_MODULUS for M < 2, NOT_INVERTIBLE from Inv, else RES0 takes the inverse and RFLAGS 0
(40_modular_arithmetic.md R124). -/
def modinvEnding (m : MSel) (s : State) : Ending :=
  let M := s.modulus m
  if M < 2 then .raise .badModulus
  else
    match inv (s.nat .opa) M with
    | .error e => .raise e
    | .ok u => .commit { s.setNat .res0 u with rflags := {} }

/-- MODINV (40_modular_arithmetic.md R124). -/
def execModinv (m : MSel) (s : State) : Host.Outcome State Fault Refusal :=
  .next (s.finish (modinvEnding m s))

/-- The commit of EGCD: the gcd, the magnitudes of the coefficients and their signs (40_modular_arithmetic.md R118,
R125). -/
def egcdCommit (m : MSel) (s : State) : State :=
  let (g, x, y) := egcd (s.nat .opa) (s.modulus m)
  { ((s.setNat .res0 g).setNat .res1 x.natAbs).setNat .res2 y.natAbs with rflags := .signs x y }

/-- EGCD; it has no error of its own (40_modular_arithmetic.md R125). -/
def execEgcd (m : MSel) (s : State) : Host.Outcome State Fault Refusal :=
  .next (s.finish (.commit (egcdCommit m s)))

end Sys2Proof.Machine
end

