-- ==== Sys2Proof/Machine/CurveGroup.lean ====
section
/-! DEFINITION. The curve group: the functions Add, Dbl and Exp over y² = x³ + A·x + B (mod P), and the commands PADD,
PDBL and PMUL (41_curve_group.md). No formula reads B. -/

namespace Sys2Proof.Machine

/-- The point with slope `lam` through (x1, y1) and a second point of abscissa x2 (the last two lines of both formulas,
41_curve_group.md R143, R144). -/
def thirdPoint (P lam x1 y1 x2 : Nat) : Point :=
  let x3 := modInt ((lam : Int) * lam - x1 - x2) P
  .aff x3 (modInt ((lam : Int) * ((x1 : Int) - x3) - y1) P)

/-- The chord formula (41_curve_group.md R143). -/
def chordFormula (P x1 y1 x2 y2 : Nat) : Except Err Point :=
  (inv (modInt ((x2 : Int) - x1) P) P).bind fun i =>
    .ok (thirdPoint P (modInt ((y2 : Int) - y1) P * i % P) x1 y1 x2)

/-- The doubling formula (41_curve_group.md R144): λ² − 2·x1 is λ² − x1 − x1. -/
def doubleFormula (P A x1 y1 : Nat) : Except Err Point :=
  (inv (2 * y1 % P) P).bind fun i =>
    .ok (thirdPoint P ((3 * x1 * x1 + A) % P * i % P) x1 y1 x1)

/-- `Add(X1, X2)`, its cases in the order of 41_curve_group.md R142. -/
def pointAdd (P A : Nat) : Point → Point → Except Err Point
  | .infinity, X2 => .ok X2
  | .aff x1 y1, .infinity => .ok (.aff x1 y1)
  | .aff x1 y1, .aff x2 y2 =>
    if x1 = x2 ∧ y1 = y2 then
      if y1 = 0 then .ok .infinity else doubleFormula P A x1 y1
    else if x1 = x2 ∧ y1 = (P - y2) % P then .ok .infinity
    else chordFormula P x1 y1 x2 y2

/-- `Dbl(X)` (41_curve_group.md R145). -/
def pointDbl (P A : Nat) (X : Point) : Except Err Point :=
  pointAdd P A X X

/-- The recursion of 41_curve_group.md R146. The fuel bounds its depth: each call is made on a smaller scalar, so a fuel
of k is never used up before the recursion ends. -/
def expLoop (P A : Nat) : Nat → Nat → Point → Except Err Point
  | 0, _, _ => .ok .infinity
  | fuel + 1, k, X =>
    if k = 0 then .ok .infinity
    else if k = 1 then .ok X
    else if k % 2 = 1 then (expLoop P A fuel (k - 1) X).bind fun T => pointAdd P A X T
    else (pointAdd P A X X).bind fun X2 => expLoop P A fuel (k / 2) X2

/-- `Exp(k, X)` (41_curve_group.md R146). -/
def pointExp (P A k : Nat) (X : Point) : Except Err Point :=
  expLoop P A k k X

/-- The result form of a point: RINF and zeros for O, else the two coordinates (41_curve_group.md R149). -/
def State.pointResult (s : State) : Point → State
  | .infinity => { (s.setNat .res0 0).setNat .res1 0 with rflags := .point true }
  | .aff x y => { (s.setNat .res0 x).setNat .res1 y with rflags := .point false }

/-- The end of a command whose result is a point (41_curve_group.md R149, R150). -/
def pointEnding (s : State) : Except Err Point → Ending
  | .error e => .raise e
  | .ok R => .commit (s.pointResult R)

/-- How PADD ends: CONFIG, RANGE of point 1, RANGE of point 2, then the sum (41_curve_group.md R150,
60_exceptions.md R214). -/
def paddEnding (s : State) : Ending :=
  if s.cfgCurve = false then .raise .config
  else if s.pt1.inRange (s.nat .p) = false then .raise .range
  else if s.pt2.inRange (s.nat .p) = false then .raise .range
  else pointEnding s (pointAdd (s.nat .p) (s.nat .a) s.pt1 s.pt2)

/-- PADD (41_curve_group.md R150). -/
def execPadd (s : State) : Host.Outcome State Fault Refusal :=
  .next (s.finish (paddEnding s))

/-- The common form of the commands on point 1 alone: CONFIG, RANGE, then the result (41_curve_group.md R151, R152). -/
def onePointEnding (s : State) (result : Except Err Point) : Ending :=
  if s.cfgCurve = false then .raise .config
  else if s.pt1.inRange (s.nat .p) = false then .raise .range
  else pointEnding s result

/-- PDBL (41_curve_group.md R151). -/
def execPdbl (s : State) : Host.Outcome State Fault Refusal :=
  .next (s.finish (onePointEnding s (pointDbl (s.nat .p) (s.nat .a) s.pt1)))

/-- PMUL: the scalar is all 512 bits of K, not reduced (41_curve_group.md R152). -/
def execPmul (s : State) : Host.Outcome State Fault Refusal :=
  .next (s.finish (onePointEnding s (pointExp (s.nat .p) (s.nat .a) (s.nat .k) s.pt1)))

end Sys2Proof.Machine
end

