-- ==== Sys2Proof/Machine/SignatureEngine.lean ====
section
/-! DEFINITION. The signature engine: KEYGEN, SIGN and VERIFY (42_signature_engine.md). KEYGEN and SIGN make one attempt
per engine step, each with one answer of the entropy port. -/

namespace Sys2Proof.Machine

/-- Scalar multiplication on the configured curve. -/
def State.curveExp (s : State) (k : Nat) (X : Point) : Except Err Point :=
  pointExp (s.nat .p) (s.nat .a) k X

/-- One attempt of KEYGEN on the drawn bytes: the scalar is the byte-reversed draw read big-endian and reduced modulo Q
(42_signature_engine.md R175). -/
def keygenAttempt (b : List Byte) (s : State) : Ending :=
  let d := intBE b.reverse % s.nat .q
  if d = 0 then .retry
  else
    match s.curveExp d s.basePoint with
    | .error e => .raise e
    | .ok .infinity => .raise .config
    | .ok (.aff x y) => .commit { ((s.setNat .res0 d).setNat .res1 x).setNat .res2 y with rflags := {} }

/-- KEYGEN: CONFIG, then an attempt on n drawn bytes (42_signature_engine.md R175). -/
def execKeygen (s : State) : Host.Outcome State Fault Refusal :=
  .next (if s.cfgSig = false then s.raiseError .config else s.withDraw s.n keygenAttempt)

/-- `SignCommit(r, s)` (42_signature_engine.md R178). -/
def State.signCommit (s : State) (r sg : Nat) : State :=
  { (s.setNat .res0 r).setNat .res1 sg with
    sigbuf := sigBytes s.n r sg
    sigLen := BitVec.ofNat 8 (2 * s.n)
    rflags := {} }

/-- One attempt of SIGN on the drawn bytes: the nonce is the draw read big-endian and reduced modulo Q
(42_signature_engine.md R177). -/
def signAttempt (b : List Byte) (s : State) : Ending :=
  let k := intBE b % s.nat .q
  if k = 0 then .retry
  else
    match s.curveExp k s.basePoint with
    | .error e => .raise e
    | .ok .infinity => .raise .config
    | .ok (.aff x _) =>
      let r := x % s.nat .q
      if r = 0 then .retry
      else
        let sg := (r * s.nat .d + k * s.digestE) % s.nat .q
        if sg = 0 then .retry else .commit (s.signCommit r sg)

/-- SIGN: CONFIG, RANGE of the private key, then an attempt on 64 drawn bytes in either mode
(42_signature_engine.md R177). -/
def execSign (s : State) : Host.Outcome State Fault Refusal :=
  .next (
    if s.cfgSig = false then s.raiseError .config
    else if s.nat .d = 0 ∨ s.nat .q ≤ s.nat .d then s.raiseError .range
    else s.withDraw Config.nonceBytes signAttempt)

/-- `VerifyCompare(C, r)`: O never verifies; otherwise C.x mod Q, or the raw C.x under CTRL.VFY_COMPAT, is compared with
r (42_signature_engine.md R184, R185). -/
def State.verifyCompare (s : State) (r : Nat) : Point → Bool
  | .infinity => false
  | .aff x _ => if s.ctrl.vfyCompat then x = r else x % s.nat .q = r

/-- The point C of the verification equation (42_signature_engine.md R183). -/
def State.verifyPoint (s : State) (r sg : Nat) : Except Err Point :=
  (inv s.digestE (s.nat .q)).bind fun v =>
    (s.curveExp (sg * v % s.nat .q) s.basePoint).bind fun C1 =>
      (s.curveExp (modInt (-((r : Int) * v)) (s.nat .q)) s.pubPoint).bind fun C2 =>
        pointAdd (s.nat .p) (s.nat .a) C1 C2

/-- The commit of VERIFY: RFLAGS alone (42_signature_engine.md R180). -/
def State.verifyCommit (s : State) (ok : Bool) : State :=
  { s with rflags := .verified ok }

/-- How VERIFY ends: CONFIG, FORMAT, RANGE of the public key, the range rejection, then the comparison
(42_signature_engine.md R180 to R182). -/
def verifyEnding (s : State) : Ending :=
  if s.cfgSig = false then .raise .config
  else if s.sigLen.toNat ≠ 2 * s.n then .raise .format
  else if s.nat .p ≤ s.nat .pubx ∨ s.nat .p ≤ s.nat .puby then .raise .range
  else if s.sigR = 0 ∨ s.sigS = 0 ∨ s.nat .q ≤ s.sigR ∨ s.nat .q ≤ s.sigS then .commit (s.verifyCommit false)
  else
    match s.verifyPoint s.sigR s.sigS with
    | .error e => .raise e
    | .ok C => .commit (s.verifyCommit (s.verifyCompare s.sigR C))

/-- VERIFY (42_signature_engine.md R180). -/
def execVerify (s : State) : Host.Outcome State Fault Refusal :=
  .next (s.finish (verifyEnding s))

end Sys2Proof.Machine
end

