-- ==== Sys2Proof/Machine/Dispatch.lean ====
section
/-! DEFINITION. exec: the engine step of a command, one arm per constructor of Instr (10_state.md R47). -/

namespace Sys2Proof.Machine

def exec (i : Instr) (s : State) : Host.Outcome State Fault Refusal :=
  match i with
  | .nop => Sys2Proof.Machine.execNop s
  | .modred m => Sys2Proof.Machine.execModred m s
  | .modadd m => Sys2Proof.Machine.execModadd m s
  | .modsub m => Sys2Proof.Machine.execModsub m s
  | .modmul m => Sys2Proof.Machine.execModmul m s
  | .modinv m => Sys2Proof.Machine.execModinv m s
  | .egcd m => Sys2Proof.Machine.execEgcd m s
  | .padd => Sys2Proof.Machine.execPadd s
  | .pdbl => Sys2Proof.Machine.execPdbl s
  | .pmul => Sys2Proof.Machine.execPmul s
  | .keygen => Sys2Proof.Machine.execKeygen s
  | .sign => Sys2Proof.Machine.execSign s
  | .verify => Sys2Proof.Machine.execVerify s

end Sys2Proof.Machine
end

