-- ==== Sys2Proof/Machine/Engine.lean ====
section
/-! DEFINITION. The turns of the three agents (00_scope.md R15): the engine, which runs the command in CMD while the
phase is RUN, the host's bus transactions, the entropy source, and the hardware reset input. -/

namespace Sys2Proof.Machine

/-- A turn of the engine: an engine step of the command in CMD while the phase is RUN, and nothing while it is IDLE
(10_state.md R47). -/
def engineTurn (s : State) : Host.Outcome State Fault Refusal :=
  match s.phase with
  | .idle => .next s
  | .run =>
    match decode s.cmd with
    | .ok i => exec i s
    | .error _ => .fault .runningIllegalWord

/-- A turn of the entropy source: its answer waits for a draw (10_state.md R50). -/
def State.presentAnswer (s : State) (a : Answer) : State :=
  { s with answers := s.answers ++ [a] }

/-- The step an entry of the total order stands for. -/
def takeTurn (t : Turn) (s : State) : Host.Outcome State Fault Refusal :=
  match t with
  | .bus x => .next (s.busStep x)
  | .engine => engineTurn s
  | .entropy a => .next (s.presentAnswer a)
  | .resetInput => .next s.blockReset

/-- The next step of the machine: the first entry of the order still to come. When nothing more is to come from outside,
the engine goes on alone (log entry 2). -/
def nextStep (s : State) : Host.Outcome State Fault Refusal :=
  match s.turns with
  | [] => engineTurn s
  | t :: rest => takeTurn t { s with turns := rest }

/-- The state in which a command word has just been accepted and the engine has the next turn: what a CMD write while
idle does (10_state.md R31), whatever ran before. -/
def State.startWord (s : State) (w : Word32) : State :=
  let t := ({ s with phase := .idle, pending := none }).acceptCommand w
  { t with turns := .engine :: t.turns }

end Sys2Proof.Machine
end

