-- ==== Sys2Proof/Machine/Step.lean ====
section
/-! DEFINITION. The step of the machine, and how a command word is placed where the next step runs it. -/

namespace Sys2Proof.Machine

/-- One step of the machine: one entry of the total order of 00_scope.md R15. -/
def step (s : State) : Host.Outcome State Fault Refusal :=
  nextStep s

/-- s with the command word of `nbits` bits whose bits are w just accepted by CMD, so that the very next step is the
engine step that runs it (log entry 1). -/
def State.withFetchWord (s : State) (nbits w : Nat) : State :=
  s.startWord (BitVec.ofNat 32 (w % 2 ^ nbits))

end Sys2Proof.Machine
end

