-- ==== Sys2Proof/Machine/HostNotation.lean ====
section
/-! DEFINITION. The host notation of 30_encoding.md R104 to R107: mnemonics, transactions and the pseudo-instructions
that expand to them. A program of the host reaches the block only as the list of its transactions (R107); the branches of
a program (`bne`, the loop of `wait`) are the host processor's and are no part of the block (R105). -/

namespace Sys2Proof.Machine

/-- The assembler suffix of a modulus select; no suffix means `.M` (30_encoding.md R92, R104). -/
def mselSuffix : MSel → String
  | .opm => ".M"
  | .p => ".P"
  | .q => ".Q"

/-- A command as the host notation writes it, with its suffix written out (30_encoding.md R104). -/
def commandText : Instr → String
  | .nop => "NOP"
  | .modred m => "MODRED" ++ mselSuffix m
  | .modadd m => "MODADD" ++ mselSuffix m
  | .modsub m => "MODSUB" ++ mselSuffix m
  | .modmul m => "MODMUL" ++ mselSuffix m
  | .modinv m => "MODINV" ++ mselSuffix m
  | .egcd m => "EGCD" ++ mselSuffix m
  | .padd => "PADD"
  | .pdbl => "PDBL"
  | .pmul => "PMUL"
  | .keygen => "KEYGEN"
  | .sign => "SIGN"
  | .verify => "VERIFY"

/-- The three commands of an opcode with a modulus operand. -/
def withEachModulus (f : MSel → Instr) : List Instr :=
  [f .opm, f .p, f .q]

/-- Every command the notation can write. -/
def allCommands : List Instr :=
  [.nop] ++ withEachModulus .modred ++ withEachModulus .modadd ++ withEachModulus .modsub ++ withEachModulus .modmul
    ++ withEachModulus .modinv ++ withEachModulus .egcd ++ [.padd, .pdbl, .pmul, .keygen, .sign, .verify]

/-- The command word a mnemonic assembles to (30_encoding.md R104). -/
def assemble (text : String) : Option Word32 :=
  (allCommands.find? fun i => commandText i == text || commandText i == text ++ ".M").map encode

/-- `wr OFF, V` (30_encoding.md R105). -/
def wr (off : Nat) (v : Word32) : BusTxn :=
  .write (BitVec.ofNat 12 off) 4 0xF v

/-- `rd OFF` (30_encoding.md R105). -/
def rd (off : Nat) : BusTxn :=
  .read (BitVec.ofNat 12 off) 4

/-- `ldbn R, v`: 16 writes, the least significant word first (30_encoding.md R106). -/
def ldbn (r : BN) (v : Big) : List BusTxn :=
  (List.range 16).map fun j => wr (r.base + 4 * j) (bigWord v (Fin.ofNat 16 j))

/-- `rdbn R`: 16 reads (30_encoding.md R106). -/
def rdbn (r : BN) : List BusTxn :=
  (List.range 16).map fun j => rd (r.base + 4 * j)

/-- `ldbytes BUF, b`: one write for each four bytes, the first byte in lane 0 (30_encoding.md R106). -/
def ldbytes (base : Nat) : List Byte → List BusTxn
  | b0 :: b1 :: b2 :: b3 :: rest => wr base (b3 ++ b2 ++ b1 ++ b0) :: ldbytes (base + 4) rest
  | _ => []

/-- `cmd MNEMONIC`: a write of the command word to CMD (30_encoding.md R106). -/
def cmdTxn (i : Instr) : BusTxn :=
  wr 0x010 (encode i)

/-- `clrdone`: a write of 2 to STATUS (30_encoding.md R106). -/
def clrdone : BusTxn :=
  wr 0x00C 0x00000002

/-- The read that `wait` repeats (30_encoding.md R106). -/
def waitRead : BusTxn :=
  rd 0x00C

/-- Whether the loop of `wait` ends on the data of its read: DONE is 1 (30_encoding.md R106). -/
def waitEnds (data : Word32) : Bool :=
  data &&& 2 = 2

/-- The block after a list of transactions, with no other turn between them. -/
def State.busSteps (s : State) (l : List BusTxn) : State :=
  l.foldl State.busStep s

end Sys2Proof.Machine
end

