-- ==== Sys2Proof/Safety.lean ====
section
/-! DEFINITION. What the claims speak of: the invariant of the block, what a command may read and write, the ends of a
command as whole states, and the points of a curve. -/

namespace Sys2Proof.Machine

/-- The byte count a command asks of the entropy port (10_state.md R50). -/
def State.requestLength (s : State) : Instr → Option Nat
  | .keygen => some s.n
  | .sign => some Config.nonceBytes
  | .nop => none
  | .modred _ => none
  | .modadd _ => none
  | .modsub _ => none
  | .modmul _ => none
  | .modinv _ => none
  | .egcd _ => none
  | .padd => none
  | .pdbl => none
  | .pmul => none
  | .verify => none

/-- The private key is in the range SIGN asks for: 0 < D < Q (42_signature_engine.md R177). -/
def State.keyInRange (s : State) : Bool :=
  0 < s.nat .d && s.nat .d < s.nat .q

/-- An outstanding request is one the running command makes, of the length it asks for, and its checks before the draw
have passed (10_state.md R46, R50; 42_signature_engine.md R175, R177). -/
def State.requestOk (s : State) (i : Instr) : Bool :=
  s.pending = none || (s.pending = s.requestLength i && s.cfgSig && (i ≠ .sign || s.keyInRange))

/-- A running KEYGEN or SIGN with a cap has counted fewer degenerate attempts than the cap
(42_signature_engine.md R171, R172). -/
def State.countOk (s : State) (i : Instr) : Bool :=
  !drawsEntropy i || s.attemptMax = 0 || s.retryCnt.toNat < s.attemptMax.toNat

/-- The invariant of the block: while idle no request is outstanding; while running DONE and ERR are 0, CMD holds a legal
word, an outstanding request is the command's, and the retry count is below the cap (10_state.md R29, R31, R46;
42_signature_engine.md R172). -/
def State.good (s : State) : Bool :=
  match s.phase with
  | .idle => s.pending = none
  | .run =>
    !s.status.done && s.status.err = none &&
      match decode s.cmd with
      | .ok i => s.requestOk i && s.countOk i
      | .error _ => false

/-- Every piece of the block's state at the value of the table of 10_state.md R55. -/
structure ResetValues (s : State) : Prop where
  bignums : ∀ r, s.nat r = 0
  digbuf : ∀ i : Fin 64, s.digbuf[i] = 0
  sigbuf : ∀ i : Fin 128, s.sigbuf[i] = 0
  mode : s.ctrl.mode = .m256
  ie : s.ctrl.ie = false
  digLE : s.ctrl.digLE = false
  vfyCompat : s.ctrl.vfyCompat = false
  busy : s.busy = false
  done : s.status.done = false
  wbusy : s.status.wbusy = false
  err : s.status.err = none
  cmd : s.cmd = 0
  rflags : s.rflags.rinf = false ∧ s.rflags.res1Neg = false ∧ s.rflags.res2Neg = false ∧ s.rflags.verifyOk = false
  pflags : s.pflags.p1inf = false ∧ s.pflags.p2inf = false
  attemptMax : s.attemptMax = 0
  retryCnt : s.retryCnt = 0
  sigLen : s.sigLen = 0
  phase : s.phase = .idle
  pending : s.pending = none
  irq : s.irq = false
  id : s.readSlot .id = 0x474F5354
  version : s.readSlot .version = 0x00010000

/-- The block s after a command has ended with error e: only the phase, the request and STATUS differ
(60_exceptions.md R212). -/
def State.failed (s : State) (e : Err) : State :=
  { s with phase := .idle, pending := none, status := { done := true, wbusy := s.status.wbusy, err := some e } }

/-- The state t after the step that ends a command successfully has made the writes of t (10_state.md R48). -/
def State.succeeded (t : State) : State :=
  { t with phase := .idle, pending := none, status := { done := true, wbusy := t.status.wbusy, err := none } }

/-- Two states of the block agree on everything a command only reads, and on what is still to come and the last reply:
the 17 RW registers, CTRL, PFLAGS, ATTEMPT_MAX, CMD, DIGBUF and WBUSY (10_state.md R22). -/
structure InputsKept (s t : State) : Prop where
  bignums : ∀ r : BN, r.readOnly = false → t.bn r = s.bn r
  ctrl : t.ctrl = s.ctrl
  pflags : t.pflags = s.pflags
  attemptMax : t.attemptMax = s.attemptMax
  cmd : t.cmd = s.cmd
  digbuf : t.digbuf = s.digbuf
  wbusy : t.status.wbusy = s.status.wbusy
  turns : t.turns = s.turns
  reply : t.reply = s.reply

/-- The result registers a command writes (10_state.md R22). -/
def writesBn : Instr → List BN
  | .nop => []
  | .modred _ => [.res0]
  | .modadd _ => [.res0]
  | .modsub _ => [.res0]
  | .modmul _ => [.res0]
  | .modinv _ => [.res0]
  | .egcd _ => [.res0, .res1, .res2]
  | .padd => [.res0, .res1]
  | .pdbl => [.res0, .res1]
  | .pmul => [.res0, .res1]
  | .keygen => [.res0, .res1, .res2]
  | .sign => [.res0, .res1]
  | .verify => []

/-- The register that holds the modulus (30_encoding.md R92). -/
def mselBn : MSel → BN
  | .opm => .opm
  | .p => .p
  | .q => .q

/-- The registers of point 1, read only when P1INF is 0 (10_state.md R22). -/
def State.point1Bn (s : State) : List BN :=
  if s.pflags.p1inf then [] else [.p1x, .p1y]

/-- The registers of point 2, read only when P2INF is 0 (10_state.md R22). -/
def State.point2Bn (s : State) : List BN :=
  if s.pflags.p2inf then [] else [.p2x, .p2y]

/-- The bignum registers a command reads (10_state.md R22, 30_encoding.md R93). -/
def State.readsBn (s : State) : Instr → List BN
  | .nop => []
  | .modred m => [.opa, mselBn m]
  | .modadd m => [.opa, .opb, mselBn m]
  | .modsub m => [.opa, .opb, mselBn m]
  | .modmul m => [.opa, .opb, mselBn m]
  | .modinv m => [.opa, mselBn m]
  | .egcd m => [.opa, mselBn m]
  | .padd => [.a, .p] ++ s.point1Bn ++ s.point2Bn
  | .pdbl => [.a, .p] ++ s.point1Bn
  | .pmul => [.a, .p, .k] ++ s.point1Bn
  | .keygen => [.a, .p, .q, .gx, .gy]
  | .sign => [.a, .p, .q, .gx, .gy, .d]
  | .verify => [.a, .p, .q, .gx, .gy, .pubx, .puby]

/-- A turn that resets the block: the reset input, or a served CTRL write with SRST (70_reset_and_hazards.md R240). -/
def Turn.resets : Turn → Bool
  | .bus (.write off size strobes v) =>
    (BusTxn.write off size strobes v).served && slotOf off = .ctrl && v.getLsbD 9
  | .bus (.read _ _) => false
  | .engine => false
  | .entropy _ => false
  | .resetInput => true

/-- The next step of s resets the block. -/
def State.resetNext (s : State) : Bool :=
  match s.turns with
  | [] => false
  | t :: _ => t.resets

/-- A point lies on y² = x³ + A·x + B (mod P), with its coordinates in [0, P) (00_scope.md R14, R17). -/
def OnCurve (P A B : Nat) : Point → Prop
  | .infinity => True
  | .aff x y => x < P ∧ y < P ∧ y * y % P = (x * x * x + A * x + B) % P

/-- The curve conditions of 41_curve_group.md R153 on a prime P: above 3, and 4A³ + 27B² not 0 modulo P. -/
structure ProperCurve (P A B : Nat) : Prop where
  above3 : 3 < P
  smooth : (4 * A ^ 3 + 27 * B ^ 2) % P ≠ 0

/-- The short Weierstrass curve over the field of P elements, in the library's terms. -/
def fieldCurve (P A B : Nat) : WeierstrassCurve.Affine (ZMod P) :=
  { a₁ := 0, a₂ := 0, a₃ := 0, a₄ := (A : ZMod P), a₆ := (B : ZMod P) }

/-- A point of the block stands for a point of the library's curve: O for its zero, coordinates for their residues. -/
def StandsFor {P A B : Nat} : Point → (fieldCurve P A B).Point → Prop
  | .infinity, .zero => True
  | .aff x y, .some X Y _ => x < P ∧ y < P ∧ (x : ZMod P) = X ∧ (y : ZMod P) = Y
  | .infinity, .some _ _ _ => False
  | .aff _ _, .zero => False

/-- A command whose result is a point ends as 41_curve_group.md R149 says: with NOT_INVERTIBLE, the only error of Add and
Exp, or with RES0, RES1 and RFLAGS written and nothing else but the end-of-command fields. -/
def EndsWithPoint (s : State) (o : Host.Outcome State Fault Refusal) (result : Except Err Point) : Prop :=
  (∀ e, result = .error e → e = .notInvertible ∧ o = .next (s.failed .notInvertible)) ∧
  (result = .ok .infinity →
    o = .next ({ (s.setBn .res0 0).setBn .res1 0 with
      rflags := { rinf := true, res1Neg := false, res2Neg := false, verifyOk := false } } : State).succeeded) ∧
  (∀ x y, result = .ok (.aff x y) → ∃ vx vy : Big, vx.toNat = x ∧ vy.toNat = y ∧
    o = .next ({ (s.setBn .res0 vx).setBn .res1 vy with
      rflags := { rinf := false, res1Neg := false, res2Neg := false, verifyOk := false } } : State).succeeded)

/-- A word read of s at an offset returns the number n with an OK response, and changes nothing but the reply
(20_memory.md R64, R71). -/
def State.ReadsAs (s : State) (off n : Nat) : Prop :=
  ∃ d : Word32, d.toNat = n ∧ s.busStep (rd off) = { s with reply := some (.read d .ok) }

/-- Each outcome of a command beside its code, as the table of 60_exceptions.md R210 lists them. -/
def outcomeCodes : List (Option Err × Nat) :=
  [(none, 0), (some .illegal, 1), (some .badModulus, 2), (some .notInvertible, 3), (some .range, 4), (some .config, 5),
    (some .format, 6), (some .entropy, 7), (some .retryLimit, 8), (some .aborted, 9)]

/-- The state in which an attempt runs: the oldest answer taken, and no request outstanding (10_state.md R50). -/
def State.afterDraw (s : State) (rest : List Answer) : State :=
  { s with answers := rest, pending := none }

end Sys2Proof.Machine
end

