-- ==== Sys2Proof/Certificates/Slice0/Obligations.lean ====
section
/-! DEFINITION. The statements about the model, one definition each. A docstring names the rule of spec/ a statement
formalises, or says that the statement rests on the sections named. -/

open Sys2Proof Sys2Proof.Machine

/-! Encoding. -/

/-- 30_encoding.md R95 and R104: each word has one meaning and each command one word. -/
def Obligations.DecodeAndEncodeAgree : Prop :=
  ∀ (w : Word32) (i : Instr), decode w = .ok i ↔ w = encode i

/-- 30_encoding.md R95 against R96: the words that select no row are those that meet one of the four clauses. -/
def Obligations.DecoderRefusesExactlyIllegalWords : Prop :=
  ∀ w : Word32, (∃ e, decode w = .error e) ↔ illegalWord w = true

/-- 95_test_vectors.md section 3.1: written-out words of every family decode as the table says. -/
def Obligations.WrittenWordsDecode : Prop :=
  decode 0x00000000 = .ok .nop ∧ decode 0x00000101 = .ok (.modred .p) ∧ decode 0x00000204 = .ok (.modmul .q) ∧
  decode 0x00000005 = .ok (.modinv .opm) ∧ decode 0x00000106 = .ok (.egcd .p) ∧ decode 0x00000012 = .ok .pmul ∧
  decode 0x00000021 = .ok .sign ∧ decode 0x00000301 = .error .reservedMsel ∧
  decode 0x00000112 = .error .mselNotZero ∧ decode 0x00000007 = .error .reservedOpcode ∧
  decode 0x80000012 = .error .reservedBits

/-! The start of a command and reset. -/

/-- 10_state.md R31, 43_control_commands.md R201: a CMD write while idle. A word that is not illegal starts the engine; an
illegal one ends in the same host step with ILLEGAL, BUSY stays 0, so that no engine step follows, and irq is IE; with the
example of R201. -/
def Obligations.CmdWriteStartsOrEndsTheCommand : Prop :=
  (∀ (s : State) (w : Word32), s.phase = .idle → illegalWord w = false →
    s.busStep (wr 0x010 w) =
      { s with cmd := w, phase := .run, status := { done := false, wbusy := s.status.wbusy, err := none },
               retryCnt := if w.toNat % 256 = 0x20 ∨ w.toNat % 256 = 0x21 then 0 else s.retryCnt,
               reply := some (.write .ok) }) ∧
  (∀ (s : State) (w : Word32) (rest : List Turn), s.phase = .idle → s.turns = .bus (wr 0x010 w) :: rest →
    illegalWord w = true →
    ∃ t, step s = .next t ∧
      t = { s with cmd := w, status := { done := true, wbusy := s.status.wbusy, err := some .illegal },
                   reply := some (.write .ok), turns := rest } ∧
      t.busy = false ∧ t.irq = s.ctrl.ie) ∧
  (∃ t, step { State.reset with turns := [.bus (wr 0x010 0x00000307)] } = .next t ∧
    t.statusWord = 0x00000102 ∧ t.cmd = 0x00000307)

/-- 10_state.md R55, 43_control_commands.md R203: the reset state, what the reset input leaves, and what a CTRL write with
SRST leaves hold the value of the table in every piece of state, whether the block was idle or busy; the other bits of
that write have no effect. -/
def Obligations.ResetPutsEveryPieceAtItsValue : Prop :=
  ResetValues State.reset ∧
  (∀ (s : State) (rest : List Turn), s.turns = .resetInput :: rest → ∃ t, step s = .next t ∧ ResetValues t) ∧
  (∀ (s : State) (v v' : Word32), v.getLsbD 9 = true → v'.getLsbD 9 = true →
    ResetValues (s.busStep (wr 0x008 v)) ∧
    (s.busStep (wr 0x008 v)).statusWord = 0 ∧ (s.busStep (wr 0x008 v)).ctrl.word = 0 ∧
    s.busStep (wr 0x008 v) = s.busStep (wr 0x008 v'))

/-! The machine as a whole. -/

/-- The invariant of 10_state.md R29, R31 and R46 holds at reset. -/
def Obligations.ResetStateIsGood : Prop :=
  State.reset.good = true

/-- Every step keeps the invariant of 10_state.md R29, R31, R46 and 42_signature_engine.md R172. -/
def Obligations.EveryStepKeepsTheInvariant : Prop :=
  ∀ s t : State, s.good = true → step s = .next t → t.good = true

/-- No state with the invariant stops with a fault or a refusal. -/
def Obligations.GoodStatesNeverStop : Prop :=
  ∀ s : State, s.good = true → ∃ t, step s = .next t

/-- 10_state.md R29: in every state that any program of turns and any answers reach from reset, a busy block has DONE 0 and
ERR 0. -/
def Obligations.BusyBlockShowsNoOutcome : Prop :=
  ∀ (turns : List Turn) (answers : List Answer) (k : Nat) (t : State),
    Sys2Proof.core.run k { State.reset with turns := turns, answers := answers } = .next t →
    t.busy = true → t.status.done = false ∧ t.status.err = none

/-- 42_signature_engine.md R172: a running KEYGEN or SIGN with a cap of N ends within N engine steps when the entropy
source answers each of them. That the answers wait in a list and that the engine goes on alone when nothing more is to come
from the host are the model's choices (log entries 2 and 3). -/
def Obligations.CappedCommandEndsWithinItsAttempts : Prop :=
  ∀ (s : State) (i : Instr), s.good = true → s.phase = .run → decode s.cmd = .ok i → drawsEntropy i = true →
    s.attemptMax ≠ 0 → s.turns = [] → s.attemptMax.toNat ≤ s.answers.length →
    ∃ (k : Nat) (t : State), k ≤ s.attemptMax.toNat ∧ Sys2Proof.core.run k s = .next t ∧ t.phase = .idle

/-- 10_state.md R47, R21: while the phase is RUN and the engine has the turn, the step is the execution of the command that
CMD decodes to. That the engine also has the turn when no turn is listed is the model's choice (log entry 2). -/
def Obligations.StepRunsTheDecodedCommand : Prop :=
  ∀ (s : State) (i : Instr), s.phase = .run → decode s.cmd = .ok i →
    (s.turns = [] → step s = exec i s) ∧
    (∀ rest, s.turns = .engine :: rest → step s = exec i { s with turns := rest })

/-- 00_scope.md R15, 20_memory.md R75, 10_state.md R47: a turn of the host, of the entropy source, of an idle engine or of
the reset input does that agent's step alone. That an idle block with no turn listed stays as it is, that an answer waits
in a list, and that a reset keeps what is still to come from outside are the model's choices (log entries 2, 3 and 5). -/
def Obligations.StepTakesTheNextTurn : Prop :=
  ∀ (s : State) (rest : List Turn),
    (∀ x, s.turns = .bus x :: rest → step s = .next (({ s with turns := rest } : State).busStep x)) ∧
    (∀ a, s.turns = .entropy a :: rest → step s = .next { s with turns := rest, answers := s.answers ++ [a] }) ∧
    (s.phase = .idle → s.turns = .engine :: rest → step s = .next { s with turns := rest }) ∧
    (s.phase = .idle → s.turns = [] → step s = .next s) ∧
    (s.turns = .resetInput :: rest →
      step s = .next { State.reset with turns := rest, answers := s.answers, reply := s.reply })

/-- 10_state.md R47: a command other than KEYGEN and SIGN ends in one engine step, successfully or with an error. -/
def Obligations.OneStepCommandsEnd : Prop :=
  ∀ (i : Instr) (s : State), i ≠ .keygen → i ≠ .sign →
    ∃ t, exec i s = .next t ∧ t.phase = .idle ∧ t.status.done = true ∧ t.pending = none

/-- 10_state.md R22: what no command changes, and which result registers each command may change. -/
def Obligations.CommandsWriteOnlyTheirResults : Prop :=
  ∀ (i : Instr) (s t : State), exec i s = .next t →
    InputsKept s t ∧
    (∀ r, r ∉ writesBn i → t.bn r = s.bn r) ∧
    (i ≠ .sign → t.sigbuf = s.sigbuf ∧ t.sigLen = s.sigLen) ∧
    (i ≠ .keygen → i ≠ .sign → t.retryCnt = s.retryCnt ∧ t.answers = s.answers) ∧
    (i = .nop → t.rflags = s.rflags)

/-- 10_state.md R22, 30_encoding.md R93: changing a bignum register that a command does not read changes nothing of what
the command does, but that register itself. -/
def Obligations.CommandsReadOnlyTheirOperands : Prop :=
  ∀ (i : Instr) (s t : State) (r : BN) (v : Big), r ∉ s.readsBn i → exec i s = .next t →
    ∃ x : Big, exec i (s.setBn r v) = .next (t.setBn r x)

/-- 10_state.md R44, 42_signature_engine.md R173 and R181: DIGBUF bytes n to 63 are read by no command, and SIGBUF bytes 2n
to 127 are not read by VERIFY. -/
def Obligations.BufferTailsAreNotRead : Prop :=
  (∀ (i : Instr) (s t : State) (d : Vector Byte 64), d.toList.take s.n = s.digbuf.toList.take s.n →
    exec i s = .next t → exec i { s with digbuf := d } = .next { t with digbuf := d }) ∧
  (∀ (s t : State) (b : Vector Byte 128), b.toList.take (2 * s.n) = s.sigbuf.toList.take (2 * s.n) →
    exec .verify s = .next t → exec .verify { s with sigbuf := b } = .next { t with sigbuf := b })

/-- 60_exceptions.md R212, R216: a command that ends with an error has changed STATUS and RETRY_CNT alone (and, of the
model's own and the hidden state, the phase, the request and the answer it took), RETRY_CNT only by the degenerate attempt
that ends it with RETRY_LIMIT, and the next CMD write starts normally. -/
def Obligations.FailedCommandCommitsNothing : Prop :=
  ∀ (i : Instr) (s t : State) (e : Err), s.status.err = none → exec i s = .next t → t.status.err = some e →
    t = { s.failed e with retryCnt := t.retryCnt, answers := t.answers } ∧
    (t.answers = s.answers ∨ ∃ a, s.answers = a :: t.answers) ∧
    (e ≠ .retryLimit → t.retryCnt = s.retryCnt) ∧
    (e = .retryLimit → t.retryCnt.toNat = min (s.retryCnt.toNat + 1) 0xFFFFFFFF) ∧
    (∀ (w : Word32) (j : Instr), decode w = .ok j → (t.busStep (wr 0x010 w)).phase = .run)

/-- 10_state.md R48, 70_reset_and_hazards.md R250: in every step, RES0 to RES2 and RFLAGS change only when the block is
reset or the engine ends a command successfully. -/
def Obligations.ResultsAppearOnlyAtCommit : Prop :=
  ∀ s t : State, step s = .next t →
    (t.bn .res0 ≠ s.bn .res0 ∨ t.bn .res1 ≠ s.bn .res1 ∨ t.bn .res2 ≠ s.bn .res2 ∨ t.rflags ≠ s.rflags) →
    s.resetNext = true ∨
      (s.phase = .run ∧ t.phase = .idle ∧ t.status.done = true ∧ t.status.err = none ∧ t.pending = none)

/-- 10_state.md R33, R34: from one step to the next of a running command, unless the block is reset, every register a
command reads keeps its value; the signature buffer changes only in the step that ends the command. -/
def Obligations.OperandsHoldWhileBusy : Prop :=
  ∀ s t : State, s.phase = .run → s.resetNext = false → step s = .next t →
    (∀ r : BN, r.readOnly = false → t.bn r = s.bn r) ∧
    t.ctrl.mode = s.ctrl.mode ∧ t.ctrl.digLE = s.ctrl.digLE ∧ t.ctrl.vfyCompat = s.ctrl.vfyCompat ∧
    t.pflags = s.pflags ∧ t.attemptMax = s.attemptMax ∧ t.digbuf = s.digbuf ∧ t.cmd = s.cmd ∧
    (t.phase = .run → t.sigbuf = s.sigbuf ∧ t.sigLen = s.sigLen)

/-- 10_state.md R32: a successful command other than NOP writes all of RFLAGS, and the bits it does not name become 0. -/
def Obligations.SuccessWritesEveryResultFlag : Prop :=
  ∀ (i : Instr) (s t : State), s.phase = .run → exec i s = .next t → t.phase = .idle → t.status.err = none → i ≠ .nop →
    (t.rflags.rinf = true → i = .padd ∨ i = .pdbl ∨ i = .pmul) ∧
    (t.rflags.res1Neg = true → ∃ m, i = .egcd m) ∧
    (t.rflags.res2Neg = true → ∃ m, i = .egcd m) ∧
    (t.rflags.verifyOk = true → i = .verify)

/-- 60_exceptions.md R220: the level of irq after the end of a command, a command start, an acknowledge, an abort and a
reset. -/
def Obligations.InterruptFollowsCompletion : Prop :=
  ∀ s : State,
    (∀ i t, s.phase = .run → exec i s = .next t → t.phase = .idle → t.irq = s.ctrl.ie) ∧
    (∀ w i, s.phase = .idle → decode w = .ok i → (s.busStep (wr 0x010 w)).irq = false) ∧
    (s.busStep clrdone).irq = false ∧
    (∀ v : Word32, s.phase = .run → v.getLsbD 8 = true → v.getLsbD 9 = false →
      (s.busStep (wr 0x008 v)).irq = v.getLsbD 1) ∧
    s.blockReset.irq = false

/-! NOP and the modular commands. -/

/-- 43_control_commands.md R200: NOP writes only the end-of-command fields, its word is 0 exactly, and the rule's
example. -/
def Obligations.NopOnlyEnds : Prop :=
  (∀ s : State, exec .nop s = .next s.succeeded) ∧
  (∀ w : Word32, w.toNat % 256 = 0 → w ≠ 0 → illegalWord w = true) ∧ decode 0 = .ok .nop ∧
  (∃ t, Sys2Proof.core.run 2 { State.reset with turns := [.bus (cmdTxn .nop), .engine] } = .next t ∧
    Machine.State.statusWord t = 0x00000002)

/-- 40_modular_arithmetic.md R120: MODRED: its words and the illegal words of its opcode, its error, its result. -/
def Obligations.ModredGivesTheResidue : Prop :=
  ∀ (m : MSel) (s : State),
    decode ((m.bits <<< 8) ||| 0x01) = .ok (.modred m) ∧
    (∀ w : Word32, w.toNat % 256 = 0x01 → (∀ m' : MSel, w ≠ (m'.bits <<< 8) ||| 0x01) → illegalWord w = true) ∧
    (s.modulus m = 0 → exec (.modred m) s = .next (s.failed .badModulus)) ∧
    (s.modulus m ≠ 0 → ∃ v : Big, v.toNat = s.nat .opa % s.modulus m ∧
      exec (.modred m) s = .next ({ s.setBn .res0 v with rflags := {} } : State).succeeded)

/-- 40_modular_arithmetic.md R121: MODADD: its words and the illegal words of its opcode, its errors, its result. -/
def Obligations.ModaddGivesTheSum : Prop :=
  ∀ (m : MSel) (s : State),
    decode ((m.bits <<< 8) ||| 0x02) = .ok (.modadd m) ∧
    (∀ w : Word32, w.toNat % 256 = 0x02 → (∀ m' : MSel, w ≠ (m'.bits <<< 8) ||| 0x02) → illegalWord w = true) ∧
    (s.modulus m = 0 → exec (.modadd m) s = .next (s.failed .badModulus)) ∧
    (s.modulus m ≠ 0 → ∃ v : Big, v.toNat = (s.nat .opa + s.nat .opb) % s.modulus m ∧
      exec (.modadd m) s = .next ({ s.setBn .res0 v with rflags := {} } : State).succeeded)

/-- 40_modular_arithmetic.md R122: MODSUB, with the Euclidean remainder of a difference that may be negative. -/
def Obligations.ModsubGivesTheDifference : Prop :=
  ∀ (m : MSel) (s : State),
    decode ((m.bits <<< 8) ||| 0x03) = .ok (.modsub m) ∧
    (∀ w : Word32, w.toNat % 256 = 0x03 → (∀ m' : MSel, w ≠ (m'.bits <<< 8) ||| 0x03) → illegalWord w = true) ∧
    (s.modulus m = 0 → exec (.modsub m) s = .next (s.failed .badModulus)) ∧
    (s.modulus m ≠ 0 → ∃ v : Big, (v.toNat : Int) = ((s.nat .opa : Int) - s.nat .opb) % s.modulus m ∧
      exec (.modsub m) s = .next ({ s.setBn .res0 v with rflags := {} } : State).succeeded)

/-- 40_modular_arithmetic.md R123: MODMUL: its words and the illegal words of its opcode, its errors, its result. -/
def Obligations.ModmulGivesTheProduct : Prop :=
  ∀ (m : MSel) (s : State),
    decode ((m.bits <<< 8) ||| 0x04) = .ok (.modmul m) ∧
    (∀ w : Word32, w.toNat % 256 = 0x04 → (∀ m' : MSel, w ≠ (m'.bits <<< 8) ||| 0x04) → illegalWord w = true) ∧
    (s.modulus m = 0 → exec (.modmul m) s = .next (s.failed .badModulus)) ∧
    (s.modulus m ≠ 0 → ∃ v : Big, v.toNat = s.nat .opa * s.nat .opb % s.modulus m ∧
      exec (.modmul m) s = .next ({ s.setBn .res0 v with rflags := {} } : State).succeeded)

/-- 40_modular_arithmetic.md R124: MODINV: its words and the illegal words of its opcode, its errors, its result. -/
def Obligations.ModinvGivesTheInverse : Prop :=
  ∀ (m : MSel) (s : State),
    decode ((m.bits <<< 8) ||| 0x05) = .ok (.modinv m) ∧
    (∀ w : Word32, w.toNat % 256 = 0x05 → (∀ m' : MSel, w ≠ (m'.bits <<< 8) ||| 0x05) → illegalWord w = true) ∧
    (s.modulus m < 2 → exec (.modinv m) s = .next (s.failed .badModulus)) ∧
    (2 ≤ s.modulus m → Nat.gcd (s.nat .opa % s.modulus m) (s.modulus m) ≠ 1 →
      exec (.modinv m) s = .next (s.failed .notInvertible)) ∧
    (2 ≤ s.modulus m → Nat.gcd (s.nat .opa % s.modulus m) (s.modulus m) = 1 →
      ∃ v : Big, v.toNat < s.modulus m ∧ s.nat .opa * v.toNat % s.modulus m = 1 ∧
        exec (.modinv m) s = .next ({ s.setBn .res0 v with rflags := {} } : State).succeeded)

/-- 40_modular_arithmetic.md R125: EGCD, for every pair of operands, with the magnitudes untruncated. -/
def Obligations.EgcdCommandGivesTheTriple : Prop :=
  ∀ (m : MSel) (s : State),
    decode ((m.bits <<< 8) ||| 0x06) = .ok (.egcd m) ∧
    (∀ w : Word32, w.toNat % 256 = 0x06 → (∀ m' : MSel, w ≠ (m'.bits <<< 8) ||| 0x06) → illegalWord w = true) ∧
    ∃ (x y : Int) (g u w : Big),
      egcd (s.nat .opa) (s.modulus m) = (g.toNat, x, y) ∧ u.toNat = x.natAbs ∧ w.toNat = y.natAbs ∧
      exec (.egcd m) s =
        .next ({ ((s.setBn .res0 g).setBn .res1 u).setBn .res2 w with
          rflags := { rinf := false, res1Neg := decide (x < 0), res2Neg := decide (y < 0), verifyOk := false } } :
            State).succeeded

/-- 40_modular_arithmetic.md R112: EGCD starts its loop at (1, 0, 0, 1), and the loop makes the update of the rule while
b > 0 and returns (a, x2, y2) at b = 0; any fuel of at least b gives the same. -/
def Obligations.EgcdFollowsItsLoop : Prop :=
  (∀ a b : Nat, egcd a b = egcdLoop b a b 1 0 0 1) ∧
  (∀ (fuel a b : Nat) (x2 x1 y2 y1 : Int), b ≤ fuel →
    egcdLoop fuel a b x2 x1 y2 y1 =
      if b = 0 then (a, x2, y2)
      else egcdLoop (a % b) b (a % b) x1 (x2 - (a / b : Nat) * x1) y1 (y2 - (a / b : Nat) * y1))

/-- 40_modular_arithmetic.md R113 and R118: the contract of EGCD, the bound of its coefficients, and that their magnitudes
fit a bignum register. -/
def Obligations.EgcdMeetsItsContract : Prop :=
  ∀ a b : Nat,
    (egcd a b).1 = Nat.gcd a b ∧ (a : Int) * (egcd a b).2.1 + b * (egcd a b).2.2 = Nat.gcd a b ∧
    (egcd a b).2.1.natAbs ≤ max (max a b) 1 ∧ (egcd a b).2.2.natAbs ≤ max (max a b) 1 ∧
    (a < 2 ^ 512 → b < 2 ^ 512 →
      (egcd a b).2.1.natAbs ≤ 2 ^ 512 - 1 ∧ (egcd a b).2.2.natAbs ≤ 2 ^ 512 - 1)

/-- 40_modular_arithmetic.md R115 and R116: what Inv returns is the unique inverse, and Inv fails with NOT_INVERTIBLE
exactly when gcd(v mod m, m) is not 1. -/
def Obligations.InverseIsExact : Prop :=
  ∀ v m : Nat, 2 ≤ m →
    (∀ u, inv v m = .ok u → u < m ∧ v * u % m = 1 ∧ ∀ u', u' < m → v * u' % m = 1 → u' = u) ∧
    (inv v m = .error .notInvertible ↔ Nat.gcd (v % m) m ≠ 1) ∧
    (Nat.gcd (v % m) m = 1 → ∃ u, inv v m = .ok u)

/-! The curve. -/

/-- 41_curve_group.md R148: Add is symmetric on every input, value or error. -/
def Obligations.AddIsSymmetric : Prop :=
  ∀ (P A : Nat) (X1 X2 : Point), 0 < P → X1.inRange P = true → X2.inRange P = true →
    pointAdd P A X1 X2 = pointAdd P A X2 X1

/-- 41_curve_group.md R145, R144: Dbl(X) is Add(X, X), the cases of Dbl, and the coordinates of the doubling formula. -/
def Obligations.DoublingCases : Prop :=
  ∀ P A x y : Nat,
    (∀ X, pointDbl P A X = pointAdd P A X X) ∧
    pointDbl P A .infinity = .ok .infinity ∧ pointDbl P A (.aff x 0) = .ok .infinity ∧
    (y ≠ 0 → ∀ i, inv (2 * y % P) P = .ok i →
      let lam := (3 * x * x + A) % P * i % P
      let x3 := modInt ((lam : Int) * lam - 2 * x) P
      pointDbl P A (.aff x y) = .ok (.aff x3 (modInt ((lam : Int) * ((x : Int) - x3) - y) P))) ∧
    (y ≠ 0 → ∀ e, inv (2 * y % P) P = .error e → pointDbl P A (.aff x y) = .error e)

/-- 41_curve_group.md R146: Exp satisfies its recursion for every scalar and point, value or error. -/
def Obligations.ExpFollowsItsRecursion : Prop :=
  ∀ (P A k : Nat) (X : Point),
    pointExp P A k X =
      if k = 0 then .ok .infinity
      else if k = 1 then .ok X
      else if k % 2 = 1 then (pointExp P A (k - 1) X).bind fun T => pointAdd P A X T
      else (pointAdd P A X X).bind fun X2 => pointExp P A (k / 2) X2

/-- 41_curve_group.md R153: on a proper curve Add never raises and is the group law, as the library defines it. -/
def Obligations.AddIsTheGroupLaw : Prop :=
  ∀ (P A B : Nat) [Fact P.Prime], ProperCurve P A B →
    ∀ (X1 X2 : Point) (Q1 Q2 : (fieldCurve P A B).Point), StandsFor X1 Q1 → StandsFor X2 Q2 →
      ∃ R, pointAdd P A X1 X2 = .ok R ∧ StandsFor R (Q1 + Q2)

/-- 41_curve_group.md R153: on a proper curve Exp(k, X) is the k-fold multiple of X. -/
def Obligations.ExpIsScalarMultiplication : Prop :=
  ∀ (P A B : Nat) [Fact P.Prime], ProperCurve P A B →
    ∀ (k : Nat) (X : Point) (Q : (fieldCurve P A B).Point), StandsFor X Q →
      ∃ R, pointExp P A k X = .ok R ∧ StandsFor R (k • Q)

/-- 41_curve_group.md R154: on a proper curve Exp(d, X) of a point X of the curve satisfies the curve equation. -/
def Obligations.MultiplesLieOnTheCurve : Prop :=
  ∀ (P A B k : Nat) (X : Point), P.Prime → ProperCurve P A B → OnCurve P A B X →
    ∃ R, pointExp P A k X = .ok R ∧ OnCurve P A B R

/-- 41_curve_group.md R150, R149: PADD, its checks in order and its result. -/
def Obligations.PaddGivesTheSum : Prop :=
  ∀ s : State,
    decode 0x10 = .ok .padd ∧ (∀ w : Word32, w.toNat % 256 = 0x10 → w ≠ 0x10 → illegalWord w = true) ∧
    (s.cfgCurve = false → exec .padd s = .next (s.failed .config)) ∧
    (s.cfgCurve = true → (s.pt1.inRange (s.nat .p) && s.pt2.inRange (s.nat .p)) = false →
      exec .padd s = .next (s.failed .range)) ∧
    (s.cfgCurve = true → s.pt1.inRange (s.nat .p) = true → s.pt2.inRange (s.nat .p) = true →
      EndsWithPoint s (exec .padd s) (pointAdd (s.nat .p) (s.nat .a) s.pt1 s.pt2))

/-- 41_curve_group.md R151, R149: PDBL; over an odd prime it never raises, and it does what PADD does where the two input
points are the same. -/
def Obligations.PdblGivesTheDouble : Prop :=
  ∀ s : State,
    decode 0x11 = .ok .pdbl ∧ (∀ w : Word32, w.toNat % 256 = 0x11 → w ≠ 0x11 → illegalWord w = true) ∧
    (s.cfgCurve = false → exec .pdbl s = .next (s.failed .config)) ∧
    (s.cfgCurve = true → s.pt1.inRange (s.nat .p) = false → exec .pdbl s = .next (s.failed .range)) ∧
    (s.cfgCurve = true → s.pt1.inRange (s.nat .p) = true →
      EndsWithPoint s (exec .pdbl s) (pointDbl (s.nat .p) (s.nat .a) s.pt1) ∧
      ((s.nat .p).Prime → s.nat .p % 2 = 1 → ∀ e, pointDbl (s.nat .p) (s.nat .a) s.pt1 ≠ .error e)) ∧
    (s.pt2 = s.pt1 → exec .pdbl s = exec .padd s)

/-- 41_curve_group.md R152, R149: PMUL, with all 512 bits of K. -/
def Obligations.PmulGivesTheMultiple : Prop :=
  ∀ s : State,
    decode 0x12 = .ok .pmul ∧ (∀ w : Word32, w.toNat % 256 = 0x12 → w ≠ 0x12 → illegalWord w = true) ∧
    (s.cfgCurve = false → exec .pmul s = .next (s.failed .config)) ∧
    (s.cfgCurve = true → s.pt1.inRange (s.nat .p) = false → exec .pmul s = .next (s.failed .range)) ∧
    (s.cfgCurve = true → s.pt1.inRange (s.nat .p) = true →
      EndsWithPoint s (exec .pmul s) (pointExp (s.nat .p) (s.nat .a) (s.nat .k) s.pt1))

/-! The signature engine. -/

/-- 42_signature_engine.md R170, R177, R214 of 60_exceptions.md: the checks KEYGEN, SIGN and VERIFY make before a draw or a
computation, in their order. -/
def Obligations.SignatureChecksComeFirst : Prop :=
  ∀ s : State,
    (s.cfgSig = false →
      exec .keygen s = .next (s.failed .config) ∧ exec .sign s = .next (s.failed .config) ∧
      exec .verify s = .next (s.failed .config)) ∧
    (s.cfgSig = true → (s.nat .d = 0 ∨ s.nat .q ≤ s.nat .d) → exec .sign s = .next (s.failed .range)) ∧
    (s.cfgSig = true → s.sigLen.toNat ≠ 2 * s.n → exec .verify s = .next (s.failed .format)) ∧
    (s.cfgSig = true → s.sigLen.toNat = 2 * s.n → (s.nat .p ≤ s.nat .pubx ∨ s.nat .p ≤ s.nat .puby) →
      exec .verify s = .next (s.failed .range))

/-- 42_signature_engine.md R175, R176: an attempt of KEYGEN on the bytes of the oldest answer. It is degenerate for a key of
0, ends with CONFIG for a public point O and with the error of Exp, and otherwise gives a key D below Q, not 0, with its
public point Exp(D, G). -/
def Obligations.KeygenGivesAKeyPair : Prop :=
  ∀ (s : State) (b : Vector Byte 64) (rest : List Answer) (d : Nat),
    s.cfgSig = true → s.answers = .bytes b :: rest → d = intLE (b.toList.take s.n) % s.nat .q →
    (d = 0 → exec .keygen s = .next (s.afterDraw rest).retry) ∧
    (d ≠ 0 →
      (s.curveExp d s.basePoint = .ok .infinity → exec .keygen s = .next ((s.afterDraw rest).failed .config)) ∧
      (∀ e, s.curveExp d s.basePoint = .error e →
        e = .notInvertible ∧ exec .keygen s = .next ((s.afterDraw rest).failed .notInvertible)) ∧
      (∀ x y, pointExp (s.nat .p) (s.nat .a) d (.aff (s.nat .gx) (s.nat .gy)) = .ok (.aff x y) →
        ∃ vd vx vy : Big, vd.toNat = d ∧ 0 < d ∧ d < s.nat .q ∧ vx.toNat = x ∧ vy.toNat = y ∧
          exec .keygen s =
            .next ({ (((s.afterDraw rest).setBn .res0 vd).setBn .res1 vx).setBn .res2 vy with rflags := {} } :
              State).succeeded))

/-- 42_signature_engine.md R177, R178: an accepted attempt of SIGN writes r and s, the fixed-width signature, its length
and RFLAGS, and nothing else but the end-of-command fields. -/
def Obligations.SignGivesASignature : Prop :=
  ∀ (s : State) (b : Vector Byte 64) (rest : List Answer) (x y k r sg : Nat),
    s.cfgSig = true → 0 < s.nat .d → s.nat .d < s.nat .q → s.answers = .bytes b :: rest →
    k = intBE b.toList % s.nat .q → k ≠ 0 →
    pointExp (s.nat .p) (s.nat .a) k (.aff (s.nat .gx) (s.nat .gy)) = .ok (.aff x y) →
    r = x % s.nat .q → r ≠ 0 → sg = (r * s.nat .d + k * s.digestE) % s.nat .q → sg ≠ 0 →
    ∃ (vr vs : Big) (buf : Vector Byte 128), vr.toNat = r ∧ vs.toNat = sg ∧
      intBE (buf.toList.take s.n) = r ∧ intBE ((buf.toList.drop s.n).take s.n) = sg ∧
      (∀ i : Fin 128, 2 * s.n ≤ i.val → buf[i] = 0) ∧
      exec .sign s =
        .next ({ ((s.afterDraw rest).setBn .res0 vr).setBn .res1 vs with
          sigbuf := buf, sigLen := BitVec.ofNat 8 (2 * s.n), rflags := {} } : State).succeeded

/-- 42_signature_engine.md R177: the attempts of SIGN that give no signature: k, r or s equal to 0 are degenerate, k·G = O
is CONFIG, and an error of Exp ends the command. -/
def Obligations.SignAttemptsThatGiveNoSignature : Prop :=
  ∀ (s : State) (b : Vector Byte 64) (rest : List Answer) (k : Nat),
    s.cfgSig = true → 0 < s.nat .d → s.nat .d < s.nat .q → s.answers = .bytes b :: rest →
    k = intBE b.toList % s.nat .q →
    (k = 0 → exec .sign s = .next (s.afterDraw rest).retry) ∧
    (k ≠ 0 → s.curveExp k s.basePoint = .ok .infinity → exec .sign s = .next ((s.afterDraw rest).failed .config)) ∧
    (k ≠ 0 → ∀ e, s.curveExp k s.basePoint = .error e →
      e = .notInvertible ∧ exec .sign s = .next ((s.afterDraw rest).failed .notInvertible)) ∧
    (k ≠ 0 → ∀ x y, s.curveExp k s.basePoint = .ok (.aff x y) →
      (x % s.nat .q = 0 ∨ (x % s.nat .q * s.nat .d + k * s.digestE) % s.nat .q = 0) →
      exec .sign s = .next (s.afterDraw rest).retry)

/-- 42_signature_engine.md R171: a degenerate attempt counts, saturating, and a cap that is reached ends the command with
RETRY_LIMIT. -/
def Obligations.RetryCountsAndCaps : Prop :=
  ∀ s : State, ∃ c : BitVec 32, c.toNat = min (s.retryCnt.toNat + 1) 0xFFFFFFFF ∧
    (s.attemptMax ≠ 0 → s.attemptMax.toNat ≤ c.toNat → s.retry = ({ s with retryCnt := c } : State).failed .retryLimit) ∧
    (s.attemptMax = 0 ∨ c.toNat < s.attemptMax.toNat → s.retry = { s with retryCnt := c })

/-- 42_signature_engine.md R174: FAIL ends KEYGEN and SIGN at once with ENTROPY (code 7), counting no retry. -/
def Obligations.EntropyFailureEndsTheCommand : Prop :=
  Err.entropy.code = 7 ∧
  ∀ (s : State) (rest : List Answer), s.cfgSig = true → s.answers = .fail :: rest →
    exec .keygen s = .next (({ s with answers := rest } : State).failed .entropy) ∧
    (0 < s.nat .d → s.nat .d < s.nat .q →
      exec .sign s = .next (({ s with answers := rest } : State).failed .entropy))

/-- 10_state.md R46, R50: while the entropy source has given no answer, the request of KEYGEN (n bytes) or SIGN (64 bytes)
is outstanding, and nothing else changes. That the engine step which asks is separate from the one that gets the answer is
the model's choice (log entry 3). -/
def Obligations.RequestWaitsForAnAnswer : Prop :=
  ∀ s : State, s.cfgSig = true → s.answers = [] →
    exec .keygen s = .next { s with pending := some s.n } ∧
    (0 < s.nat .d → s.nat .d < s.nat .q → exec .sign s = .next { s with pending := some 64 })

/-- 42_signature_engine.md R182: a signature out of range is rejected without an error and without a computation: nothing
but RFLAGS and the end-of-command fields is written. -/
def Obligations.VerifyRejectsOutOfRangeSignatures : Prop :=
  ∀ s : State, s.cfgSig = true → s.sigLen.toNat = 2 * s.n → s.nat .pubx < s.nat .p → s.nat .puby < s.nat .p →
    (s.sigR = 0 ∨ s.sigS = 0 ∨ s.nat .q ≤ s.sigR ∨ s.nat .q ≤ s.sigS) →
    exec .verify s = .next ({ s with rflags := {} } : State).succeeded

/-- 42_signature_engine.md R180, R183 to R185: the verification equation, its comparison in both modes, and its errors:
an inverse that does not exist, and a multiple or a sum that cannot be computed. -/
def Obligations.VerifyDecidesByTheEquation : Prop :=
  ∀ s : State, s.cfgSig = true → s.sigLen.toNat = 2 * s.n → s.nat .pubx < s.nat .p → s.nat .puby < s.nat .p →
    0 < s.sigR → s.sigR < s.nat .q → 0 < s.sigS → s.sigS < s.nat .q →
    (inv s.digestE (s.nat .q) = .error .notInvertible → exec .verify s = .next (s.failed .notInvertible)) ∧
    (∀ v z1 z2, inv s.digestE (s.nat .q) = .ok v → z1 = s.sigS * v % s.nat .q → z2 < s.nat .q →
      (z2 + s.sigR * v) % s.nat .q = 0 →
      (∀ e, s.curveExp z1 (.aff (s.nat .gx) (s.nat .gy)) = .error e →
        e = .notInvertible ∧ exec .verify s = .next (s.failed .notInvertible)) ∧
      (∀ C1 e, s.curveExp z1 (.aff (s.nat .gx) (s.nat .gy)) = .ok C1 →
        s.curveExp z2 (.aff (s.nat .pubx) (s.nat .puby)) = .error e →
        e = .notInvertible ∧ exec .verify s = .next (s.failed .notInvertible)) ∧
      (∀ C1 C2, s.curveExp z1 (.aff (s.nat .gx) (s.nat .gy)) = .ok C1 →
        s.curveExp z2 (.aff (s.nat .pubx) (s.nat .puby)) = .ok C2 →
        (∀ e, pointAdd (s.nat .p) (s.nat .a) C1 C2 = .error e →
          e = .notInvertible ∧ exec .verify s = .next (s.failed .notInvertible)) ∧
        (pointAdd (s.nat .p) (s.nat .a) C1 C2 = .ok .infinity →
          exec .verify s = .next ({ s with rflags := {} } : State).succeeded) ∧
        (∀ x y, pointAdd (s.nat .p) (s.nat .a) C1 C2 = .ok (.aff x y) → ∃ ok : Bool,
          (s.ctrl.vfyCompat = false → (ok = true ↔ x % s.nat .q = s.sigR)) ∧
          (s.ctrl.vfyCompat = true → (ok = true ↔ x = s.sigR)) ∧
          exec .verify s =
            .next ({ s with rflags := { rinf := false, res1Neg := false, res2Neg := false, verifyOk := ok } } :
              State).succeeded)))

/-- 42_signature_engine.md R173: the digest value is the first n bytes of DIGBUF in the byte order of DIG_LE, reduced
modulo Q, and 1 in place of 0; so it lies in (0, Q). -/
def Obligations.DigestValueIsInRange : Prop :=
  ∀ (s : State) (e : Nat), s.cfgSig = true →
    (s.ctrl.digLE = false → e = intBE (s.digbuf.toList.take s.n)) →
    (s.ctrl.digLE = true → e = intBE (s.digbuf.toList.take s.n).reverse) →
    0 < s.digestE ∧ s.digestE < s.nat .q ∧
    (e % s.nat .q ≠ 0 → s.digestE = e % s.nat .q) ∧ (e % s.nat .q = 0 → s.digestE = 1)

/-- 42_signature_engine.md R186: with P and Q prime, G on the curve (in the sense of 41_curve_group.md R153) of order Q and
PUB = Exp(D, G), VERIFY on what SIGN made with the nonce k gives VERIFY_OK = 1 when VFY_COMPAT is 0, and exactly when
(k·G).x < Q when it is 1. -/
def Obligations.VerifyAcceptsWhatSignMade : Prop :=
  ∀ (s t : State) (b : Nat) (draw : Vector Byte 64) (rest : List Answer) (x y : Nat),
    (s.nat .p).Prime → ProperCurve (s.nat .p) (s.nat .a) b → (s.nat .q).Prime →
    OnCurve (s.nat .p) (s.nat .a) b s.basePoint →
    pointExp (s.nat .p) (s.nat .a) (s.nat .q) s.basePoint = .ok .infinity →
    pointExp (s.nat .p) (s.nat .a) (s.nat .d) s.basePoint = .ok s.pubPoint →
    s.answers = .bytes draw :: rest →
    pointExp (s.nat .p) (s.nat .a) (intBE draw.toList % s.nat .q) s.basePoint = .ok (.aff x y) →
    s.phase = .run → exec .sign s = .next t → t.phase = .idle → t.status.err = none →
    ∃ u, exec .verify t = .next u ∧ u.status.err = none ∧
      (u.rflags.verifyOk = true ↔ s.ctrl.vfyCompat = false ∨ x < s.nat .q)

/-! The bus. -/

/-- 20_memory.md R61, R71: a transaction of another size, a misaligned one, or a write with a strobe missing is answered
ERROR and changes nothing, a read then returning 0; and no read changes anything, it only answers. -/
def Obligations.ReadsAndUnservedTransactionsChangeNothing : Prop :=
  ∀ (s : State) (off : Offset) (size : Nat) (strobes : BitVec 4) (v : Word32),
    (size ≠ 4 ∨ off.toNat % 4 ≠ 0 → s.busStep (.read off size) = { s with reply := some (.read 0 .error) }) ∧
    (size ≠ 4 ∨ off.toNat % 4 ≠ 0 ∨ strobes ≠ 0xF →
      s.busStep (.write off size strobes v) = { s with reply := some (.write .error) }) ∧
    (∃ r, s.busStep (.read off size) = { s with reply := some r })

/-- 10_state.md R24 to R26: ID and VERSION read their constants in every state, and writes to read-only registers are
ignored with an OK response, idle or busy. -/
def Obligations.ReadOnlyRegistersIgnoreWrites : Prop :=
  ∀ s : State,
    s.busStep (rd 0x000) = { s with reply := some (.read 0x474F5354 .ok) } ∧
    s.busStep (rd 0x004) = { s with reply := some (.read 0x00010000 .ok) } ∧
    (∀ (o : Nat) (v : Word32),
      (o = 0x000 ∨ o = 0x004 ∨ o = 0x014 ∨ o = 0x020 ∨ (0x540 ≤ o ∧ o < 0x600 ∧ o % 4 = 0)) →
      s.busStep (wr o v) = { s with reply := some (.write .ok) })

/-- 20_memory.md R68: reserved offsets read 0 and ignore writes, with an OK response, idle or busy. -/
def Obligations.ReservedOffsetsReadZeroAndIgnoreWrites : Prop :=
  ∀ (s : State) (o : Nat) (v : Word32), o % 4 = 0 → (0x028 ≤ o ∧ o < 0x100) ∨ (0x6C0 ≤ o ∧ o < 0x1000) →
    s.busStep (rd o) = { s with reply := some (.read 0 .ok) } ∧
    s.busStep (wr o v) = { s with reply := some (.write .ok) }

/-- 20_memory.md R62: word j of a bignum register, read and written, as the rule's arithmetic says. -/
def Obligations.BignumWordsAreSlices : Prop :=
  ∀ (s : State) (r : BN) (j : Nat), j < 16 →
    s.busStep (rd (r.base + 4 * j)) =
      { s with reply := some (.read (BitVec.ofNat 32 (s.nat r / 2 ^ (32 * j))) .ok) } ∧
    (∀ v : Word32, s.phase = .idle → r.readOnly = false → ∃ x : Big,
      (x.toNat : Int) = s.nat r - (s.nat r / 2 ^ (32 * j) % 2 ^ 32 : Nat) * 2 ^ (32 * j) + v.toNat * 2 ^ (32 * j) ∧
      s.busStep (wr (r.base + 4 * j) v) = { s.setBn r x with reply := some (.write .ok) } ∧
      (∀ i : Nat, i < 16 → i ≠ j → x.toNat / 2 ^ (32 * i) % 2 ^ 32 = s.nat r / 2 ^ (32 * i) % 2 ^ 32))

/-- 20_memory.md R63: byte lanes of the two buffers, read and written. -/
def Obligations.BufferWordsAreByteLanes : Prop :=
  ∀ s : State,
    (∀ w : Nat, w < 16 → ∃ d : Word32, s.busStep (rd (0x600 + 4 * w)) = { s with reply := some (.read d .ok) } ∧
      ∀ (j : Nat) (h : 4 * w + j < 64), j < 4 → d.extractLsb' (8 * j) 8 = s.digbuf[4 * w + j]) ∧
    (∀ w : Nat, w < 32 → ∃ d : Word32, s.busStep (rd (0x640 + 4 * w)) = { s with reply := some (.read d .ok) } ∧
      ∀ (j : Nat) (h : 4 * w + j < 128), j < 4 → d.extractLsb' (8 * j) 8 = s.sigbuf[4 * w + j]) ∧
    (s.phase = .idle → ∀ (w : Nat) (v : Word32), w < 16 → ∃ buf : Vector Byte 64,
      s.busStep (wr (0x600 + 4 * w) v) = { s with digbuf := buf, reply := some (.write .ok) } ∧
      ∀ i : Fin 64, buf[i] = if i.val / 4 = w then v.extractLsb' (8 * (i.val % 4)) 8 else s.digbuf[i]) ∧
    (s.phase = .idle → ∀ (w : Nat) (v : Word32), w < 32 → ∃ buf : Vector Byte 128,
      s.busStep (wr (0x640 + 4 * w) v) = { s with sigbuf := buf, reply := some (.write .ok) } ∧
      ∀ i : Fin 128, buf[i] = if i.val / 4 = w then v.extractLsb' (8 * (i.val % 4)) 8 else s.sigbuf[i])

/-- The 32-bit registers on the bus. Writes (10_state.md R28, R35, R37, R39): STATUS clears DONE and WBUSY by ones and
nothing else, idle or busy; PFLAGS, ATTEMPT_MAX and SIG_LEN store their fields while idle. Reads (10_state.md R27, R28, R30,
R32, R35, R37 to R39, 20_memory.md R64), in every state: each register returns its fields at the bits of its table with
every reserved bit 0, and STATUS.ERR the code of 60_exceptions.md R210. -/
def Obligations.ControlRegisterWrites : Prop :=
  ∀ (s : State) (v : Word32),
    s.busStep (wr 0x00C v) =
      { s with status := { done := s.status.done && !v.getLsbD 1, wbusy := s.status.wbusy && !v.getLsbD 2,
                           err := s.status.err }, reply := some (.write .ok) } ∧
    (s.phase = .idle →
      (∃ f, s.busStep (wr 0x018 v) = { s with pflags := f, reply := some (.write .ok) } ∧ f.word = v &&& 3) ∧
      s.busStep (wr 0x01C v) = { s with attemptMax := v, reply := some (.write .ok) } ∧
      (∃ l, s.busStep (wr 0x024 v) = { s with sigLen := l, reply := some (.write .ok) } ∧
        (l.setWidth 32 : Word32) = v &&& 0xFF)) ∧
    s.ReadsAs 0x008 ((if s.ctrl.mode = .m512 then 1 else 0) + 2 * s.ctrl.ie.toNat + 4 * s.ctrl.digLE.toNat +
      8 * s.ctrl.vfyCompat.toNat) ∧
    (∃ c, (s.status.err, c) ∈ outcomeCodes ∧
      s.ReadsAs 0x00C ((if s.phase = .run then 1 else 0) + 2 * s.status.done.toNat + 4 * s.status.wbusy.toNat +
        256 * c)) ∧
    s.ReadsAs 0x010 s.cmd.toNat ∧
    s.ReadsAs 0x014 (s.rflags.rinf.toNat + 2 * s.rflags.res1Neg.toNat + 4 * s.rflags.res2Neg.toNat +
      8 * s.rflags.verifyOk.toNat) ∧
    s.ReadsAs 0x018 (s.pflags.p1inf.toNat + 2 * s.pflags.p2inf.toNat) ∧
    s.ReadsAs 0x01C s.attemptMax.toNat ∧
    s.ReadsAs 0x020 s.retryCnt.toNat ∧
    s.ReadsAs 0x024 s.sigLen.toNat

/-- 10_state.md R27, 43_control_commands.md R202: a CTRL write without SRST, on an idle block, and on a busy one with and
without ABORT; WBUSY is set exactly when a written MODE, DIG_LE or VFY_COMPAT differs while busy. -/
def Obligations.CtrlWriteServesItsFields : Prop :=
  ∀ (s : State) (v : Word32), v.getLsbD 9 = false →
    (s.phase = .idle → ∃ c, s.busStep (wr 0x008 v) = { s with ctrl := c, reply := some (.write .ok) } ∧
      c.word = v &&& 0xF) ∧
    (s.phase = .run → ∃ drop : Bool,
      (drop = true ↔ (s.ctrl.word ^^^ v) &&& 0xD ≠ 0) ∧
      (v.getLsbD 8 = false →
        s.busStep (wr 0x008 v) =
          { s with ctrl := { s.ctrl with ie := v.getLsbD 1 },
                   status := { s.status with wbusy := s.status.wbusy || drop }, reply := some (.write .ok) }) ∧
      (v.getLsbD 8 = true →
        s.busStep (wr 0x008 v) =
          { s with ctrl := { s.ctrl with ie := v.getLsbD 1 }, phase := .idle, pending := none,
                   status := { done := true, wbusy := s.status.wbusy || drop, err := some .aborted },
                   reply := some (.write .ok) }))

/-- 10_state.md R33: a write while busy to CMD, PFLAGS, ATTEMPT_MAX, SIG_LEN, an RW bignum register, DIGBUF or SIGBUF is
dropped and sets WBUSY, with an OK response. -/
def Obligations.WritesWhileBusyAreDropped : Prop :=
  ∀ (s : State) (o : Nat) (v : Word32), s.phase = .run → o % 4 = 0 →
    (o = 0x010 ∨ o = 0x018 ∨ o = 0x01C ∨ o = 0x024 ∨ (0x100 ≤ o ∧ o < 0x540) ∨ (0x600 ≤ o ∧ o < 0x6C0)) →
    s.busStep (wr o v) =
      { s with status := { s.status with wbusy := true }, reply := some (.write .ok) }

/-- 30_encoding.md R106: `ldbn` on an idle block loads the register with the value and changes nothing else, and `rdbn`
word by word reads it back. -/
def Obligations.LoadedRegisterHoldsTheValue : Prop :=
  ∀ (s : State) (r : BN) (v : Big), s.phase = .idle → r.readOnly = false →
    s.busSteps (ldbn r v) = { s.setBn r v with reply := some (.write .ok) } ∧
    (∀ j : Nat, j < 16 →
      ((s.busSteps (ldbn r v)).busStep (rd (r.base + 4 * j))).reply =
        some (.read (v.extractLsb' (32 * j) 32) .ok))
end

