-- ==== Sys2Proof/Laws/State.lean ====
section
/-! SUPPORT. The small lemmas of the state: reading a register after a write, and each field after each named update. -/

namespace Sys2Proof.Machine

/-- Distinct registers have distinct indexes. -/
theorem BN.index_inj {r r' : BN} : r.index = r'.index ↔ r = r' := by
  constructor
  · intro h
    cases r <;> cases r' <;> first | rfl | exact absurd h (by decide)
  · rintro rfl
    rfl

/-- Distinct registers have distinct indexes, as natural numbers. -/
theorem BN.index_val_inj {r r' : BN} : (r.index : Nat) = r'.index ↔ r = r' := by
  rw [← Fin.ext_iff, BN.index_inj]

@[simp] theorem State.getElem_bns (s : State) (r : BN) : s.bns[r.index] = s.bn r := rfl

@[simp] theorem State.getElem_bns_val (s : State) (r : BN) : s.bns[(r.index : Nat)] = s.bn r := rfl

theorem State.toNat_bn (s : State) (r : BN) : (s.bn r).toNat = s.nat r := rfl

/-- A register after a write: the written one holds the value, every other one is unchanged. -/
theorem State.bn_setBn (s : State) (r r' : BN) (v : Big) :
    (s.setBn r v).bn r' = if r' = r then v else s.bn r' := by
  show (s.bns.set r.index v)[r'.index] = _
  by_cases h : r' = r
  · subst h
    simp
  · have h' : (r.index : Nat) ≠ r'.index := fun e => h (BN.index_val_inj.mp e).symm
    simp [h, Vector.getElem_set_ne, h']

@[simp] theorem State.bn_setBn_self (s : State) (r : BN) (v : Big) : (s.setBn r v).bn r = v := by
  simp [State.bn_setBn]

@[simp] theorem State.bn_setBn_of_ne (s : State) {r r' : BN} (v : Big) (h : r' ≠ r) :
    (s.setBn r v).bn r' = s.bn r' := by
  simp [State.bn_setBn, h]

theorem State.bn_setNat (s : State) (r r' : BN) (v : Nat) :
    (s.setNat r v).bn r' = if r' = r then BitVec.ofNat 512 v else s.bn r' :=
  s.bn_setBn r r' _

@[simp] theorem State.bn_setNat_self (s : State) (r : BN) (v : Nat) :
    (s.setNat r v).bn r = BitVec.ofNat 512 v := by
  simp [State.bn_setNat]

@[simp] theorem State.bn_setNat_of_ne (s : State) {r r' : BN} (v : Nat) (h : r' ≠ r) :
    (s.setNat r v).bn r' = s.bn r' := by
  simp [State.bn_setNat, h]

@[simp] theorem State.nat_setBn_of_ne (s : State) {r r' : BN} (v : Big) (h : r' ≠ r) :
    (s.setBn r v).nat r' = s.nat r' := by
  simp [State.nat, h]

@[simp] theorem State.nat_setNat_of_ne (s : State) {r r' : BN} (v : Nat) (h : r' ≠ r) :
    (s.setNat r v).nat r' = s.nat r' := by
  simp [State.nat, h]

/-- A number below 2^512 written to a register is the number the register holds. -/
theorem State.nat_setNat_self (s : State) (r : BN) {v : Nat} (h : v < 2 ^ 512) : (s.setNat r v).nat r = v := by
  rw [State.nat, State.bn_setNat_self, BitVec.toNat_ofNat, Nat.mod_eq_of_lt h]

/-- A register holds a number below 2^512 (10_state.md R20). -/
theorem State.nat_lt (s : State) (r : BN) : s.nat r < 2 ^ 512 :=
  (s.bn r).isLt

/-- Two states with the same register file hold the same registers. -/
theorem State.bn_congr {s t : State} (h : t.bns = s.bns) (r : BN) : t.bn r = s.bn r := by
  simp only [State.bn, h]

theorem State.nat_congr {s t : State} (h : t.bns = s.bns) (r : BN) : t.nat r = s.nat r := by
  simp only [State.nat, State.bn_congr h]

/-- Every index is a register's. -/
theorem BN.exists_index (j : Fin 20) : ∃ r : BN, r.index = j := by
  fin_cases j
  exacts [⟨.a, rfl⟩, ⟨.b, rfl⟩, ⟨.p, rfl⟩, ⟨.q, rfl⟩, ⟨.gx, rfl⟩, ⟨.gy, rfl⟩, ⟨.opa, rfl⟩, ⟨.opb, rfl⟩, ⟨.opm, rfl⟩,
    ⟨.p1x, rfl⟩, ⟨.p1y, rfl⟩, ⟨.p2x, rfl⟩, ⟨.p2y, rfl⟩, ⟨.k, rfl⟩, ⟨.d, rfl⟩, ⟨.pubx, rfl⟩, ⟨.puby, rfl⟩,
    ⟨.res0, rfl⟩, ⟨.res1, rfl⟩, ⟨.res2, rfl⟩]

/-- Register files that agree at every register are equal. -/
theorem State.bns_ext {s t : State} (h : ∀ r, t.bn r = s.bn r) : t.bns = s.bns := by
  apply Vector.ext
  intro i hi
  obtain ⟨r, hr⟩ := BN.exists_index ⟨i, hi⟩
  have := h r
  simp only [State.bn, hr] at this
  exact this

/-- Writes to different registers commute. -/
theorem State.setBn_comm (s : State) {r r' : BN} (h : r ≠ r') (v v' : Big) :
    (s.setBn r v).setBn r' v' = (s.setBn r' v').setBn r v := by
  simp only [State.setBn, State.mk.injEq, and_self, and_true]
  apply Vector.set_comm
  exact fun e => h (BN.index_val_inj.mp e)

@[simp] theorem State.setBn_setBn_self (s : State) (r : BN) (v v' : Big) :
    (s.setBn r v).setBn r v' = s.setBn r v' := by
  simp [State.setBn]

/-! The fields after a register write. -/

@[simp] theorem State.setBn_ctrl (s : State) (r : BN) (v : Big) : (s.setBn r v).ctrl = s.ctrl := rfl
@[simp] theorem State.setBn_status (s : State) (r : BN) (v : Big) : (s.setBn r v).status = s.status := rfl
@[simp] theorem State.setBn_cmd (s : State) (r : BN) (v : Big) : (s.setBn r v).cmd = s.cmd := rfl
@[simp] theorem State.setBn_rflags (s : State) (r : BN) (v : Big) : (s.setBn r v).rflags = s.rflags := rfl
@[simp] theorem State.setBn_pflags (s : State) (r : BN) (v : Big) : (s.setBn r v).pflags = s.pflags := rfl
@[simp] theorem State.setBn_attemptMax (s : State) (r : BN) (v : Big) : (s.setBn r v).attemptMax = s.attemptMax := rfl
@[simp] theorem State.setBn_retryCnt (s : State) (r : BN) (v : Big) : (s.setBn r v).retryCnt = s.retryCnt := rfl
@[simp] theorem State.setBn_sigLen (s : State) (r : BN) (v : Big) : (s.setBn r v).sigLen = s.sigLen := rfl
@[simp] theorem State.setBn_digbuf (s : State) (r : BN) (v : Big) : (s.setBn r v).digbuf = s.digbuf := rfl
@[simp] theorem State.setBn_sigbuf (s : State) (r : BN) (v : Big) : (s.setBn r v).sigbuf = s.sigbuf := rfl
@[simp] theorem State.setBn_phase (s : State) (r : BN) (v : Big) : (s.setBn r v).phase = s.phase := rfl
@[simp] theorem State.setBn_pending (s : State) (r : BN) (v : Big) : (s.setBn r v).pending = s.pending := rfl
@[simp] theorem State.setBn_turns (s : State) (r : BN) (v : Big) : (s.setBn r v).turns = s.turns := rfl
@[simp] theorem State.setBn_answers (s : State) (r : BN) (v : Big) : (s.setBn r v).answers = s.answers := rfl
@[simp] theorem State.setBn_reply (s : State) (r : BN) (v : Big) : (s.setBn r v).reply = s.reply := rfl

@[simp] theorem State.setNat_ctrl (s : State) (r : BN) (v : Nat) : (s.setNat r v).ctrl = s.ctrl := rfl
@[simp] theorem State.setNat_status (s : State) (r : BN) (v : Nat) : (s.setNat r v).status = s.status := rfl
@[simp] theorem State.setNat_cmd (s : State) (r : BN) (v : Nat) : (s.setNat r v).cmd = s.cmd := rfl
@[simp] theorem State.setNat_rflags (s : State) (r : BN) (v : Nat) : (s.setNat r v).rflags = s.rflags := rfl
@[simp] theorem State.setNat_pflags (s : State) (r : BN) (v : Nat) : (s.setNat r v).pflags = s.pflags := rfl
@[simp] theorem State.setNat_attemptMax (s : State) (r : BN) (v : Nat) : (s.setNat r v).attemptMax = s.attemptMax := rfl
@[simp] theorem State.setNat_retryCnt (s : State) (r : BN) (v : Nat) : (s.setNat r v).retryCnt = s.retryCnt := rfl
@[simp] theorem State.setNat_sigLen (s : State) (r : BN) (v : Nat) : (s.setNat r v).sigLen = s.sigLen := rfl
@[simp] theorem State.setNat_digbuf (s : State) (r : BN) (v : Nat) : (s.setNat r v).digbuf = s.digbuf := rfl
@[simp] theorem State.setNat_sigbuf (s : State) (r : BN) (v : Nat) : (s.setNat r v).sigbuf = s.sigbuf := rfl
@[simp] theorem State.setNat_phase (s : State) (r : BN) (v : Nat) : (s.setNat r v).phase = s.phase := rfl
@[simp] theorem State.setNat_pending (s : State) (r : BN) (v : Nat) : (s.setNat r v).pending = s.pending := rfl
@[simp] theorem State.setNat_turns (s : State) (r : BN) (v : Nat) : (s.setNat r v).turns = s.turns := rfl
@[simp] theorem State.setNat_answers (s : State) (r : BN) (v : Nat) : (s.setNat r v).answers = s.answers := rfl
@[simp] theorem State.setNat_reply (s : State) (r : BN) (v : Nat) : (s.setNat r v).reply = s.reply := rfl

/-! The fields after the successful end of a command (10_state.md R48). -/

@[simp] theorem State.endOk_bns (s : State) : s.endOk.bns = s.bns := rfl
@[simp] theorem State.endOk_bn (s : State) (r : BN) : s.endOk.bn r = s.bn r := rfl
@[simp] theorem State.endOk_ctrl (s : State) : s.endOk.ctrl = s.ctrl := rfl
@[simp] theorem State.endOk_done (s : State) : s.endOk.status.done = true := rfl
@[simp] theorem State.endOk_wbusy (s : State) : s.endOk.status.wbusy = s.status.wbusy := rfl
@[simp] theorem State.endOk_err (s : State) : s.endOk.status.err = none := rfl
@[simp] theorem State.endOk_cmd (s : State) : s.endOk.cmd = s.cmd := rfl
@[simp] theorem State.endOk_rflags (s : State) : s.endOk.rflags = s.rflags := rfl
@[simp] theorem State.endOk_pflags (s : State) : s.endOk.pflags = s.pflags := rfl
@[simp] theorem State.endOk_attemptMax (s : State) : s.endOk.attemptMax = s.attemptMax := rfl
@[simp] theorem State.endOk_retryCnt (s : State) : s.endOk.retryCnt = s.retryCnt := rfl
@[simp] theorem State.endOk_sigLen (s : State) : s.endOk.sigLen = s.sigLen := rfl
@[simp] theorem State.endOk_digbuf (s : State) : s.endOk.digbuf = s.digbuf := rfl
@[simp] theorem State.endOk_sigbuf (s : State) : s.endOk.sigbuf = s.sigbuf := rfl
@[simp] theorem State.endOk_phase (s : State) : s.endOk.phase = .idle := rfl
@[simp] theorem State.endOk_pending (s : State) : s.endOk.pending = none := rfl
@[simp] theorem State.endOk_turns (s : State) : s.endOk.turns = s.turns := rfl
@[simp] theorem State.endOk_answers (s : State) : s.endOk.answers = s.answers := rfl
@[simp] theorem State.endOk_reply (s : State) : s.endOk.reply = s.reply := rfl

/-! The fields after a raised error (60_exceptions.md R212). -/

@[simp] theorem State.raiseError_bns (s : State) (e : Err) : (s.raiseError e).bns = s.bns := rfl
@[simp] theorem State.raiseError_bn (s : State) (e : Err) (r : BN) : (s.raiseError e).bn r = s.bn r := rfl
@[simp] theorem State.raiseError_ctrl (s : State) (e : Err) : (s.raiseError e).ctrl = s.ctrl := rfl
@[simp] theorem State.raiseError_done (s : State) (e : Err) : (s.raiseError e).status.done = true := rfl
@[simp] theorem State.raiseError_wbusy (s : State) (e : Err) : (s.raiseError e).status.wbusy = s.status.wbusy := rfl
@[simp] theorem State.raiseError_err (s : State) (e : Err) : (s.raiseError e).status.err = some e := rfl
@[simp] theorem State.raiseError_cmd (s : State) (e : Err) : (s.raiseError e).cmd = s.cmd := rfl
@[simp] theorem State.raiseError_rflags (s : State) (e : Err) : (s.raiseError e).rflags = s.rflags := rfl
@[simp] theorem State.raiseError_pflags (s : State) (e : Err) : (s.raiseError e).pflags = s.pflags := rfl
@[simp] theorem State.raiseError_attemptMax (s : State) (e : Err) : (s.raiseError e).attemptMax = s.attemptMax := rfl
@[simp] theorem State.raiseError_retryCnt (s : State) (e : Err) : (s.raiseError e).retryCnt = s.retryCnt := rfl
@[simp] theorem State.raiseError_sigLen (s : State) (e : Err) : (s.raiseError e).sigLen = s.sigLen := rfl
@[simp] theorem State.raiseError_digbuf (s : State) (e : Err) : (s.raiseError e).digbuf = s.digbuf := rfl
@[simp] theorem State.raiseError_sigbuf (s : State) (e : Err) : (s.raiseError e).sigbuf = s.sigbuf := rfl
@[simp] theorem State.raiseError_phase (s : State) (e : Err) : (s.raiseError e).phase = .idle := rfl
@[simp] theorem State.raiseError_pending (s : State) (e : Err) : (s.raiseError e).pending = none := rfl
@[simp] theorem State.raiseError_turns (s : State) (e : Err) : (s.raiseError e).turns = s.turns := rfl
@[simp] theorem State.raiseError_answers (s : State) (e : Err) : (s.raiseError e).answers = s.answers := rfl
@[simp] theorem State.raiseError_reply (s : State) (e : Err) : (s.raiseError e).reply = s.reply := rfl

/-! The inputs from outside after a reset of the block (10_state.md R55). -/

@[simp] theorem State.blockReset_turns (s : State) : s.blockReset.turns = s.turns := rfl
@[simp] theorem State.blockReset_answers (s : State) : s.blockReset.answers = s.answers := rfl
@[simp] theorem State.blockReset_reply (s : State) : s.blockReset.reply = s.reply := rfl
@[simp] theorem State.blockReset_phase (s : State) : s.blockReset.phase = .idle := rfl
@[simp] theorem State.blockReset_pending (s : State) : s.blockReset.pending = none := rfl

/-- Every bignum register of the reset state is 0. -/
theorem State.bn_reset (r : BN) : State.reset.bn r = Big.zero := by
  cases r <;> rfl

end Sys2Proof.Machine
end

