-- ==== Sys2Proof/Laws/Ops.lean ====
section
/-! SUPPORT. What each shared operation can do, said once: the ends of an engine step, the retry, the draw, and the
byte-string conversions. -/

namespace Sys2Proof.Machine

@[simp] theorem State.finish_commit (s t : State) : s.finish (.commit t) = t.endOk := rfl
@[simp] theorem State.finish_raise (s : State) (e : Err) : s.finish (.raise e) = s.raiseError e := rfl
@[simp] theorem State.finish_retry (s : State) : s.finish .retry = s.retry := rfl

/-- A retry either reaches the cap, and the command ends with RETRY_LIMIT, or changes RETRY_CNT alone. -/
theorem State.retry_cases (s : State) :
    (s.attemptMax ≠ 0 ∧ s.attemptMax.toNat ≤ s.countedRetry.toNat ∧
      s.retry = ({ s with retryCnt := s.countedRetry }).raiseError .retryLimit) ∨
    (¬(s.attemptMax ≠ 0 ∧ s.attemptMax.toNat ≤ s.countedRetry.toNat) ∧
      s.retry = { s with retryCnt := s.countedRetry }) := by
  unfold State.retry
  by_cases h : s.attemptMax ≠ 0 ∧ s.attemptMax.toNat ≤ s.countedRetry.toNat
  · exact .inl ⟨h.1, h.2, if_pos h⟩
  · exact .inr ⟨h, if_neg h⟩

/-- The counted retry as a number: one more, saturating at 0xFFFFFFFF (10_state.md R38). -/
theorem State.toNat_countedRetry (s : State) : s.countedRetry.toNat = min (s.retryCnt.toNat + 1) 0xFFFFFFFF := by
  have h : min (s.retryCnt.toNat + 1) 0xFFFFFFFF < 2 ^ 32 := by omega
  simp only [State.countedRetry, Config.retryCntMax, BitVec.toNat_ofNat]
  exact Nat.mod_eq_of_lt h

/-- What a step with a draw can do: wait for an answer, end with ENTROPY, or finish an attempt on the bytes of the oldest
answer. -/
theorem State.withDraw_cases (s : State) (len : Nat) (attempt : List Byte → State → Ending) :
    (s.answers = [] ∧ s.withDraw len attempt = { s with pending := some len }) ∨
    (∃ rest, s.answers = .fail :: rest ∧
      s.withDraw len attempt = ({ s with answers := rest, pending := none }).raiseError .entropy) ∨
    (∃ b rest, s.answers = .bytes b :: rest ∧
      s.withDraw len attempt =
        ({ s with answers := rest, pending := none }).finish
          (attempt (b.toList.take len) { s with answers := rest, pending := none })) := by
  unfold State.withDraw
  split
  · exact .inl ⟨‹_›, rfl⟩
  · exact .inr (.inl ⟨_, ‹_›, rfl⟩)
  · exact .inr (.inr ⟨_, _, ‹_›, rfl⟩)

theorem State.withDraw_none {s : State} (h : s.answers = []) (len : Nat) (attempt : List Byte → State → Ending) :
    s.withDraw len attempt = { s with pending := some len } := by
  unfold State.withDraw
  rw [h]

theorem State.withDraw_fail {s : State} {rest : List Answer} (h : s.answers = .fail :: rest) (len : Nat)
    (attempt : List Byte → State → Ending) :
    s.withDraw len attempt = ({ s with answers := rest, pending := none }).raiseError .entropy := by
  unfold State.withDraw
  rw [h]

theorem State.withDraw_bytes {s : State} {b : Vector Byte 64} {rest : List Answer} (h : s.answers = .bytes b :: rest)
    (len : Nat) (attempt : List Byte → State → Ending) :
    s.withDraw len attempt =
      ({ s with answers := rest, pending := none }).finish
        (attempt (b.toList.take len) { s with answers := rest, pending := none }) := by
  unfold State.withDraw
  rw [h]

/-- The mode as a number of bits is 256 or 512, and n is 32 or 64 (00_scope.md R7). -/
theorem State.n_cases (s : State) :
    (s.ctrl.mode = .m256 ∧ s.ctrl.mode.bits = 256 ∧ s.n = 32) ∨
    (s.ctrl.mode = .m512 ∧ s.ctrl.mode.bits = 512 ∧ s.n = 64) := by
  unfold State.n Mode.bytes
  cases h : s.ctrl.mode
  · exact .inl ⟨rfl, rfl, rfl⟩
  · exact .inr ⟨rfl, rfl, rfl⟩

/-- `int_BE` of a string with one more byte at its end. -/
theorem intBE_append (b : List Byte) (x : Byte) : intBE (b ++ [x]) = intBE b * 256 + x.toNat := by
  simp [intBE]

@[simp] theorem intLE_nil : intLE [] = 0 := rfl

@[simp] theorem intLE_cons (x : Byte) (b : List Byte) : intLE (x :: b) = x.toNat + 256 * intLE b := rfl

/-- `int_BE(rev(b)) = int_LE(b)` (00_scope.md R11). -/
theorem intBE_reverse (b : List Byte) : intBE b.reverse = intLE b := by
  induction b with
  | nil => rfl
  | cons x b ih => rw [List.reverse_cons, intBE_append, ih, intLE_cons]; omega

/-- A string of L bytes has a value below 256^L. -/
theorem intLE_lt (b : List Byte) : intLE b < 256 ^ b.length := by
  induction b with
  | nil => simp
  | cons x b ih =>
    have hx := x.isLt
    rw [intLE_cons, List.length_cons, pow_succ]
    omega

theorem intBE_lt (b : List Byte) : intBE b < 256 ^ b.length := by
  have h := intLE_lt b.reverse
  rwa [← intBE_reverse, List.reverse_reverse, List.length_reverse] at h

/-- The Euclidean remainder by a positive modulus is below it (00_scope.md R9). -/
theorem modInt_lt (z : Int) {m : Nat} (h : 0 < m) : modInt z m < m := by
  have h1 := Int.emod_lt_of_pos z (b := (m : Int)) (by omega)
  have h2 := Int.emod_nonneg z (b := (m : Int)) (by omega)
  unfold modInt
  omega

/-- The Euclidean remainder by a positive modulus, as an integer. -/
theorem coe_modInt (z : Int) {m : Nat} (h : 0 < m) : (modInt z m : Int) = z % (m : Int) :=
  Int.toNat_of_nonneg (Int.emod_nonneg z (by omega))

end Sys2Proof.Machine
end

