-- ==== Sys2Proof/Laws/Arith.lean ====
section
/-! SUPPORT. What the arithmetic operations can give, said once: residues and moduli below 2^512, the only error of Inv,
Add and Exp, points in range, the configuration as its conditions, and the two halves of a signature string. -/

namespace Sys2Proof.Machine

/-- A number below 2^512 written as a bignum reads back. -/
theorem toNat_ofNat_big {v : Nat} (h : v < 2 ^ 512) : (BitVec.ofNat 512 v).toNat = v := by
  rw [BitVec.toNat_ofNat, Nat.mod_eq_of_lt h]

theorem State.modulus_lt (s : State) (m : MSel) : s.modulus m < 2 ^ 512 := by
  cases m <;> exact s.nat_lt _

/-- The only error of Inv is NOT_INVERTIBLE (40_modular_arithmetic.md R115). -/
theorem inv_error {v m : Nat} {e : Err} (h : inv v m = .error e) : e = .notInvertible := by
  unfold inv at h
  dsimp only at h
  split at h
  · injection h with h
    exact h.symm
  · cases h

/-- A computation that can fail with nothing but NOT_INVERTIBLE. -/
def OnlyNotInvertible {α : Type} (x : Except Err α) : Prop :=
  ∀ e, x = .error e → e = .notInvertible

theorem onlyNotInvertible_ok {α : Type} (a : α) : OnlyNotInvertible (.ok a : Except Err α) :=
  fun _ h => by cases h

theorem OnlyNotInvertible.bind {α β : Type} {x : Except Err α} {f : α → Except Err β} (hx : OnlyNotInvertible x)
    (hf : ∀ a, OnlyNotInvertible (f a)) : OnlyNotInvertible (x.bind f) := by
  cases x with
  | error e => exact fun e' h => hx e' (by cases h; rfl)
  | ok a => exact hf a

theorem inv_only (v m : Nat) : OnlyNotInvertible (inv v m) :=
  fun _ h => inv_error h

/-- The only error of Add, on any input (60_exceptions.md R214). -/
theorem pointAdd_only (P A : Nat) (X1 X2 : Point) : OnlyNotInvertible (pointAdd P A X1 X2) := by
  unfold pointAdd
  split
  · exact onlyNotInvertible_ok _
  · exact onlyNotInvertible_ok _
  · split
    · split
      · exact onlyNotInvertible_ok _
      · exact (inv_only _ _).bind fun _ => onlyNotInvertible_ok _
    · split
      · exact onlyNotInvertible_ok _
      · exact (inv_only _ _).bind fun _ => onlyNotInvertible_ok _

theorem expLoop_only (P A fuel : Nat) : ∀ (k : Nat) (X : Point), OnlyNotInvertible (expLoop P A fuel k X) := by
  induction fuel with
  | zero => exact fun _ _ => onlyNotInvertible_ok _
  | succ fuel ih =>
    intro k X
    unfold expLoop
    split
    · exact onlyNotInvertible_ok _
    · split
      · exact onlyNotInvertible_ok _
      · split
        · exact (ih _ _).bind fun _ => pointAdd_only _ _ _ _
        · exact (pointAdd_only _ _ _ _).bind fun _ => ih _ _

/-- The only error of Exp, on any input (60_exceptions.md R214). -/
theorem pointExp_only (P A k : Nat) (X : Point) : OnlyNotInvertible (pointExp P A k X) :=
  expLoop_only P A k k X

/-- The only error of the computation of VERIFY (42_signature_engine.md R183). -/
theorem State.verifyPoint_only (s : State) (r sg : Nat) : OnlyNotInvertible (s.verifyPoint r sg) :=
  (inv_only _ _).bind fun _ => (pointExp_only _ _ _ _).bind fun _ => (pointExp_only _ _ _ _).bind fun _ =>
    pointAdd_only _ _ _ _

theorem thirdPoint_inRange {P : Nat} (hP : 0 < P) (lam x1 y1 x2 : Nat) :
    (thirdPoint P lam x1 y1 x2).inRange P = true := by
  simp [thirdPoint, Point.inRange, modInt_lt _ hP]

/-- What Add can give on points in range: NOT_INVERTIBLE, or a point in range (41_curve_group.md R142,
60_exceptions.md R214). -/
theorem pointAdd_outcomes {P A : Nat} (hP : 0 < P) {X1 X2 : Point} (h1 : X1.inRange P = true)
    (h2 : X2.inRange P = true) :
    pointAdd P A X1 X2 = .error .notInvertible ∨ ∃ R, pointAdd P A X1 X2 = .ok R ∧ R.inRange P = true := by
  cases X1 with
  | infinity =>
    right
    cases X2 <;> exact ⟨_, rfl, h2⟩
  | aff x1 y1 =>
    cases X2 with
    | infinity => exact .inr ⟨_, rfl, h1⟩
    | aff x2 y2 =>
      simp only [pointAdd]
      split
      · split
        · exact .inr ⟨_, rfl, rfl⟩
        · unfold doubleFormula
          cases hi : inv (2 * y1 % P) P with
          | error e => rw [inv_error hi]; exact .inl rfl
          | ok i => exact .inr ⟨_, rfl, thirdPoint_inRange hP _ _ _ _⟩
      · split
        · exact .inr ⟨_, rfl, rfl⟩
        · unfold chordFormula
          cases hi : inv (modInt ((x2 : Int) - x1) P) P with
          | error e => rw [inv_error hi]; exact .inl rfl
          | ok i => exact .inr ⟨_, rfl, thirdPoint_inRange hP _ _ _ _⟩

/-- What the recursion of Exp can give on a point in range, with any fuel. -/
theorem expLoop_outcomes {P A : Nat} (hP : 0 < P) (fuel : Nat) : ∀ (k : Nat) {X : Point}, X.inRange P = true →
    expLoop P A fuel k X = .error .notInvertible ∨ ∃ R, expLoop P A fuel k X = .ok R ∧ R.inRange P = true := by
  induction fuel with
  | zero => exact fun k X _ => .inr ⟨_, rfl, rfl⟩
  | succ fuel ih =>
    intro k X hX
    simp only [expLoop]
    split
    · exact .inr ⟨_, rfl, rfl⟩
    · split
      · exact .inr ⟨_, rfl, hX⟩
      · split
        · rcases ih (k - 1) hX with hT | ⟨T, hT, hr⟩
          · rw [hT]; exact .inl rfl
          · rw [hT]; exact pointAdd_outcomes hP hX hr
        · rcases pointAdd_outcomes (A := A) hP hX hX with hT | ⟨T, hT, hr⟩
          · rw [hT]; exact .inl rfl
          · rw [hT]; exact ih (k / 2) hr

/-- What Exp can give on a point in range: NOT_INVERTIBLE, or a point in range (41_curve_group.md R146). -/
theorem pointExp_outcomes {P A : Nat} (hP : 0 < P) (k : Nat) {X : Point} (hX : X.inRange P = true) :
    pointExp P A k X = .error .notInvertible ∨ ∃ R, pointExp P A k X = .ok R ∧ R.inRange P = true :=
  expLoop_outcomes hP k k hX

/-- CfgCurve as its conditions (41_curve_group.md R140). -/
theorem State.cfgCurve_iff (s : State) :
    s.cfgCurve = true ↔ 3 ≤ s.nat .p ∧ s.nat .p < 2 ^ s.ctrl.mode.bits ∧ s.nat .a < s.nat .p := by
  simp [State.cfgCurve, and_assoc]

/-- CfgSig as its conditions (42_signature_engine.md R170). -/
theorem State.cfgSig_iff (s : State) :
    s.cfgSig = true ↔ s.cfgCurve = true ∧ 2 ≤ s.nat .q ∧ s.nat .q < 2 ^ s.ctrl.mode.bits ∧
      s.nat .gx < s.nat .p ∧ s.nat .gy < s.nat .p := by
  simp [State.cfgSig, and_assoc]

/-- A number below 2^MODE fits n bytes (42_signature_engine.md R178). -/
theorem State.two_pow_bits (s : State) : 2 ^ s.ctrl.mode.bits = 256 ^ s.n := by
  have h : ∀ k, 2 ^ (8 * k) = 256 ^ k := fun k => pow_mul 2 8 k
  rcases s.n_cases with ⟨_, hb, hn⟩ | ⟨_, hb, hn⟩ <;> rw [hb, hn]
  · exact h 32
  · exact h 64

/-- The bytes of BE_L(v) read back as v (00_scope.md R11). -/
theorem intBE_beBytes (len : Nat) : ∀ v, v < 256 ^ len → intBE (List.ofFn (n := len) fun i => beByte len v i.val) = v := by
  induction len with
  | zero => intro v h; simp [intBE]; omega
  | succ len ih =>
    intro v h
    rw [List.ofFn_succ', List.concat_eq_append, intBE_append]
    have h1 : (fun i : Fin len => beByte (len + 1) v (i.castSucc).val) = fun i : Fin len => beByte len (v / 256) i.val := by
      funext i
      have hi := i.isLt
      simp only [beByte, Fin.val_castSucc]
      rw [Nat.div_div_eq_div_mul, ← pow_succ', show len - 1 - i.val + 1 = len + 1 - 1 - i.val by omega]
    rw [h1, ih (v / 256) (by rw [pow_succ] at h; omega)]
    simp only [beByte, Fin.val_last, Nat.sub_self, Nat.add_sub_cancel, pow_zero, Nat.div_one, BitVec.toNat_ofNat]
    omega

/-- The string SIGN writes: its two halves read back, and the rest is 0 (42_signature_engine.md R178). -/
theorem sigBytes_halves {n r sg : Nat} (hn : n = 32 ∨ n = 64) (hr : r < 256 ^ n) (hs : sg < 256 ^ n) :
    intBE ((sigBytes n r sg).toList.take n) = r ∧ intBE (((sigBytes n r sg).toList.drop n).take n) = sg ∧
      ∀ i : Fin 128, 2 * n ≤ i.val → (sigBytes n r sg)[i] = 0 := by
  have e1 : (sigBytes n r sg).toList.take n = List.ofFn (n := n) fun i => beByte n r i.val := by
    apply List.ext_getElem
    · simp; omega
    · intro i h1 h2
      simp at h2
      simp [sigBytes, h2]
  have e2 : ((sigBytes n r sg).toList.drop n).take n = List.ofFn (n := n) fun i => beByte n sg i.val := by
    apply List.ext_getElem
    · simp; omega
    · intro i h1 h2
      simp at h2
      simp [sigBytes, show n + i < 2 * n by omega]
  refine ⟨by rw [e1, intBE_beBytes _ _ hr], by rw [e2, intBE_beBytes _ _ hs], fun i hi => ?_⟩
  simp [sigBytes, show ¬ i.val < n by omega, show ¬ i.val < 2 * n by omega]

end Sys2Proof.Machine
end

