-- ==== Sys2Proof/Laws/Bus.lean ====
section
/-! SUPPORT. What the bus operations do, said once: which slot an offset is, a served transaction, a write that only an
idle block takes, and the CTRL actions. -/

namespace Sys2Proof.Machine

theorem State.busy_idle {s : State} (h : s.phase = .idle) : s.busy = false := by
  simp [State.busy, h]

theorem State.busy_run {s : State} (h : s.phase = .run) : s.busy = true := by
  simp [State.busy, h]

@[simp] theorem toNat_offset {o : Nat} (h : o < 4096) : (BitVec.ofNat 12 o).toNat = o := by
  rw [BitVec.toNat_ofNat, Nat.mod_eq_of_lt h]

/-- A full-word write at an aligned offset is served: the slot takes the word and the response is OK. -/
theorem State.busStep_wr (s : State) {o : Nat} (v : Word32) (h : o < 4096) (ha : o % 4 = 0) :
    s.busStep (wr o v) = { s.writeSlot v (slotOf (BitVec.ofNat 12 o)) with reply := some (.write .ok) } := by
  simp [State.busStep, wr, BusTxn.served, toNat_offset h, ha]

/-- A full-word read at an aligned offset is served: it answers the word of the slot and changes nothing. -/
theorem State.busStep_rd (s : State) {o : Nat} (h : o < 4096) (ha : o % 4 = 0) :
    s.busStep (rd o) = { s with reply := some (.read (s.readSlot (slotOf (BitVec.ofNat 12 o))) .ok) } := by
  simp [State.busStep, rd, BusTxn.served, toNat_offset h, ha]

/-- The register of an index. -/
theorem BN.all_getElem? (r : BN) : BN.all[(r.index : Nat)]? = some r := by
  cases r <;> rfl

/-- Word j of a bignum register lies at its base plus 4j (20_memory.md R62, R67). -/
theorem slotOf_bn (r : BN) {j : Nat} (hj : j < 16) :
    slotOf (BitVec.ofNat 12 (r.base + 4 * j)) = .bn r (Fin.ofNat 16 j) := by
  have hr := r.index.isLt
  have hlt : r.base + 4 * j < 4096 := by unfold BN.base; omega
  have hlo : ¬ r.base + 4 * j < 0x100 := by unfold BN.base; omega
  have hhi : r.base + 4 * j < 0x600 := by unfold BN.base; omega
  have hix : (r.base + 4 * j - 0x100) / 0x40 = r.index := by unfold BN.base; omega
  have hw : Fin.ofNat 16 ((r.base + 4 * j) / 4) = Fin.ofNat 16 j := by
    apply Fin.ext
    show (r.base + 4 * j) / 4 % 16 = j % 16
    unfold BN.base
    omega
  unfold slotOf
  simp only [toNat_offset hlt, if_neg hlo, if_pos hhi, hix, BN.all_getElem?, hw]

/-- An aligned offset from 0x100 to 0x5FF is a word of a bignum register (20_memory.md R66, R67). -/
theorem slotOf_bignum_range {o : Nat} (ha : o % 4 = 0) (hlo : 0x100 ≤ o) (hhi : o < 0x600) :
    ∃ (r : BN) (j : Nat), j < 16 ∧ o = r.base + 4 * j := by
  have hk : (o - 0x100) / 0x40 < 20 := by omega
  obtain ⟨r, hr⟩ := BN.exists_index ⟨_, hk⟩
  refine ⟨r, (o / 4) % 16, by omega, ?_⟩
  have : (r.index : Nat) = (o - 0x100) / 0x40 := by rw [hr]
  unfold BN.base
  omega

/-- Word w of DIGBUF lies at 0x600 + 4w (20_memory.md R63). -/
theorem slotOf_digbuf {w : Nat} (hw : w < 16) : slotOf (BitVec.ofNat 12 (0x600 + 4 * w)) = .digbuf (Fin.ofNat 16 w) := by
  have h : Fin.ofNat 16 ((0x600 + 4 * w) / 4) = Fin.ofNat 16 w := by
    apply Fin.ext
    show (0x600 + 4 * w) / 4 % 16 = w % 16
    omega
  unfold slotOf
  simp only [toNat_offset (show 0x600 + 4 * w < 4096 by omega), h]
  rw [if_neg (by omega), if_neg (by omega), if_pos (by omega)]

/-- Word w of SIGBUF lies at 0x640 + 4w (20_memory.md R63). -/
theorem slotOf_sigbuf {w : Nat} (hw : w < 32) : slotOf (BitVec.ofNat 12 (0x640 + 4 * w)) = .sigbuf (Fin.ofNat 32 w) := by
  have h : Fin.ofNat 32 ((0x640 + 4 * w - 0x640) / 4) = Fin.ofNat 32 w := by
    apply Fin.ext
    show (0x640 + 4 * w - 0x640) / 4 % 32 = w % 32
    omega
  unfold slotOf
  simp only [toNat_offset (show 0x640 + 4 * w < 4096 by omega), h]
  rw [if_neg (by omega), if_neg (by omega), if_neg (by omega), if_pos (by omega)]

/-- Offsets above the last control register and above the buffers are reserved (20_memory.md R68). -/
theorem slotOf_reserved {o : Nat} (h : (0x028 ≤ o ∧ o < 0x100) ∨ (0x6C0 ≤ o ∧ o < 0x1000)) :
    slotOf (BitVec.ofNat 12 o) = .reserved := by
  unfold slotOf
  simp only [toNat_offset (show o < 4096 by omega)]
  rcases h with h | h
  · rw [if_pos (by omega)]
    unfold controlSlot
    split <;> first | rfl | omega
  · rw [if_neg (by omega), if_neg (by omega), if_neg (by omega), if_neg (by omega)]

theorem State.unlessBusy_idle {s : State} (h : s.phase = .idle) (store : State → State) :
    s.unlessBusy store = store s := by
  simp [State.unlessBusy, State.busy_idle h]

theorem State.unlessBusy_run {s : State} (h : s.phase = .run) (store : State → State) :
    s.unlessBusy store = { s with status := { s.status with wbusy := true } } := by
  simp [State.unlessBusy, State.busy_run h]

/-- A legal word written to CMD starts the engine (10_state.md R31). -/
theorem State.acceptCommand_legal {w : Word32} {i : Instr} (h : decode w = .ok i) (s : State) :
    s.acceptCommand w =
      { s with
        cmd := w, phase := .run, status := { s.status with done := false, err := none }
        retryCnt := if drawsEntropy i then 0 else s.retryCnt } := by
  simp [State.acceptCommand, h]

/-- An illegal word written to CMD ends at once with ILLEGAL (10_state.md R31, 43_control_commands.md R201). -/
theorem State.acceptCommand_illegal {w : Word32} {e : IllegalWord} (h : decode w = .error e) (s : State) :
    s.acceptCommand w = { s with cmd := w, status := { s.status with done := true, err := some .illegal } } := by
  simp [State.acceptCommand, h]

/-- SRST resets the block and ignores the rest of the word (43_control_commands.md R203). -/
theorem State.writeCtrl_srst {v : Word32} (h : v.getLsbD 9 = true) (s : State) : s.writeCtrl v = s.blockReset := by
  simp [State.writeCtrl, h]

/-- ABORT of a running command (43_control_commands.md R202). -/
theorem State.abort_run {s : State} (h : s.phase = .run) : s.abort = s.raiseError .aborted := by
  simp [State.abort, State.busy_run h]

theorem State.abort_idle {s : State} (h : s.phase = .idle) : s.abort = s := by
  simp [State.abort, State.busy_idle h]

/-! The words of a bignum and of a buffer (20_memory.md R62, R63). -/

theorem val_ofNat_of_lt {n k : Nat} [NeZero n] (h : k < n) : (Fin.ofNat n k).val = k :=
  Nat.mod_eq_of_lt h

/-- Word j of a bignum as the rule's quotient. -/
theorem bigWord_eq (x : Big) {j : Nat} (hj : j < 16) :
    bigWord x (Fin.ofNat 16 j) = BitVec.ofNat 32 (x.toNat / 2 ^ (32 * j)) := by
  unfold bigWord
  rw [val_ofNat_of_lt hj]
  apply BitVec.eq_of_toNat_eq
  rw [BitVec.extractLsb'_toNat, BitVec.toNat_ofNat, Nat.shiftRight_eq_div_pow]

theorem getLsbD_wordMask (k : Nat) : (0xFFFFFFFF : Big).getLsbD k = decide (k < 32) := by
  have h : (0xFFFFFFFF : Big) = BitVec.ofNat 512 (2 ^ 32 - 1) := rfl
  rw [h, BitVec.getLsbD_ofNat, Nat.testBit_two_pow_sub_one]
  by_cases hk : k < 32
  · simp [hk, show k < 512 by omega]
  · simp [hk]

/-- Each bit after word j of a bignum is replaced: of the word inside it, as before outside it. -/
theorem getLsbD_setBigWord (x : Big) {j : Nat} (hj : j < 16) (v : Word32) (k : Nat) :
    (setBigWord x (Fin.ofNat 16 j) v).getLsbD k =
      if 32 * j ≤ k ∧ k < 32 * j + 32 then v.getLsbD (k - 32 * j) else x.getLsbD k := by
  unfold setBigWord
  rw [val_ofNat_of_lt hj]
  simp only [BitVec.getLsbD_or, BitVec.getLsbD_and, BitVec.getLsbD_not, BitVec.getLsbD_shiftLeft,
    BitVec.getLsbD_setWidth, getLsbD_wordMask]
  by_cases hk : k < 512
  · by_cases h1 : 32 * j ≤ k
    · by_cases h2 : k < 32 * j + 32
      · simp [hk, h1, h2, show ¬ k < 32 * j by omega, show k - 32 * j < 32 by omega, show k - 32 * j < 512 by omega]
      · simp [hk, h1, h2, show ¬ k < 32 * j by omega, show ¬ k - 32 * j < 32 by omega,
          BitVec.getLsbD_of_ge v (k - 32 * j) (by omega)]
    · simp [hk, h1, show k < 32 * j by omega]
  · rw [if_neg (by omega)]
    simp [hk, BitVec.getLsbD_of_ge x k (by omega)]

/-- Lane j of word w of a buffer is its byte 4w + j. -/
theorem extractLsb'_bufWord {n : Nat} (buf : Vector Byte n) (w : Nat) {j : Nat} (hj : j < 4) (h : 4 * w + j < n) :
    (bufWord buf w).extractLsb' (8 * j) 8 = buf[4 * w + j] := by
  have key : ∀ i : Nat, i < 8 → (bufWord buf w).getLsbD (8 * j + i) = (buf[4 * w + j]?.getD 0).getLsbD i := by
    intro i hi
    unfold bufWord
    simp only [BitVec.getLsbD_append]
    obtain rfl | rfl | rfl | rfl : j = 0 ∨ j = 1 ∨ j = 2 ∨ j = 3 := by omega
    · simp [hi]
    · simp [show ¬ 8 + i < 8 by omega, show 8 + i - 8 = i by omega, hi]
    · simp [show ¬ 16 + i < 8 by omega, show 16 + i - 8 - 8 = i by omega, show ¬ 16 + i - 8 < 8 by omega, hi]
    · simp [show ¬ 24 + i < 8 by omega, show ¬ 24 + i - 8 < 8 by omega, show ¬ 24 + i - 8 - 8 < 8 by omega,
        show 24 + i - 8 - 8 - 8 = i by omega]
  apply BitVec.eq_of_getLsbD_eq
  intro i hi
  rw [BitVec.getLsbD_extractLsb', key i hi]
  simp [hi, Vector.getElem?_eq_getElem h]

/-- A byte after word w of a buffer is replaced: of the word inside it, as before outside it. -/
theorem getElem_setBufWord {n : Nat} (buf : Vector Byte n) (w : Nat) (v : Word32) (i : Fin n) :
    (setBufWord buf w v)[i] = if i.val / 4 = w then v.extractLsb' (8 * (i.val % 4)) 8 else buf[i] := by
  unfold setBufWord
  simp only [Fin.getElem_fin, Vector.getElem_setIfInBounds]
  by_cases hw : i.val / 4 = w
  · rw [if_pos hw]
    obtain h | h | h | h : i.val % 4 = 0 ∨ i.val % 4 = 1 ∨ i.val % 4 = 2 ∨ i.val % 4 = 3 := by omega
    · rw [h, if_neg (by omega), if_neg (by omega), if_neg (by omega), if_pos (by omega)]
    · rw [h, if_neg (by omega), if_neg (by omega), if_pos (by omega)]
    · rw [h, if_neg (by omega), if_pos (by omega)]
    · rw [h, if_pos (by omega)]
  · rw [if_neg hw, if_neg (by omega), if_neg (by omega), if_neg (by omega), if_neg (by omega)]

end Sys2Proof.Machine
end

