-- ==== Sys2Proof/Laws/Exec.lean ====
section
/-! SUPPORT. What an engine step of a command can do, said once for all commands: end with an error (RETRY_LIMIT only from a
retry), end with the commit of the command, and for KEYGEN and SIGN wait for an answer, or retry. -/

namespace Sys2Proof.Machine

/-- The writes a command makes in its commit, before the end-of-command fields (10_state.md R22, R32, R48): c is s but
for them. -/
structure CommitOf (i : Instr) (s c : State) : Prop where
  inputs : InputsKept s c
  bn : ∀ r, r ∉ writesBn i → c.bn r = s.bn r
  signature : i ≠ .sign → c.sigbuf = s.sigbuf ∧ c.sigLen = s.sigLen
  retryCnt : c.retryCnt = s.retryCnt
  answers : c.answers = s.answers
  nop : i = .nop → c.rflags = s.rflags
  rinf : i ≠ .nop → c.rflags.rinf = true → i = .padd ∨ i = .pdbl ∨ i = .pmul
  res1Neg : i ≠ .nop → c.rflags.res1Neg = true → ∃ m, i = .egcd m
  res2Neg : i ≠ .nop → c.rflags.res2Neg = true → ∃ m, i = .egcd m
  verifyOk : i ≠ .nop → c.rflags.verifyOk = true → i = .verify

/-- An ending of a step on s that no draw has started: the command's commit, or an error other than RETRY_LIMIT, which
comes from a retry alone (60_exceptions.md R214). -/
def Ending.closes (i : Instr) (s : State) : Ending → Prop
  | .commit c => CommitOf i s c
  | .raise e => e ≠ .retryLimit
  | .retry => False

/-- An ending of an attempt on s: the same, or a degenerate attempt. -/
def Ending.attempted (i : Instr) (s : State) : Ending → Prop
  | .commit c => CommitOf i s c
  | .raise e => e ≠ .retryLimit
  | .retry => True

theorem ne_retryLimit {e : Err} (h : e = .notInvertible) : e ≠ .retryLimit := by
  rw [h]; decide

theorem execNop_commit (s : State) : CommitOf .nop s s := by
  constructor <;> first | (constructor <;> intros <;> rfl) | simp

theorem mruEnding_closes {i : Instr} (h : writesBn i = [.res0]) (hn : i ≠ .nop) (m : MSel) (s : State)
    (f : Nat → Nat) : (mruEnding m s f).closes i s := by
  unfold mruEnding
  dsimp only
  split
  · exact fun h => by cases h
  · constructor <;> try (constructor <;> intros <;> first | rfl | skip)
    · exact State.bn_setNat_of_ne _ _ (by rintro rfl; contradiction)
    · intro r hr
      exact State.bn_setNat_of_ne _ _ (by rintro rfl; simp [h] at hr)
    all_goals simp [hn]

theorem modinvEnding_closes (m : MSel) (s : State) : (modinvEnding m s).closes (.modinv m) s := by
  unfold modinvEnding
  dsimp only
  split
  · exact fun h => by cases h
  · split
    · rename_i h; exact ne_retryLimit (inv_error h)
    · constructor <;> try (constructor <;> intros <;> first | rfl | skip)
      · exact State.bn_setNat_of_ne _ _ (by rintro rfl; contradiction)
      · intro r hr
        exact State.bn_setNat_of_ne _ _ (by rintro rfl; simp [writesBn] at hr)
      all_goals simp

theorem egcdCommit_commit (m : MSel) (s : State) : CommitOf (.egcd m) s (egcdCommit m s) := by
  unfold egcdCommit
  have key : ∀ {r : BN} {x y z : Nat}, r ≠ .res0 → r ≠ .res1 → r ≠ .res2 →
      (((s.setNat .res0 x).setNat .res1 y).setNat .res2 z).bn r = s.bn r := by
    intro r x y z h0 h1 h2
    rw [State.bn_setNat_of_ne _ _ h2, State.bn_setNat_of_ne _ _ h1, State.bn_setNat_of_ne _ _ h0]
  constructor <;> try (constructor <;> intros <;> first | rfl | skip)
  · exact key (by rintro rfl; contradiction) (by rintro rfl; contradiction) (by rintro rfl; contradiction)
  · intro r hr
    simp only [writesBn, List.mem_cons, not_or] at hr
    exact key hr.1 hr.2.1 hr.2.2.1
  all_goals simp [RFlags.signs]

theorem pointResult_commit {i : Instr} (h : i = .padd ∨ i = .pdbl ∨ i = .pmul) (s : State) (X : Point) :
    CommitOf i s (s.pointResult X) := by
  have key : ∀ {r : BN} {x y : Nat}, r ≠ .res0 → r ≠ .res1 →
      ((s.setNat .res0 x).setNat .res1 y).bn r = s.bn r := by
    intro r x y h0 h1
    rw [State.bn_setNat_of_ne _ _ h1, State.bn_setNat_of_ne _ _ h0]
  rcases h with rfl | rfl | rfl <;> cases X <;>
  · constructor <;> try (constructor <;> intros <;> first | rfl | skip)
    · exact key (by rintro rfl; contradiction) (by rintro rfl; contradiction)
    · intro r hr
      simp only [writesBn, List.mem_cons, not_or] at hr
      exact key hr.1 hr.2.1
    all_goals simp [State.pointResult, RFlags.point]

theorem pointEnding_closes {i : Instr} (h : i = .padd ∨ i = .pdbl ∨ i = .pmul) (s : State) {R : Except Err Point}
    (hR : OnlyNotInvertible R) : (pointEnding s R).closes i s := by
  cases R with
  | error e => exact ne_retryLimit (hR e rfl)
  | ok X => exact pointResult_commit h s X

theorem onePointEnding_closes {i : Instr} (h : i = .padd ∨ i = .pdbl ∨ i = .pmul) (s : State) {R : Except Err Point}
    (hR : OnlyNotInvertible R) : (onePointEnding s R).closes i s := by
  unfold onePointEnding
  split
  · exact fun h => by cases h
  · split
    · exact fun h => by cases h
    · exact pointEnding_closes h s hR

theorem paddEnding_closes (s : State) : (paddEnding s).closes .padd s := by
  unfold paddEnding
  split
  · exact fun h => by cases h
  · split
    · exact fun h => by cases h
    · split
      · exact fun h => by cases h
      · exact pointEnding_closes (.inl rfl) s (pointAdd_only _ _ _ _)

theorem verifyCommit_commit (s : State) (ok : Bool) : CommitOf .verify s (s.verifyCommit ok) := by
  unfold State.verifyCommit
  constructor <;> first | (constructor <;> intros <;> rfl) | simp [RFlags.verified]
  exact fun r _ => rfl

theorem verifyEnding_closes (s : State) : (verifyEnding s).closes .verify s := by
  unfold verifyEnding
  split
  · exact fun h => by cases h
  · split
    · exact fun h => by cases h
    · split
      · exact fun h => by cases h
      · split
        · exact verifyCommit_commit s false
        · split
          · rename_i h; exact ne_retryLimit (s.verifyPoint_only _ _ _ h)
          · exact verifyCommit_commit s _

theorem keygenAttempt_attempted (b : List Byte) (s : State) : (keygenAttempt b s).attempted .keygen s := by
  unfold keygenAttempt
  dsimp only
  split
  · trivial
  · split
    · rename_i h; exact ne_retryLimit (pointExp_only _ _ _ _ _ h)
    · exact fun h => by cases h
    · constructor <;> try (constructor <;> intros <;> first | rfl | skip)
      · rename_i r hr
        show (((s.setNat .res0 _).setNat .res1 _).setNat .res2 _).bn r = s.bn r
        rw [State.bn_setNat_of_ne _ _ (by rintro rfl; contradiction),
          State.bn_setNat_of_ne _ _ (by rintro rfl; contradiction),
          State.bn_setNat_of_ne _ _ (by rintro rfl; contradiction)]
      · intro r hr
        simp only [writesBn, List.mem_cons, not_or] at hr
        show (((s.setNat .res0 _).setNat .res1 _).setNat .res2 _).bn r = s.bn r
        rw [State.bn_setNat_of_ne _ _ hr.2.2.1, State.bn_setNat_of_ne _ _ hr.2.1, State.bn_setNat_of_ne _ _ hr.1]
      all_goals simp

theorem signCommit_commit (s : State) (r sg : Nat) : CommitOf .sign s (s.signCommit r sg) := by
  have key : ∀ {r' : BN}, r' ≠ .res0 → r' ≠ .res1 → ((s.setNat .res0 r).setNat .res1 sg).bn r' = s.bn r' := by
    intro r' h0 h1
    rw [State.bn_setNat_of_ne _ _ h1, State.bn_setNat_of_ne _ _ h0]
  unfold State.signCommit
  constructor <;> try (constructor <;> intros <;> first | rfl | skip)
  · exact key (by rintro rfl; contradiction) (by rintro rfl; contradiction)
  · intro r' hr
    simp only [writesBn, List.mem_cons, not_or] at hr
    exact key hr.1 hr.2.1
  all_goals simp

theorem signAttempt_attempted (b : List Byte) (s : State) : (signAttempt b s).attempted .sign s := by
  unfold signAttempt
  dsimp only
  split
  · trivial
  · split
    · rename_i h; exact ne_retryLimit (pointExp_only _ _ _ _ _ h)
    · exact fun h => by cases h
    · split
      · trivial
      · split
        · trivial
        · exact signCommit_commit s _ _

/-- What a step that draws does. -/
theorem withDraw_outcomes {i : Instr} {attempt : List Byte → State → Ending} (len : Nat)
    (h : ∀ b s, (attempt b s).attempted i s) (s : State) :
    (s.answers = [] ∧ s.withDraw len attempt = { s with pending := some len }) ∨
    (∃ a rest, s.answers = a :: rest ∧
      ((∃ e, e ≠ .retryLimit ∧ s.withDraw len attempt = (s.afterDraw rest).raiseError e) ∨
        (∃ c, CommitOf i (s.afterDraw rest) c ∧ s.withDraw len attempt = c.endOk) ∨
        s.withDraw len attempt = (s.afterDraw rest).retry)) := by
  rcases s.withDraw_cases len attempt with h0 | ⟨rest, ha, h1⟩ | ⟨b, rest, ha, h1⟩
  · exact .inl h0
  · exact .inr ⟨_, rest, ha, .inl ⟨_, by decide, h1⟩⟩
  · refine .inr ⟨_, rest, ha, ?_⟩
    have hb := h (b.toList.take len) (s.afterDraw rest)
    rw [h1]
    change (∃ e, e ≠ Err.retryLimit ∧
      (s.afterDraw rest).finish (attempt (b.toList.take len) (s.afterDraw rest)) = _) ∨
      (∃ c, _ ∧ (s.afterDraw rest).finish (attempt (b.toList.take len) (s.afterDraw rest)) = _) ∨
      (s.afterDraw rest).finish (attempt (b.toList.take len) (s.afterDraw rest)) = _
    cases hE : attempt (b.toList.take len) (s.afterDraw rest) with
    | commit c => rw [hE] at hb; exact .inr (.inl ⟨c, hb, rfl⟩)
    | raise e => rw [hE] at hb; exact .inl ⟨e, hb, rfl⟩
    | retry => exact .inr (.inr rfl)

/-- The end of a step without a draw. -/
theorem finish_closes {i : Instr} {s : State} {E : Ending} (h : E.closes i s) :
    (∃ e, e ≠ .retryLimit ∧ s.finish E = s.raiseError e) ∨ (∃ c, CommitOf i s c ∧ s.finish E = c.endOk) := by
  cases E with
  | commit c => exact .inr ⟨c, h, rfl⟩
  | raise e => exact .inl ⟨e, h, rfl⟩
  | retry => exact h.elim

/-- What an engine step of a command can leave: the command ended with an error, the command ended with its commit, the
request of a draw is outstanding, or an attempt with an answer ended in an error, the commit or a retry. -/
def ExecLeaves (i : Instr) (s t : State) : Prop :=
  (∃ e, e ≠ .retryLimit ∧ t = s.raiseError e) ∨
  (drawsEntropy i = false ∧ ∃ c, CommitOf i s c ∧ t = c.endOk) ∨
  (drawsEntropy i = true ∧ s.cfgSig = true ∧ (i = .sign → s.keyInRange = true) ∧
    ((s.answers = [] ∧ t = { s with pending := s.requestLength i }) ∨
      (∃ a rest, s.answers = a :: rest ∧
        ((∃ e, e ≠ .retryLimit ∧ t = (s.afterDraw rest).raiseError e) ∨
          (∃ c, CommitOf i (s.afterDraw rest) c ∧ t = c.endOk) ∨
          t = (s.afterDraw rest).retry))))

/-- Every engine step of a command gives a next state. -/
theorem exec_cases (i : Instr) (s : State) : ∃ t, exec i s = .next t ∧ ExecLeaves i s t := by
  have plain : ∀ {E : Ending}, drawsEntropy i = false → exec i s = .next (s.finish E) → E.closes i s →
      ∃ t, exec i s = .next t ∧ ExecLeaves i s t := by
    intro E hd he hE
    rcases finish_closes hE with h | h
    · exact ⟨_, he, .inl h⟩
    · exact ⟨_, he, .inr (.inl ⟨hd, h⟩)⟩
  cases i with
  | nop => exact plain rfl rfl (execNop_commit s)
  | modred m => exact plain rfl rfl (mruEnding_closes rfl (by simp) m s _)
  | modadd m => exact plain rfl rfl (mruEnding_closes rfl (by simp) m s _)
  | modsub m => exact plain rfl rfl (mruEnding_closes rfl (by simp) m s _)
  | modmul m => exact plain rfl rfl (mruEnding_closes rfl (by simp) m s _)
  | modinv m => exact plain rfl rfl (modinvEnding_closes m s)
  | egcd m => exact plain rfl rfl (egcdCommit_commit m s)
  | padd => exact plain rfl rfl (paddEnding_closes s)
  | pdbl => exact plain rfl rfl (onePointEnding_closes (.inr (.inl rfl)) s (pointAdd_only _ _ _ _))
  | pmul => exact plain rfl rfl (onePointEnding_closes (.inr (.inr rfl)) s (pointExp_only _ _ _ _))
  | verify => exact plain rfl rfl (verifyEnding_closes s)
  | keygen =>
    refine ⟨_, rfl, ?_⟩
    split
    · exact .inl ⟨_, by decide, rfl⟩
    · rename_i hc
      exact .inr (.inr ⟨rfl, by simpa using hc, by simp, withDraw_outcomes s.n keygenAttempt_attempted s⟩)
  | sign =>
    refine ⟨_, rfl, ?_⟩
    split
    · exact .inl ⟨_, by decide, rfl⟩
    · split
      · exact .inl ⟨_, by decide, rfl⟩
      · rename_i hc hk
        refine .inr (.inr ⟨rfl, by simpa using hc, fun _ => ?_, withDraw_outcomes 64 signAttempt_attempted s⟩)
        simp only [State.keyInRange, Bool.and_eq_true, decide_eq_true_eq]
        omega

end Sys2Proof.Machine
end

