-- ==== Sys2Proof/Laws/PerInstr.lean ====
section
/-! SUPPORT. A fact said of every instruction, one lemma per constructor: the encoder gives a well-formed command word
(30_encoding.md R96, R104). -/

namespace Sys2Proof.Laws.EncodingLegal

/-- The word of a command meets no clause of 30_encoding.md R96. -/
def Statement (i : Instr) : Prop :=
  wellFormedWord (encode i) = true

theorem nop : Statement .nop := rfl
theorem modred (m : MSel) : Statement (.modred m) := by cases m <;> rfl
theorem modadd (m : MSel) : Statement (.modadd m) := by cases m <;> rfl
theorem modsub (m : MSel) : Statement (.modsub m) := by cases m <;> rfl
theorem modmul (m : MSel) : Statement (.modmul m) := by cases m <;> rfl
theorem modinv (m : MSel) : Statement (.modinv m) := by cases m <;> rfl
theorem egcd (m : MSel) : Statement (.egcd m) := by cases m <;> rfl
theorem padd : Statement .padd := rfl
theorem pdbl : Statement .pdbl := rfl
theorem pmul : Statement .pmul := rfl
theorem keygen : Statement .keygen := rfl
theorem sign : Statement .sign := rfl
theorem verify : Statement .verify := rfl

end Sys2Proof.Laws.EncodingLegal
end

