-- ==== Sys2Proof/Laws/Step.lean ====
section
/-! SUPPORT. The step by the turn it takes, the engine turn by the phase, and what a write can leave in a busy and in an
idle block. -/

namespace Sys2Proof.Machine

theorem step_nil {s : State} (h : s.turns = []) : step s = engineTurn s := by
  simp only [step, nextStep, h]

theorem step_cons {s : State} {t : Turn} {rest : List Turn} (h : s.turns = t :: rest) :
    step s = takeTurn t { s with turns := rest } := by
  simp only [step, nextStep, h]

theorem engineTurn_idle {s : State} (h : s.phase = .idle) : engineTurn s = .next s := by
  simp only [engineTurn, h]

theorem engineTurn_run {s : State} {i : Instr} (h : s.phase = .run) (hd : decode s.cmd = .ok i) :
    engineTurn s = exec i s := by
  simp only [engineTurn, h, hd]

theorem engineTurn_illegal {s : State} {e : IllegalWord} (h : s.phase = .run) (hd : decode s.cmd = .error e) :
    engineTurn s = .fault .runningIllegalWord := by
  simp only [engineTurn, h, hd]

/-- The control bits a write of CTRL asks for. -/
def ctrlAsked (v : Word32) : Ctrl :=
  { mode := .ofBit (v.getLsbD 0), ie := v.getLsbD 1, digLE := v.getLsbD 2, vfyCompat := v.getLsbD 3 }

/-- A CTRL write without SRST on an idle block stores its four fields; ABORT does nothing there (10_state.md R27). -/
theorem State.writeCtrl_idle {s : State} {v : Word32} (h : s.phase = .idle) (hv : v.getLsbD 9 = false) :
    s.writeCtrl v = { s with ctrl := ctrlAsked v } := by
  have hb := State.busy_idle h
  unfold State.writeCtrl
  simp only [hv, hb, Bool.false_eq_true, if_false]
  split
  · exact State.abort_idle (s := { s with ctrl := ctrlAsked v }) h
  · rfl

/-- What a write can leave of a busy block: the block reset, the command aborted with only IE and WBUSY written, or only IE
and WBUSY written (10_state.md R27, R28, R33; 43_control_commands.md R202, R203). -/
theorem State.writeSlot_run {s : State} (h : s.phase = .run) (v : Word32) (sl : Slot) :
    (sl = .ctrl ∧ v.getLsbD 9 = true ∧ s.writeSlot v sl = s.blockReset) ∨
    (∃ ie wb, s.writeSlot v sl =
      ({ s with ctrl := { s.ctrl with ie := ie }, status := { s.status with wbusy := wb } }).raiseError .aborted) ∨
    (∃ ie wb done, (done = true → s.status.done = true) ∧ s.writeSlot v sl =
      { s with ctrl := { s.ctrl with ie := ie }, status := { s.status with done := done, wbusy := wb } }) := by
  have same : ∀ t : State, t = s → ∃ ie wb done, (done = true → s.status.done = true) ∧ t =
      { s with ctrl := { s.ctrl with ie := ie }, status := { s.status with done := done, wbusy := wb } } := by
    rintro _ rfl
    exact ⟨_, _, _, id, rfl⟩
  have drop : ∀ (store : State → State) (t : State), t = s.unlessBusy store →
      ∃ ie wb done, (done = true → s.status.done = true) ∧ t =
      { s with ctrl := { s.ctrl with ie := ie }, status := { s.status with done := done, wbusy := wb } } := by
    rintro store _ rfl
    exact ⟨s.ctrl.ie, true, s.status.done, id, State.unlessBusy_run h store⟩
  cases sl with
  | id => exact .inr (.inr (same _ rfl))
  | version => exact .inr (.inr (same _ rfl))
  | rflags => exact .inr (.inr (same _ rfl))
  | retryCnt => exact .inr (.inr (same _ rfl))
  | reserved => exact .inr (.inr (same _ rfl))
  | cmd => exact .inr (.inr (drop _ _ (by rw [State.writeSlot])))
  | pflags => exact .inr (.inr (drop _ _ (by rw [State.writeSlot])))
  | attemptMax => exact .inr (.inr (drop _ _ (by rw [State.writeSlot])))
  | sigLen => exact .inr (.inr (drop _ _ (by rw [State.writeSlot])))
  | digbuf w => exact .inr (.inr (drop _ _ (by rw [State.writeSlot])))
  | sigbuf w => exact .inr (.inr (drop _ _ (by rw [State.writeSlot])))
  | bn r j =>
    simp only [State.writeSlot]
    split
    · exact .inr (.inr (same _ rfl))
    · exact .inr (.inr (drop _ _ rfl))
  | status => exact .inr (.inr ⟨s.ctrl.ie, _, _, fun hd => (Bool.and_eq_true _ _ ▸ hd).1, rfl⟩)
  | ctrl =>
    show (Slot.ctrl = .ctrl ∧ _ ∧ s.writeCtrl v = _) ∨ _
    by_cases h9 : v.getLsbD 9 = true
    · exact .inl ⟨rfl, h9, State.writeCtrl_srst h9 s⟩
    · have hb := State.busy_run h
      simp only [State.writeSlot, State.writeCtrl, h9, hb, if_true]
      by_cases h8 : v.getLsbD 8 = true
      · simp only [h8, if_true]
        exact .inr (.inl ⟨_, _, State.abort_run h⟩)
      · simp only [h8]
        exact .inr (.inr ⟨_, _, _, id, rfl⟩)

end Sys2Proof.Machine
end

