-- ==== Sys2Proof/Tests/Slice0.lean ====
section
/-! SUPPORT. Tests of the model against values that stand in spec/ (95_test_vectors.md and the examples of the rules), and
for every statement with hypotheses a theorem that shows concrete states and operands meeting them. -/

open Sys2Proof Sys2Proof.Machine

namespace Sys2Proof.Tests

-- One theorem at a time: many kernel evaluations side by side ask for more threads than the memory limit allows.
set_option Elab.async false

/-! Helpers: small states. -/

/-- The state s with bignum registers loaded. -/
def load (s : State) (l : List (BN × Nat)) : State :=
  l.foldl (fun t x => t.setNat x.1 x.2) s

/-- The block right after a CMD write of command i while idle. -/
def started (i : Instr) (s : State) : State :=
  s.acceptCommand (encode i)

/-- The state an outcome goes on with; the reset state for a stop. -/
def after : Host.Outcome State Fault Refusal → State
  | .next t => t
  | .fault _ => State.reset
  | .refused _ => State.reset

/-- STATUS, RES0, RES1, RES2 and RFLAGS. -/
def shown (s : State) : Nat × Nat × Nat × Nat × Nat :=
  (s.statusWord.toNat, s.nat .res0, s.nat .res1, s.nat .res2, s.rflags.word.toNat)

/-- The same after the one engine step of a command just started. -/
def ran (i : Instr) (s : State) : Nat × Nat × Nat × Nat × Nat :=
  shown (after (exec i (started i s)))

/-- OPA, OPB and OPM loaded. -/
def ops (opa opb opm : Nat) : State :=
  load State.reset [(.opa, opa), (.opb, opb), (.opm, opm)]

/-- W = 2^512 − 1 of 95_test_vectors.md. -/
def W : Nat := 2 ^ 512 - 1

/-- The curve T1 of 95_test_vectors.md section 2.1. -/
def t1 : State :=
  load State.reset [(.p, 17), (.a, 2), (.q, 19), (.gx, 5), (.gy, 1)]

/-- T1 with two input points. -/
def t1Points (x1 y1 x2 y2 : Nat) : State :=
  load t1 [(.p1x, x1), (.p1y, y1), (.p2x, x2), (.p2y, y2)]

/-- The composite modulus of the vectors C19 and C27: P = 15 with the base point (1, 3), whose double does not exist. -/
def composite : State :=
  load t1 [(.p, 15), (.gx, 1), (.gy, 3), (.p1x, 1), (.p1y, 3), (.p2x, 4), (.p2y, 3)]

/-- A buffer that begins with BE_len(v) and is 0 after it. -/
def beBuf (len v : Nat) : Vector Byte 64 :=
  Vector.ofFn fun i => if i.val < len then beByte len v i.val else 0

/-- LE_64(v), which begins with LE_32(v) for v below 2^256. -/
def leBuf (v : Nat) : Vector Byte 64 :=
  Vector.ofFn fun i => BitVec.ofNat 8 (v / 256 ^ i.val)

/-- T1 with D = 7 and the digest value 5 (95_test_vectors.md section 3.8). -/
def signer : State :=
  { load t1 [(.d, 7)] with digbuf := beBuf 32 5 }

/-- T1 with the key 7G, the digest value e and the signature (r, s) (95_test_vectors.md section 3.9). -/
def verifier (e r s : Nat) : State :=
  { load t1 [(.pubx, 0), (.puby, 6)] with digbuf := beBuf 32 e, sigbuf := sigBytes 32 r s, sigLen := 64 }

/-- The curve T2 of 95_test_vectors.md section 2.2 with the key 3 and the digest value 5. -/
def t2Signer (compat : Bool) : State :=
  { load State.reset [(.p, 97), (.a, 1), (.q, 89), (.gx, 0), (.gy, 2), (.d, 3), (.pubx, 54), (.puby, 24)] with
    digbuf := beBuf 32 5, ctrl := { vfyCompat := compat } }

/-- A state with one answer waiting. -/
def answered (a : Answer) (s : State) : State :=
  { s with answers := [a] }

/-! WellFormed: an ill-formed word and ill-formed fields for each clause of 30_encoding.md R96. -/

theorem test_illegal_clause1_reserved_bits :
    wellFormedWord 0x00000400 = false ∧ wellFormedWord 0x80000012 = false ∧
    (⟨0x12, 0, 0x200000⟩ : CommandFields).illegal = true := by decide +kernel

theorem test_illegal_clause2_reserved_opcode :
    wellFormedWord 0x00000007 = false ∧ wellFormedWord 0x00000023 = false ∧
    (⟨0xFF, 0, 0⟩ : CommandFields).illegal = true := by decide +kernel

theorem test_illegal_clause3_reserved_msel :
    wellFormedWord 0x00000301 = false ∧ wellFormedWord 0x00000306 = false ∧
    (⟨0x04, 3, 0⟩ : CommandFields).illegal = true := by decide +kernel

theorem test_illegal_clause4_msel_not_zero :
    wellFormedWord 0x00000100 = false ∧ wellFormedWord 0x00000220 = false ∧
    (⟨0x12, 1, 0⟩ : CommandFields).illegal = true := by decide +kernel

theorem test_wellformed_words :
    wellFormedWord 0x00000000 = true ∧ wellFormedWord 0x00000206 = true ∧
    (⟨0x22, 0, 0⟩ : CommandFields).illegal = false := by decide +kernel

/-! Decode: a written-out word for every constructor (95_test_vectors.md section 3.1). -/

theorem test_decode_control_and_modular :
    decode 0x00000000 = .ok .nop ∧ decode 0x00000001 = .ok (.modred .opm) ∧ decode 0x00000101 = .ok (.modred .p) ∧
    decode 0x00000201 = .ok (.modred .q) ∧ decode 0x00000002 = .ok (.modadd .opm) ∧
    decode 0x00000003 = .ok (.modsub .opm) ∧ decode 0x00000204 = .ok (.modmul .q) ∧
    decode 0x00000105 = .ok (.modinv .p) ∧ decode 0x00000206 = .ok (.egcd .q) := by decide +kernel

theorem test_decode_curve_and_signature :
    decode 0x00000010 = .ok .padd ∧ decode 0x00000011 = .ok .pdbl ∧ decode 0x00000012 = .ok .pmul ∧
    decode 0x00000020 = .ok .keygen ∧ decode 0x00000021 = .ok .sign ∧ decode 0x00000022 = .ok .verify := by
  decide +kernel

/-- The assembler check of 95_test_vectors.md section 3.1. -/
theorem test_assemble :
    assemble "MODMUL.Q" = some 0x00000204 ∧ assemble "MODINV" = some 0x00000005 ∧
    assemble "MODINV.M" = some 0x00000005 ∧ assemble "EGCD.P" = some 0x00000106 ∧
    assemble "VERIFY" = some 0x00000022 := by decide +kernel

theorem test_table_words :
    decodeTableWord 32 0x00000204 = some (.modmul .q) ∧ decodeTableWord 32 0x00000304 = none ∧
    decodeTableWord 32 0x00000021 = some .sign := by decide +kernel

/-! One step of each command. -/

theorem test_nop_ends : ran .nop State.reset = (2, 0, 0, 0, 0) := by decide +kernel

/-- Vectors M6 and M8. -/
theorem test_modred_wide : ran (.modred .opm) (ops W 0 (2 ^ 256)) = (2, 2 ^ 256 - 1, 0, 0, 0) := by decide +kernel

theorem test_modred_zero_modulus : ran (.modred .opm) (ops 5 0 0) = (0x202, 0, 0, 0, 0) := by decide +kernel

/-- Vectors M11 and M12: the sum is not cut to 512 bits. -/
theorem test_modadd_wide : ran (.modadd .opm) (ops W W (W - 1)) = (2, 2, 0, 0, 0) := by decide +kernel

theorem test_modadd_carry : ran (.modadd .opm) (ops W 1 (2 ^ 511)) = (2, 0, 0, 0, 0) := by decide +kernel

/-- Vectors M16 and M18: a negative difference. -/
theorem test_modsub_minus_one : ran (.modsub .opm) (ops 0 1 W) = (2, W - 1, 0, 0, 0) := by decide +kernel

theorem test_modsub_wide : ran (.modsub .opm) (ops 0 W 7) = (2, 4, 0, 0, 0) := by decide +kernel

/-- Vectors M21 and M25. -/
theorem test_modmul_wide : ran (.modmul .opm) (ops W W (W - 1)) = (2, 1, 0, 0, 0) := by decide +kernel

theorem test_modmul_full_product :
    ran (.modmul .opm) (ops (2 ^ 256) (2 ^ 256) (2 ^ 511 + 1)) = (2, 2 ^ 511 - 1, 0, 0, 0) := by decide +kernel

/-- Vectors MI10 and MI7. -/
theorem test_modinv_wide : ran (.modinv .opm) (ops 2 0 W) = (2, 2 ^ 511, 0, 0, 0) := by decide +kernel

theorem test_modinv_not_invertible : ran (.modinv .opm) (ops 6 0 9) = (0x302, 0, 0, 0, 0) := by decide +kernel

/-- Vectors E6 and E14. -/
theorem test_egcd_signs : ran (.egcd .opm) (ops 240 0 46) = (2, 2, 9, 47, 2) := by decide +kernel

theorem test_egcd_wide : ran (.egcd .opm) (ops W 0 (2 ^ 256)) = (2, 1, 1, 2 ^ 256, 2) := by decide +kernel

/-- Vectors C1 and C3. -/
theorem test_padd_chord : ran .padd (t1Points 5 1 6 3) = (2, 10, 6, 0, 0) := by decide +kernel

theorem test_padd_opposite : ran .padd (t1Points 5 1 5 16) = (2, 0, 0, 0, 1) := by decide +kernel

/-- Vectors C22 and C24. -/
theorem test_pdbl_tangent : ran .pdbl (t1Points 7 6 0 0) = (2, 5, 16, 0, 0) := by decide +kernel

theorem test_pdbl_two_torsion : ran .pdbl (t1Points 3 0 0 0) = (2, 0, 0, 0, 1) := by decide +kernel

/-- Vectors C36 and C34. -/
theorem test_pmul_full_scalar : ran .pmul (load (t1Points 5 1 0 0) [(.k, W)]) = (2, 13, 7, 0, 0) := by
  decide +kernel

theorem test_pmul_order : ran .pmul (load (t1Points 5 1 0 0) [(.k, 19)]) = (2, 0, 0, 0, 1) := by decide +kernel

/-- Vectors K4 (the byte order of the draw) and K10 (the cap). -/
theorem test_keygen_byte_order : ran .keygen (answered (.bytes (beBuf 32 7)) t1) = (2, 4, 3, 1, 0) := by
  decide +kernel

theorem test_keygen_cap :
    ran .keygen (answered (.bytes (leBuf 19)) { t1 with attemptMax := 1 }) = (0x802, 0, 0, 0, 0) := by decide +kernel

/-- Vector S1, with the buffer of its outcome. -/
theorem test_sign_values : ran .sign (answered (.bytes (beBuf 64 10)) signer) = (2, 7, 4, 0, 0) := by decide +kernel

theorem test_sign_buffer :
    (after (exec .sign (answered (.bytes (beBuf 64 10)) signer))).sigbuf = sigBytes 32 7 4 ∧
    (sigBytes 32 7 4)[31] = 7 ∧ (sigBytes 32 7 4)[63] = 4 ∧ (sigBytes 32 7 4)[0] = 0 ∧ (sigBytes 32 7 4)[64] = 0 := by
  decide +kernel

/-- Vectors V1 and V20 (the point C is O). -/
theorem test_verify_accepts : ran .verify (verifier 5 7 4) = (2, 0, 0, 0, 8) := by decide +kernel

theorem test_verify_infinity : ran .verify (verifier 5 1 7) = (2, 0, 0, 0, 0) := by decide +kernel

/-- 95_test_vectors.md section 3.10, X5: the next step after withFetchWord runs the word. -/
theorem test_fetch_word_runs :
    (after (step (State.reset.withFetchWord 32 0x00000006))).statusWord = 2 ∧
    (after (step (State.reset.withFetchWord 32 0x00000006))).turns = [] ∧
    shown (after (step (State.reset.withFetchWord 32 0x00000006))) = (2, 0, 1, 0, 0) := by decide +kernel

/-! Witnesses: for each statement with hypotheses, concrete states and operands that meet them. The name after `witness_`
is the statement's. -/

/-- A state with the turns given. -/
def turned (l : List Turn) (s : State) : State :=
  { s with turns := l }

/-- A busy block: MODMUL of T1 just started. -/
def busyBlock : State :=
  started (.modmul .p) (load t1 [(.opa, 3), (.opb, 5)])

theorem exec_after (i : Instr) (s : State) : exec i s = .next (after (exec i s)) := by
  cases i <;> rfl

theorem step_after (s : State) (i : Instr) (hp : s.phase = .run) (hd : decode s.cmd = .ok i) (ht : s.turns = []) :
    step s = .next (after (step s)) := by
  simp only [step, nextStep, engineTurn, ht, hp, hd]
  exact exec_after i s

theorem witness_CmdWriteStartsOrEndsTheCommand :
    State.reset.phase = .idle ∧ illegalWord 0x00000021 = false ∧ illegalWord 0x00000004 = false ∧
    (turned [.bus (wr 0x010 0x00000306)] t1).phase = .idle ∧
    (turned [.bus (wr 0x010 0x00000306)] t1).turns = .bus (wr 0x010 0x00000306) :: [] ∧
    illegalWord 0x00000306 = true := by decide +kernel

theorem witness_ResetPutsEveryPieceAtItsValue :
    (turned [.resetInput] busyBlock).turns = .resetInput :: [] ∧
    (0x00000200 : Word32).getLsbD 9 = true ∧ (0xFFFFFFFF : Word32).getLsbD 9 = true := by decide +kernel

theorem witness_EveryStepKeepsTheInvariant :
    busyBlock.good = true ∧ step busyBlock = .next (after (step busyBlock)) :=
  ⟨by decide +kernel, step_after _ (.modmul .p) (by decide +kernel) (by decide +kernel) (by decide +kernel)⟩

theorem witness_GoodStatesNeverStop :
    busyBlock.good = true ∧ (answered .fail (started .sign signer)).good = true := by decide +kernel

theorem witness_BusyBlockShowsNoOutcome :
    Sys2Proof.core.run 1 { State.reset with turns := [.bus (cmdTxn .pmul)], answers := [] } =
      .next (turned [] (State.reset.busStep (cmdTxn .pmul))) ∧
    (turned [] (State.reset.busStep (cmdTxn .pmul))).busy = true :=
  ⟨rfl, by decide +kernel⟩

/-- A capped KEYGEN on T1 whose first two answers are degenerate. -/
def cappedKeygen : State :=
  { started .keygen { t1 with attemptMax := 2 } with answers := [.bytes (leBuf 0), .bytes (leBuf 38)] }

theorem witness_CappedCommandEndsWithinItsAttempts :
    cappedKeygen.good = true ∧ cappedKeygen.phase = .run ∧ decode cappedKeygen.cmd = .ok .keygen ∧
    drawsEntropy .keygen = true ∧ cappedKeygen.attemptMax ≠ 0 ∧ cappedKeygen.turns = [] ∧
    cappedKeygen.attemptMax.toNat ≤ cappedKeygen.answers.length := by decide +kernel

theorem witness_StepRunsTheDecodedCommand :
    busyBlock.phase = .run ∧ decode busyBlock.cmd = .ok (.modmul .p) ∧ busyBlock.turns = [] ∧
    (turned [.engine] busyBlock).phase = .run ∧ decode (turned [.engine] busyBlock).cmd = .ok (.modmul .p) ∧
    (turned [.engine] busyBlock).turns = .engine :: [] := by decide +kernel

theorem witness_StepTakesTheNextTurn :
    (turned [.bus (rd 0x00C)] t1).turns = .bus (rd 0x00C) :: [] ∧
    (turned [.entropy .fail] t1).turns = .entropy .fail :: [] ∧
    (turned [.engine] t1).phase = .idle ∧ (turned [.engine] t1).turns = .engine :: [] ∧
    t1.phase = .idle ∧ t1.turns = [] ∧
    (turned [.resetInput] busyBlock).turns = .resetInput :: [] := by decide +kernel

theorem witness_OneStepCommandsEnd :
    Instr.padd ≠ .keygen ∧ Instr.padd ≠ .sign := by decide +kernel

theorem witness_CommandsWriteOnlyTheirResults :
    exec (.modmul .p) busyBlock = .next (after (exec (.modmul .p) busyBlock)) ∧ BN.res1 ∉ writesBn (.modmul .p) ∧
    Instr.modmul .p ≠ .sign ∧ Instr.modmul .p ≠ .keygen ∧ exec .nop t1 = .next (after (exec .nop t1)) :=
  ⟨exec_after _ _, by decide +kernel, by decide +kernel, by decide +kernel, exec_after _ _⟩

theorem witness_CommandsReadOnlyTheirOperands :
    BN.opm ∉ busyBlock.readsBn (.modmul .p) ∧ BN.p1x ∉ ({ t1 with pflags := { p1inf := true } } : State).readsBn .pdbl ∧
    exec (.modmul .p) busyBlock = .next (after (exec (.modmul .p) busyBlock)) :=
  ⟨by decide +kernel, by decide +kernel, exec_after _ _⟩

theorem witness_BufferTailsAreNotRead :
    (signer.digbuf.set 32 0xFF).toList.take signer.n = signer.digbuf.toList.take signer.n ∧
    exec .sign signer = .next (after (exec .sign signer)) ∧
    ((verifier 5 7 4).sigbuf.set 64 0xFF).toList.take (2 * (verifier 5 7 4).n) =
      (verifier 5 7 4).sigbuf.toList.take (2 * (verifier 5 7 4).n) ∧
    exec .verify (verifier 5 7 4) = .next (after (exec .verify (verifier 5 7 4))) :=
  ⟨by decide +kernel, exec_after _ _, by decide +kernel, exec_after _ _⟩

theorem witness_FailedCommandCommitsNothing :
    State.reset.status.err = none ∧ exec (.modred .q) State.reset = .next (after (exec (.modred .q) State.reset)) ∧
    (after (exec (.modred .q) State.reset)).status.err = some .badModulus ∧ decode 0x00000012 = .ok .pmul :=
  ⟨rfl, exec_after _ _, by decide +kernel, by decide +kernel⟩

/-- The two ends that take an answer, vectors K6 and K10: FAIL, which counts no retry, and a degenerate attempt at the cap. -/
theorem witness_FailedCommandCommitsNothing_drawn :
    (answered .fail t1).status.err = none ∧ (after (exec .keygen (answered .fail t1))).status.err = some .entropy ∧
    (answered (.bytes (leBuf 19)) { t1 with attemptMax := 1 }).status.err = none ∧
    (after (exec .keygen (answered (.bytes (leBuf 19)) { t1 with attemptMax := 1 }))).status.err =
      some .retryLimit := by decide +kernel

theorem witness_ResultsAppearOnlyAtCommit :
    step busyBlock = .next (after (step busyBlock)) ∧ (after (step busyBlock)).bn .res0 ≠ busyBlock.bn .res0 :=
  ⟨step_after _ (.modmul .p) (by decide +kernel) (by decide +kernel) (by decide +kernel), by decide +kernel⟩

theorem witness_OperandsHoldWhileBusy :
    cappedKeygen.phase = .run ∧ cappedKeygen.resetNext = false ∧
    step cappedKeygen = .next (after (step cappedKeygen)) ∧ (after (step cappedKeygen)).phase = .run ∧
    BN.opa.readOnly = false :=
  ⟨by decide +kernel, by decide +kernel,
    step_after _ .keygen (by decide +kernel) (by decide +kernel) (by decide +kernel), by decide +kernel, rfl⟩

/-- A started command, and the state after its one engine step. -/
def ended (i : Instr) (s : State) : State :=
  after (exec i (started i s))

theorem witness_SuccessWritesEveryResultFlag :
    (started .padd (t1Points 5 1 5 16)).phase = .run ∧
    exec .padd (started .padd (t1Points 5 1 5 16)) = .next (ended .padd (t1Points 5 1 5 16)) ∧
    (ended .padd (t1Points 5 1 5 16)).phase = .idle ∧ (ended .padd (t1Points 5 1 5 16)).status.err = none ∧
    (ended .padd (t1Points 5 1 5 16)).rflags.rinf = true ∧
    (ended (.egcd .opm) (ops 3 0 7)).rflags.res1Neg = true ∧
    (ended (.egcd .opm) (ops 7 0 3)).rflags.res2Neg = true ∧
    (ended .verify (verifier 5 7 4)).rflags.verifyOk = true :=
  ⟨by decide +kernel, exec_after _ _, by decide +kernel⟩

theorem witness_InterruptFollowsCompletion :
    busyBlock.phase = .run ∧ exec (.modmul .p) busyBlock = .next (after (exec (.modmul .p) busyBlock)) ∧
    (after (exec (.modmul .p) busyBlock)).phase = .idle ∧ t1.phase = .idle ∧ decode 0x00000000 = .ok .nop ∧
    (0x00000102 : Word32).getLsbD 8 = true ∧ (0x00000102 : Word32).getLsbD 9 = false :=
  ⟨by decide +kernel, exec_after _ _, by decide +kernel⟩

theorem witness_NopOnlyEnds :
    (0x00000100 : Word32).toNat % 256 = 0 ∧ (0x00000100 : Word32) ≠ 0 ∧
    (0xFFFFFF00 : Word32).toNat % 256 = 0 ∧ (0xFFFFFF00 : Word32) ≠ 0 := by decide +kernel

/-- A word of opcode `o` that is no command, at the first MSEL value that is reserved and with a reserved bit. -/
def noCommandOf (o : Nat) (w : Word32) : Prop :=
  w.toNat % 256 = o ∧ ∀ m : MSel, w ≠ (m.bits <<< 8) ||| BitVec.ofNat 32 o

theorem noCommandOf_intro (o : Nat) (w : Word32)
    (h : w.toNat % 256 = o ∧ w ≠ BitVec.ofNat 32 o ∧ w ≠ 0x100 ||| BitVec.ofNat 32 o ∧ w ≠ 0x200 ||| BitVec.ofNat 32 o) :
    noCommandOf o w := by
  refine ⟨h.1, fun m => ?_⟩
  cases m
  · simpa [MSel.bits] using h.2.1
  · exact h.2.2.1
  · exact h.2.2.2

theorem witness_ModredGivesTheResidue :
    noCommandOf 1 0x00000301 ∧ noCommandOf 1 0x00000401 ∧ (ops 5 0 0).modulus .opm = 0 ∧ (ops 5 0 1).modulus .opm ≠ 0 :=
  ⟨noCommandOf_intro _ _ (by decide), noCommandOf_intro _ _ (by decide), by decide +kernel, by decide +kernel⟩

theorem witness_ModaddGivesTheSum :
    noCommandOf 2 0x00000302 ∧ noCommandOf 2 0x00000402 ∧ (ops 5 4 0).modulus .q = 0 ∧ (ops 5 4 7).modulus .opm ≠ 0 :=
  ⟨noCommandOf_intro _ _ (by decide), noCommandOf_intro _ _ (by decide), by decide +kernel, by decide +kernel⟩

theorem witness_ModsubGivesTheDifference :
    noCommandOf 3 0x00000303 ∧ noCommandOf 3 0x80000003 ∧ (ops 5 4 7).modulus .p = 0 ∧ (ops 0 1 W).modulus .opm ≠ 0 :=
  ⟨noCommandOf_intro _ _ (by decide), noCommandOf_intro _ _ (by decide), by decide +kernel, by decide +kernel⟩

theorem witness_ModmulGivesTheProduct :
    noCommandOf 4 0x00000304 ∧ noCommandOf 4 0x00010004 ∧ (ops 1 1 0).modulus .opm = 0 ∧ t1.modulus .q ≠ 0 :=
  ⟨noCommandOf_intro _ _ (by decide), noCommandOf_intro _ _ (by decide), by decide +kernel, by decide +kernel⟩

/-- Moduli 0 and 1 are bad; 2 is the first that is not. -/
theorem witness_ModinvGivesTheInverse :
    noCommandOf 5 0x00000305 ∧ (ops 5 0 0).modulus .opm < 2 ∧ (ops 5 0 1).modulus .opm < 2 ∧
    2 ≤ (ops 0 0 2).modulus .opm ∧ Nat.gcd ((ops 0 0 2).nat .opa % (ops 0 0 2).modulus .opm) ((ops 0 0 2).modulus .opm) ≠ 1 ∧
    2 ≤ (ops 1 0 2).modulus .opm ∧
    Nat.gcd ((ops 1 0 2).nat .opa % (ops 1 0 2).modulus .opm) ((ops 1 0 2).modulus .opm) = 1 :=
  ⟨noCommandOf_intro _ _ (by decide), by decide +kernel⟩

theorem witness_EgcdCommandGivesTheTriple : noCommandOf 6 0x00000306 :=
  noCommandOf_intro _ _ (by decide)

theorem witness_EgcdFollowsItsLoop : (0 : Nat) ≤ 0 ∧ (1 : Nat) ≤ 1 ∧ (46 : Nat) ≤ 46 ∧
    egcdLoop 46 240 46 1 0 0 1 = (2, -9, 47) := by decide +kernel

theorem witness_EgcdMeetsItsContract : W < 2 ^ 512 ∧ 0 < 2 ^ 512 ∧ egcd W (W - 1) = (1, 1, -1) := by decide +kernel

theorem witness_InverseIsExact :
    inv 1 2 = .ok 1 ∧ 1 < 2 ∧ 1 * 1 % 2 = 1 ∧ inv 0 2 = .error .notInvertible ∧ Nat.gcd (0 % 2) 2 ≠ 1 ∧
    inv 3 7 = .ok 5 ∧ Nat.gcd (3 % 7) 7 = 1 := by decide +kernel

/-- 95_test_vectors.md section 5.3 and vector C10: on the curve, off it, and with an error. -/
theorem witness_AddIsSymmetric :
    (Point.aff 5 1).inRange 17 = true ∧ (Point.aff 5 2).inRange 17 = true ∧ (Point.infinity).inRange 17 = true ∧
    pointAdd 17 2 (.aff 5 1) (.aff 5 2) = .error .notInvertible := by decide +kernel

theorem witness_DoublingCases :
    inv (2 * 1 % 17) 17 = .ok 9 ∧ pointDbl 17 2 (.aff 5 1) = .ok (.aff 6 3) ∧
    inv (2 * 3 % 15) 15 = .error .notInvertible := by decide +kernel

theorem proper_t1 : ProperCurve 17 2 2 :=
  ⟨by decide, by decide⟩

theorem proper_t2 : ProperCurve 97 1 4 :=
  ⟨by decide, by decide⟩

/-- The base point of T1 in the library's terms. -/
def libraryG : (fieldCurve 17 2 2).Point :=
  .some 5 1 (by
    rw [WeierstrassCurve.Affine.nonsingular_iff, WeierstrassCurve.Affine.equation_iff]
    unfold fieldCurve
    decide)

theorem witness_AddIsTheGroupLaw :
    Fact (Nat.Prime 17) ∧ ProperCurve 17 2 2 ∧ StandsFor (.aff 5 1) libraryG ∧
    StandsFor (P := 17) (A := 2) (B := 2) .infinity .zero :=
  ⟨⟨by norm_num⟩, proper_t1, ⟨by decide, by decide, rfl, rfl⟩, trivial⟩

theorem witness_ExpIsScalarMultiplication :
    Fact (Nat.Prime 17) ∧ ProperCurve 17 2 2 ∧ StandsFor (.aff 5 1) libraryG :=
  ⟨⟨by norm_num⟩, proper_t1, by decide, by decide, rfl, rfl⟩

theorem witness_MultiplesLieOnTheCurve :
    Nat.Prime 17 ∧ ProperCurve 17 2 2 ∧ OnCurve 17 2 2 (.aff 5 1) :=
  ⟨by norm_num, proper_t1, by decide, by decide, by decide⟩

/-- The checks at their boundaries: P = 2 and P = 3, a coordinate equal to P. -/
theorem witness_PaddGivesTheSum :
    (0x00000110 : Word32).toNat % 256 = 0x10 ∧ (0x00000110 : Word32) ≠ 0x10 ∧
    (load t1 [(.p, 2)]).cfgCurve = false ∧ (load t1 [(.p, 3)]).cfgCurve = true ∧
    (t1Points 5 1 5 17).cfgCurve = true ∧
    ((t1Points 5 1 5 17).pt1.inRange ((t1Points 5 1 5 17).nat .p) &&
      (t1Points 5 1 5 17).pt2.inRange ((t1Points 5 1 5 17).nat .p)) = false ∧
    (t1Points 5 1 5 16).cfgCurve = true ∧
    (t1Points 5 1 5 16).pt1.inRange ((t1Points 5 1 5 16).nat .p) = true ∧
    (t1Points 5 1 5 16).pt2.inRange ((t1Points 5 1 5 16).nat .p) = true ∧
    pointAdd 17 2 (t1Points 5 1 5 16).pt1 (t1Points 5 1 5 16).pt2 = .ok .infinity ∧
    pointAdd 17 2 (t1Points 5 1 6 3).pt1 (t1Points 5 1 6 3).pt2 = .ok (.aff 10 6) ∧
    pointAdd 17 2 (t1Points 5 1 5 2).pt1 (t1Points 5 1 5 2).pt2 = .error .notInvertible := by decide +kernel

theorem witness_PdblGivesTheDouble :
    (0x00000211 : Word32).toNat % 256 = 0x11 ∧ (0x00000211 : Word32) ≠ 0x11 ∧
    (load t1 [(.a, 17)]).cfgCurve = false ∧ (t1Points 5 17 0 0).cfgCurve = true ∧
    (t1Points 5 17 0 0).pt1.inRange ((t1Points 5 17 0 0).nat .p) = false ∧
    (t1Points 5 1 0 0).cfgCurve = true ∧ (t1Points 5 1 0 0).pt1.inRange ((t1Points 5 1 0 0).nat .p) = true ∧
    ((t1Points 5 1 0 0).nat .p).Prime ∧ (t1Points 5 1 0 0).nat .p % 2 = 1 ∧
    (t1Points 5 1 5 1).pt2 = (t1Points 5 1 5 1).pt1 := by
  have h : (t1Points 5 1 0 0).nat .p = 17 := by decide +kernel
  rw [h]
  refine ⟨?_, ?_, ?_, ?_, ?_, ?_, ?_, ?_, ?_, ?_⟩
  case refine_8 => norm_num
  all_goals decide +kernel

theorem witness_PmulGivesTheMultiple :
    (0x00000112 : Word32).toNat % 256 = 0x12 ∧ (0x00000112 : Word32) ≠ 0x12 ∧
    (load t1 [(.p, 0)]).cfgCurve = false ∧ (t1Points 17 1 0 0).cfgCurve = true ∧
    (t1Points 17 1 0 0).pt1.inRange ((t1Points 17 1 0 0).nat .p) = false ∧
    (t1Points 16 13 0 0).cfgCurve = true ∧ (t1Points 16 13 0 0).pt1.inRange ((t1Points 16 13 0 0).nat .p) = true := by
  decide +kernel

/-- Each check at its boundary: Q = 1, D = 0 and D = Q, SIG_LEN one short, a public coordinate equal to P. -/
theorem witness_SignatureChecksComeFirst :
    (load t1 [(.q, 1)]).cfgSig = false ∧ t1.cfgSig = true ∧ t1.nat .d = 0 ∧
    (load t1 [(.d, 19)]).cfgSig = true ∧ (load t1 [(.d, 19)]).nat .q ≤ (load t1 [(.d, 19)]).nat .d ∧
    ({ verifier 5 7 4 with sigLen := 63 } : State).cfgSig = true ∧
    ({ verifier 5 7 4 with sigLen := 63 } : State).sigLen.toNat ≠ 2 * (verifier 5 7 4).n ∧
    (load (verifier 5 7 4) [(.pubx, 17)]).cfgSig = true ∧
    (load (verifier 5 7 4) [(.pubx, 17)]).sigLen.toNat = 2 * (load (verifier 5 7 4) [(.pubx, 17)]).n ∧
    (load (verifier 5 7 4) [(.pubx, 17)]).nat .p ≤ (load (verifier 5 7 4) [(.pubx, 17)]).nat .pubx := by decide +kernel

/-- T1 with a number Q that is not the order of G (vectors K14, S18 and V19). -/
def q38 : State :=
  load signer [(.q, 38)]

theorem witness_KeygenGivesAKeyPair :
    t1.cfgSig = true ∧ q38.cfgSig = true ∧ composite.cfgSig = true ∧
    (answered (.bytes (leBuf 19)) t1).answers = .bytes (leBuf 19) :: [] ∧
    intLE ((leBuf 19).toList.take t1.n) % t1.nat .q = 0 ∧
    intLE ((leBuf 19).toList.take q38.n) % q38.nat .q = 19 ∧ q38.curveExp 19 q38.basePoint = .ok .infinity ∧
    intLE ((leBuf 2).toList.take composite.n) % composite.nat .q = 2 ∧
    composite.curveExp 2 composite.basePoint = .error .notInvertible ∧
    intLE ((leBuf 7).toList.take t1.n) % t1.nat .q = 7 ∧
    pointExp (t1.nat .p) (t1.nat .a) 7 (.aff (t1.nat .gx) (t1.nat .gy)) = .ok (.aff 0 6) := by decide +kernel

theorem witness_SignGivesASignature :
    signer.cfgSig = true ∧ 0 < signer.nat .d ∧ signer.nat .d < signer.nat .q ∧
    (answered (.bytes (beBuf 64 10)) signer).answers = .bytes (beBuf 64 10) :: [] ∧
    intBE (beBuf 64 10).toList % signer.nat .q = 10 ∧
    pointExp (signer.nat .p) (signer.nat .a) 10 (.aff (signer.nat .gx) (signer.nat .gy)) = .ok (.aff 7 11) ∧
    7 % signer.nat .q = 7 ∧ (7 * signer.nat .d + 10 * signer.digestE) % signer.nat .q = 4 := by decide +kernel

theorem witness_SignAttemptsThatGiveNoSignature :
    signer.cfgSig = true ∧ 0 < signer.nat .d ∧ signer.nat .d < signer.nat .q ∧
    intBE (beBuf 64 19).toList % signer.nat .q = 0 ∧
    q38.cfgSig = true ∧ 0 < q38.nat .d ∧ q38.nat .d < q38.nat .q ∧
    intBE (beBuf 64 19).toList % q38.nat .q = 19 ∧ q38.curveExp 19 q38.basePoint = .ok .infinity ∧
    (load composite [(.d, 7)]).cfgSig = true ∧
    intBE (beBuf 64 2).toList % composite.nat .q = 2 ∧
    composite.curveExp 2 composite.basePoint = .error .notInvertible ∧
    signer.curveExp 7 signer.basePoint = .ok (.aff 0 6) ∧ 0 % signer.nat .q = 0 ∧
    signer.curveExp 14 signer.basePoint = .ok (.aff 9 1) ∧
    (9 % signer.nat .q * signer.nat .d + 14 * signer.digestE) % signer.nat .q = 0 := by decide +kernel

/-- The count just below and at the cap, without a cap, and saturated. -/
theorem witness_RetryCountsAndCaps :
    ({ t1 with retryCnt := 1, attemptMax := 2 } : State).countedRetry = 2 ∧
    ({ t1 with retryCnt := 0, attemptMax := 2 } : State).countedRetry = 1 ∧
    ({ t1 with retryCnt := 0xFFFFFFFF } : State).countedRetry = 0xFFFFFFFF := by decide +kernel

theorem witness_EntropyFailureEndsTheCommand :
    signer.cfgSig = true ∧ (answered .fail signer).answers = .fail :: [] ∧
    0 < signer.nat .d ∧ signer.nat .d < signer.nat .q := by decide +kernel

/-- The smallest and the largest key. -/
theorem witness_RequestWaitsForAnAnswer :
    signer.cfgSig = true ∧ signer.answers = [] ∧
    0 < (load t1 [(.d, 1)]).nat .d ∧ (load t1 [(.d, 1)]).nat .d < t1.nat .q ∧
    (load t1 [(.d, 18)]).nat .d < t1.nat .q := by decide +kernel

/-- The hypotheses that the two VERIFY statements share. -/
def checksPass (s : State) : Prop :=
  s.cfgSig = true ∧ s.sigLen.toNat = 2 * s.n ∧ s.nat .pubx < s.nat .p ∧ s.nat .puby < s.nat .p

/-- Vectors V7 to V10. -/
theorem witness_VerifyRejectsOutOfRangeSignatures :
    checksPass (verifier 5 0 4) ∧ (verifier 5 0 4).sigR = 0 ∧ (verifier 5 7 0).sigS = 0 ∧
    (verifier 5 19 4).nat .q ≤ (verifier 5 19 4).sigR ∧ (verifier 5 7 19).nat .q ≤ (verifier 5 7 19).sigS := by
  unfold checksPass
  decide +kernel

/-- The composite modulus with the digest value 1, a signature and a public key. -/
def compositeSignature (r sg x y : Nat) : State :=
  load { verifier 1 r sg with bns := composite.bns } [(.pubx, x), (.puby, y)]

/-- A signature whose two multiples are the points of vector C19. -/
def compositeVerifier : State :=
  compositeSignature 18 1 4 3

/-- z1 = 2, and the double of the base point (1, 3) does not exist (vector C27). -/
theorem witness_VerifyDecidesByTheEquation_firstMultipleFails :
    checksPass (compositeSignature 18 2 4 3) ∧ (compositeSignature 18 2 4 3).sigR = 18 ∧
    (compositeSignature 18 2 4 3).sigS = 2 ∧ (compositeSignature 18 2 4 3).nat .q = 19 ∧
    inv (compositeSignature 18 2 4 3).digestE 19 = .ok 1 ∧ (1 + 18 * 1) % 19 = 0 ∧
    (compositeSignature 18 2 4 3).curveExp (2 * 1 % 19)
      (.aff ((compositeSignature 18 2 4 3).nat .gx) ((compositeSignature 18 2 4 3).nat .gy)) =
        .error .notInvertible := by
  unfold checksPass
  decide +kernel

/-- z1 = 1 and z2 = 2, and the double of the public key (1, 3) does not exist. -/
theorem witness_VerifyDecidesByTheEquation_secondMultipleFails :
    checksPass (compositeSignature 17 1 1 3) ∧ (compositeSignature 17 1 1 3).sigR = 17 ∧
    (compositeSignature 17 1 1 3).sigS = 1 ∧ (compositeSignature 17 1 1 3).nat .q = 19 ∧
    inv (compositeSignature 17 1 1 3).digestE 19 = .ok 1 ∧ (2 + 17 * 1) % 19 = 0 ∧
    (compositeSignature 17 1 1 3).curveExp (1 * 1 % 19)
      (.aff ((compositeSignature 17 1 1 3).nat .gx) ((compositeSignature 17 1 1 3).nat .gy)) = .ok (.aff 1 3) ∧
    (compositeSignature 17 1 1 3).curveExp 2
      (.aff ((compositeSignature 17 1 1 3).nat .pubx) ((compositeSignature 17 1 1 3).nat .puby)) =
        .error .notInvertible := by
  unfold checksPass
  decide +kernel

theorem witness_VerifyDecidesByTheEquation_notInvertible :
    checksPass (load (verifier 2 7 4) [(.q, 38)]) ∧ 0 < (verifier 2 7 4).sigR ∧ (verifier 2 7 4).sigR < 38 ∧
    0 < (verifier 2 7 4).sigS ∧ (verifier 2 7 4).sigS < 38 ∧
    inv (load (verifier 2 7 4) [(.q, 38)]).digestE ((load (verifier 2 7 4) [(.q, 38)]).nat .q) =
      .error .notInvertible := by
  unfold checksPass
  decide +kernel

theorem witness_VerifyDecidesByTheEquation_addFails :
    checksPass compositeVerifier ∧ compositeVerifier.sigR = 18 ∧ compositeVerifier.sigS = 1 ∧
    inv compositeVerifier.digestE (compositeVerifier.nat .q) = .ok 1 ∧ 1 < compositeVerifier.nat .q ∧
    (1 + 18 * 1) % compositeVerifier.nat .q = 0 ∧
    compositeVerifier.curveExp (1 * 1 % compositeVerifier.nat .q)
      (.aff (compositeVerifier.nat .gx) (compositeVerifier.nat .gy)) = .ok (.aff 1 3) ∧
    compositeVerifier.curveExp 1 (.aff (compositeVerifier.nat .pubx) (compositeVerifier.nat .puby)) =
      .ok (.aff 4 3) ∧
    pointAdd (compositeVerifier.nat .p) (compositeVerifier.nat .a) (.aff 1 3) (.aff 4 3) =
      .error .notInvertible := by
  unfold checksPass
  decide +kernel

/-- Vector V20: v = 4, z1 = 9, z2 = 15 and C = O. -/
theorem witness_VerifyDecidesByTheEquation_infinity :
    checksPass (verifier 5 1 7) ∧ (verifier 5 1 7).sigR = 1 ∧ (verifier 5 1 7).sigS = 7 ∧
    inv (verifier 5 1 7).digestE ((verifier 5 1 7).nat .q) = .ok 4 ∧ (15 + 1 * 4) % (verifier 5 1 7).nat .q = 0 ∧
    (verifier 5 1 7).curveExp (7 * 4 % (verifier 5 1 7).nat .q)
      (.aff ((verifier 5 1 7).nat .gx) ((verifier 5 1 7).nat .gy)) = .ok (.aff 7 6) ∧
    (verifier 5 1 7).curveExp 15 (.aff ((verifier 5 1 7).nat .pubx) ((verifier 5 1 7).nat .puby)) = .ok (.aff 7 11) ∧
    pointAdd ((verifier 5 1 7).nat .p) ((verifier 5 1 7).nat .a) (.aff 7 6) (.aff 7 11) = .ok .infinity := by
  unfold checksPass
  decide +kernel

/-- Vector V1: v = 4, z1 = 16, z2 = 10 and C = 10G, with both values of VFY_COMPAT. -/
theorem witness_VerifyDecidesByTheEquation_affine :
    checksPass (verifier 5 7 4) ∧ (verifier 5 7 4).sigR = 7 ∧ (verifier 5 7 4).sigS = 4 ∧
    inv (verifier 5 7 4).digestE ((verifier 5 7 4).nat .q) = .ok 4 ∧ (10 + 7 * 4) % (verifier 5 7 4).nat .q = 0 ∧
    (verifier 5 7 4).curveExp (4 * 4 % (verifier 5 7 4).nat .q)
      (.aff ((verifier 5 7 4).nat .gx) ((verifier 5 7 4).nat .gy)) = .ok (.aff 10 11) ∧
    (verifier 5 7 4).curveExp 10 (.aff ((verifier 5 7 4).nat .pubx) ((verifier 5 7 4).nat .puby)) = .ok (.aff 16 4) ∧
    pointAdd ((verifier 5 7 4).nat .p) ((verifier 5 7 4).nat .a) (.aff 10 11) (.aff 16 4) = .ok (.aff 7 11) ∧
    (verifier 5 7 4).ctrl.vfyCompat = false ∧
    ({ verifier 5 7 4 with ctrl := { vfyCompat := true } } : State).ctrl.vfyCompat = true := by
  unfold checksPass
  decide +kernel

theorem witness_DigestValueIsInRange :
    signer.cfgSig = true ∧ signer.ctrl.digLE = false ∧ intBE (signer.digbuf.toList.take signer.n) = 5 ∧
    5 % signer.nat .q ≠ 0 ∧
    ({ signer with digbuf := leBuf 19, ctrl := { digLE := true } } : State).cfgSig = true ∧
    ({ signer with digbuf := leBuf 19, ctrl := { digLE := true } } : State).ctrl.digLE = true ∧
    intBE ((leBuf 19).toList.take signer.n).reverse = 19 ∧ 19 % signer.nat .q = 0 := by decide +kernel

/-- SIGN on T2 with the nonce 2, just started (vectors V24 and V25: the abscissa 91 is not below Q = 89). -/
def t2Signing (compat : Bool) : State :=
  answered (.bytes (beBuf 64 2)) (started .sign (t2Signer compat))

theorem t2_numbers (compat : Bool) :
    (t2Signing compat).nat .p = 97 ∧ (t2Signing compat).nat .a = 1 ∧ (t2Signing compat).nat .q = 89 ∧
    (t2Signing compat).nat .d = 3 ∧ (t2Signing compat).basePoint = .aff 0 2 ∧
    (t2Signing compat).pubPoint = .aff 54 24 ∧ (t2Signing compat).phase = .run ∧
    (after (exec .sign (t2Signing compat))).phase = .idle ∧
    (after (exec .sign (t2Signing compat))).status.err = none := by
  cases compat <;> decide +kernel

theorem witness_VerifyAcceptsWhatSignMade (compat : Bool) :
    ((t2Signing compat).nat .p).Prime ∧ ProperCurve ((t2Signing compat).nat .p) ((t2Signing compat).nat .a) 4 ∧
    ((t2Signing compat).nat .q).Prime ∧
    OnCurve ((t2Signing compat).nat .p) ((t2Signing compat).nat .a) 4 (t2Signing compat).basePoint ∧
    pointExp ((t2Signing compat).nat .p) ((t2Signing compat).nat .a) ((t2Signing compat).nat .q)
      (t2Signing compat).basePoint = .ok .infinity ∧
    pointExp ((t2Signing compat).nat .p) ((t2Signing compat).nat .a) ((t2Signing compat).nat .d)
      (t2Signing compat).basePoint = .ok (t2Signing compat).pubPoint ∧
    (t2Signing compat).answers = .bytes (beBuf 64 2) :: [] ∧
    pointExp ((t2Signing compat).nat .p) ((t2Signing compat).nat .a)
      (intBE (beBuf 64 2).toList % (t2Signing compat).nat .q) (t2Signing compat).basePoint = .ok (.aff 91 48) ∧
    (t2Signing compat).phase = .run ∧ exec .sign (t2Signing compat) = .next (after (exec .sign (t2Signing compat))) ∧
    (after (exec .sign (t2Signing compat))).phase = .idle ∧
    (after (exec .sign (t2Signing compat))).status.err = none := by
  obtain ⟨hp, ha, hq, hd, hg, hpub, hph, hi, he⟩ := t2_numbers compat
  rw [hp, ha, hq, hd, hg, hpub]
  exact ⟨by norm_num, proper_t2, by norm_num, ⟨by decide, by decide, by decide⟩, by decide +kernel, by decide +kernel,
    rfl, by decide +kernel, hph, exec_after _ _, hi, he⟩

theorem witness_ReadsAndUnservedTransactionsChangeNothing :
    (8 : Nat) ≠ 4 ∧ (0x002 : Offset).toNat % 4 ≠ 0 ∧ (0xFFF : Offset).toNat % 4 ≠ 0 ∧ (0x7 : BitVec 4) ≠ 0xF := by
  decide +kernel

theorem witness_ReadOnlyRegistersIgnoreWrites :
    0x540 ≤ 0x5FC ∧ 0x5FC < 0x600 ∧ 0x5FC % 4 = 0 ∧ 0x540 % 4 = 0 := by decide +kernel

theorem witness_ReservedOffsetsReadZeroAndIgnoreWrites :
    0x028 % 4 = 0 ∧ 0x0FC % 4 = 0 ∧ 0x028 ≤ 0x0FC ∧ 0x0FC < 0x100 ∧ 0x6C0 % 4 = 0 ∧ 0xFFC % 4 = 0 ∧ 0x6C0 ≤ 0xFFC ∧
    0xFFC < 0x1000 ∧ slotOf 0x028 = .reserved ∧ slotOf 0x0FC = .reserved ∧ slotOf 0x6C0 = .reserved ∧
    slotOf 0xFFC = .reserved := by decide +kernel

/-- The slots next to each boundary of the map (20_memory.md R66 and R67). -/
theorem witness_BignumWordsAreSlices :
    t1.phase = .idle ∧ BN.q.readOnly = false ∧ BN.res0.readOnly = true ∧ 15 < 16 ∧
    slotOf 0x100 = .bn .a 0 ∧ slotOf 0x1FC = .bn .q 15 ∧ slotOf 0x53C = .bn .puby 15 ∧ slotOf 0x5FC = .bn .res2 15 := by
  decide +kernel

theorem witness_BufferWordsAreByteLanes :
    t1.phase = .idle ∧ slotOf 0x600 = .digbuf 0 ∧ slotOf 0x63C = .digbuf 15 ∧ slotOf 0x640 = .sigbuf 0 ∧
    slotOf 0x6BC = .sigbuf 31 ∧
    (State.reset.busStep (wr 0x600 0x44332211)).digbuf.toList.take 4 = [0x11, 0x22, 0x33, 0x44] := by decide +kernel

theorem witness_ControlRegisterWrites : t1.phase = .idle := rfl

/-- 95_test_vectors.md sections 3.2 (rows 15 and 37) and 3.10: CTRL 0xF, STATUS busy with WBUSY and after an abort, and two
counters that differ. -/
theorem test_control_register_reads :
    (((State.reset.busStep (wr 0x008 0xFFFFFCFF)).busStep (rd 0x008)).reply = some (.read 0x0000000F .ok)) ∧
    (((busyBlock.busStep (wr 0x280 7)).busStep (rd 0x00C)).reply = some (.read 0x00000005 .ok)) ∧
    ((((busyBlock.busStep (wr 0x280 9)).busStep (wr 0x008 0x100)).busStep (rd 0x00C)).reply =
      some (.read 0x00000906 .ok)) ∧
    (({ t1 with attemptMax := 4, retryCnt := 1 } : State).busStep (rd 0x01C)).reply = some (.read 4 .ok) ∧
    (({ t1 with attemptMax := 4, retryCnt := 1 } : State).busStep (rd 0x020)).reply = some (.read 1 .ok) := by
  decide +kernel

theorem witness_CtrlWriteServesItsFields :
    (0x0000000F : Word32).getLsbD 9 = false ∧ (0x00000101 : Word32).getLsbD 9 = false ∧ t1.phase = .idle ∧
    busyBlock.phase = .run ∧ (0x0000000F : Word32).getLsbD 8 = false ∧ (0x00000101 : Word32).getLsbD 8 = true ∧
    (busyBlock.ctrl.word ^^^ 0x00000101) &&& 0xD ≠ 0 := by decide +kernel

theorem witness_WritesWhileBusyAreDropped :
    busyBlock.phase = .run ∧ 0x010 % 4 = 0 ∧ 0x100 % 4 = 0 ∧ 0x53C % 4 = 0 ∧ 0x53C < 0x540 ∧ 0x600 % 4 = 0 ∧
    0x6BC % 4 = 0 ∧ 0x6BC < 0x6C0 ∧ (busyBlock.busStep (wr 0x6BC 1)).status.wbusy = true := by decide +kernel

theorem witness_LoadedRegisterHoldsTheValue :
    t1.phase = .idle ∧ BN.opa.readOnly = false ∧ BN.puby.readOnly = false := by decide +kernel

end Sys2Proof.Tests
end

/-! The turns of the world outside the block and of an idle engine (00_scope.md R15): what the step that takes each one
does, and the claim that the next turn alone decides the step. -/

namespace Sys2Proof.Machine

theorem step_bus {s : State} {x : BusTxn} {rest : List Turn} (h : s.turns = .bus x :: rest) :
    step s = .next (({ s with turns := rest } : State).busStep x) :=
  step_cons h

theorem step_entropy {s : State} {a : Answer} {rest : List Turn} (h : s.turns = .entropy a :: rest) :
    step s = .next (({ s with turns := rest } : State).presentAnswer a) :=
  step_cons h

theorem step_resetInput {s : State} {rest : List Turn} (h : s.turns = .resetInput :: rest) :
    step s = .next ({ s with turns := rest } : State).blockReset :=
  step_cons h

theorem step_engine {s : State} {rest : List Turn} (h : s.turns = .engine :: rest) :
    step s = engineTurn { s with turns := rest } :=
  step_cons h

theorem step_engine_idle {s : State} {rest : List Turn} (hp : s.phase = .idle) (h : s.turns = .engine :: rest) :
    step s = .next { s with turns := rest } := by
  rw [step_engine h]
  exact engineTurn_idle (s := { s with turns := rest }) hp

theorem step_nil_idle {s : State} (hp : s.phase = .idle) (h : s.turns = []) : step s = .next s := by
  rw [step_nil h, engineTurn_idle hp]

/-- Settles O12: one rule of the step for each agent's turn. -/
theorem stepTakesTheNextTurn : Obligations.StepTakesTheNextTurn := fun _ _ =>
  ⟨fun _ hbus => step_bus hbus,
    fun _ hentropy => step_entropy hentropy,
    fun hidle hengine => step_engine_idle hidle hengine,
    fun hidle hnone => step_nil_idle hidle hnone,
    fun hreset => step_resetInput hreset⟩

end Sys2Proof.Machine

/-! What one engine step of a command leaves, and what no command changes (10_state.md R22, R47, R48). -/

namespace Sys2Proof.Machine

/-- The answer of exec is one of the outcomes its law lists. -/
theorem exec_leaves {i : Instr} {s t : State} (h : exec i s = .next t) : ExecLeaves i s t := by
  obtain ⟨t', ht', hleaves⟩ := exec_cases i s
  rw [h] at ht'
  cases ht'
  exact hleaves

theorem drawsEntropy_iff (i : Instr) : drawsEntropy i = true ↔ i = .keygen ∨ i = .sign := by
  cases i <;> simp [drawsEntropy]

/-- u is s, or s after an attempt of a command that draws has taken an answer and perhaps counted a retry. -/
def AfterAttempt (i : Instr) (s u : State) : Prop :=
  u = s ∨
    (drawsEntropy i = true ∧ ∃ rest c, u = { s with answers := rest, pending := none, retryCnt := c })

theorem afterAttempt_afterDraw {i : Instr} (hd : drawsEntropy i = true) (s : State) (rest : List Answer) :
    AfterAttempt i s (s.afterDraw rest) :=
  .inr ⟨hd, rest, s.retryCnt, rfl⟩

/-- The command ended: with an error, or with its commit made. -/
def CommandEnded (i : Instr) (s t : State) : Prop :=
  ∃ u, AfterAttempt i s u ∧ ((∃ e, t = u.raiseError e) ∨ ∃ c, CommitOf i u c ∧ t = c.endOk)

/-- The command goes on: its checks have passed, and it waits for an answer or has counted a degenerate attempt below the
cap (42_signature_engine.md R171, R172). -/
structure CommandGoesOn (i : Instr) (s t : State) : Prop where
  draws : drawsEntropy i = true
  config : s.cfgSig = true
  key : i = .sign → s.keyInRange = true
  change : t = { s with pending := s.requestLength i } ∨
    ∃ rest c, t = { s with answers := rest, pending := none, retryCnt := c } ∧
      (s.attemptMax = 0 ∨ c.toNat < s.attemptMax.toNat)

/-- Every engine step ends its command or lets it go on. -/
theorem exec_ends_or_goes_on {i : Instr} {s t : State} (h : exec i s = .next t) :
    CommandEnded i s t ∨ CommandGoesOn i s t := by
  rcases exec_leaves h with ⟨e, -, rfl⟩ | ⟨-, c, hc, rfl⟩ | ⟨hd, hcfg, hkey, hdraw⟩
  · exact .inl ⟨s, .inl rfl, .inl ⟨e, rfl⟩⟩
  · exact .inl ⟨s, .inl rfl, .inr ⟨c, hc, rfl⟩⟩
  rcases hdraw with ⟨-, rfl⟩ | ⟨a, rest, -, ⟨e, -, rfl⟩ | ⟨c, hc, rfl⟩ | rfl⟩
  · exact .inr ⟨hd, hcfg, hkey, .inl rfl⟩
  · exact .inl ⟨_, afterAttempt_afterDraw hd s rest, .inl ⟨e, rfl⟩⟩
  · exact .inl ⟨_, afterAttempt_afterDraw hd s rest, .inr ⟨c, hc, rfl⟩⟩
  · rcases (s.afterDraw rest).retry_cases with ⟨-, -, hlimit⟩ | ⟨hbelow, hretry⟩
    · exact .inl ⟨_, .inr ⟨hd, rest, (s.afterDraw rest).countedRetry, rfl⟩, .inl ⟨_, hlimit⟩⟩
    · refine .inr ⟨hd, hcfg, hkey, .inr ⟨rest, _, hretry, ?_⟩⟩
      by_cases hcap : s.attemptMax = 0
      · exact .inl hcap
      · exact .inr (Nat.lt_of_not_le fun hreached => hbelow ⟨hcap, hreached⟩)

/-- An ended command leaves the block idle with DONE set and no request. -/
theorem CommandEnded.completion {i : Instr} {s t : State} (h : CommandEnded i s t) :
    t.phase = .idle ∧ t.status.done = true ∧ t.pending = none := by
  obtain ⟨u, -, ⟨e, rfl⟩ | ⟨c, -, rfl⟩⟩ := h <;> exact ⟨rfl, rfl, rfl⟩

theorem CommandGoesOn.phase {i : Instr} {s t : State} (h : CommandGoesOn i s t) : t.phase = s.phase := by
  obtain rfl | ⟨rest, c, rfl, -⟩ := h.change <;> rfl

theorem CommandGoesOn.bns {i : Instr} {s t : State} (h : CommandGoesOn i s t) : t.bns = s.bns := by
  obtain rfl | ⟨rest, c, rfl, -⟩ := h.change <;> rfl

theorem CommandGoesOn.signature {i : Instr} {s t : State} (h : CommandGoesOn i s t) :
    t.sigbuf = s.sigbuf ∧ t.sigLen = s.sigLen := by
  obtain rfl | ⟨rest, c, rfl, -⟩ := h.change <;> exact ⟨rfl, rfl⟩

theorem CommandGoesOn.rflags {i : Instr} {s t : State} (h : CommandGoesOn i s t) : t.rflags = s.rflags := by
  obtain rfl | ⟨rest, c, rfl, -⟩ := h.change <;> rfl

/-- Settles O13: only KEYGEN and SIGN can go on after an engine step. -/
theorem oneStepCommandsEnd : Obligations.OneStepCommandsEnd := by
  intro i s hkeygen hsign
  obtain ⟨t, ht, -⟩ := exec_cases i s
  refine ⟨t, ht, ?_⟩
  rcases exec_ends_or_goes_on ht with hend | hgoes
  · exact hend.completion
  · rcases (drawsEntropy_iff i).mp hgoes.draws with rfl | rfl <;> contradiction

/-- What every engine step of a command keeps (10_state.md R22): the frame of O14. -/
structure CommandFrame (i : Instr) (s t : State) : Prop where
  inputs : InputsKept s t
  bn : ∀ r, r ∉ writesBn i → t.bn r = s.bn r
  signature : i ≠ .sign → t.sigbuf = s.sigbuf ∧ t.sigLen = s.sigLen
  counters : i ≠ .keygen → i ≠ .sign → t.retryCnt = s.retryCnt ∧ t.answers = s.answers
  nop : i = .nop → t.rflags = s.rflags

/-- A state with the fields of s but for STATUS.DONE, STATUS.ERR, the phase and the request has the frame of any command,
and so has one whose answers and count a command that draws has changed. -/
theorem commandFrame_bookkeeping (i : Instr) (s : State) (ph : Phase) (pend : Option Nat) (done : Bool) (err : Option Err)
    (ans : List Answer) (cnt : BitVec 32) (h : drawsEntropy i = true ∨ (ans = s.answers ∧ cnt = s.retryCnt)) :
    CommandFrame i s { s with
      phase := ph, pending := pend, status := { s.status with done := done, err := err }, answers := ans
      retryCnt := cnt } where
  inputs := ⟨fun _ _ => rfl, rfl, rfl, rfl, rfl, rfl, rfl, rfl, rfl⟩
  bn := fun _ _ => rfl
  signature := fun _ => ⟨rfl, rfl⟩
  counters := by
    intro hkeygen hsign
    rcases h with hd | ⟨rfl, rfl⟩
    · rcases (drawsEntropy_iff i).mp hd with rfl | rfl <;> contradiction
    · exact ⟨rfl, rfl⟩
  nop := fun _ => rfl

theorem AfterAttempt.frame {i : Instr} {s u : State} (h : AfterAttempt i s u) : CommandFrame i s u := by
  obtain rfl | ⟨hd, rest, c, rfl⟩ := h
  · exact commandFrame_bookkeeping i _ _ _ _ _ _ _ (.inr ⟨rfl, rfl⟩)
  · exact commandFrame_bookkeeping i s s.phase none _ _ rest c (.inl hd)

theorem CommitOf.frame {i : Instr} {u c : State} (h : CommitOf i u c) : CommandFrame i u c :=
  ⟨h.inputs, h.bn, h.signature, fun _ _ => ⟨h.retryCnt, h.answers⟩, h.nop⟩

theorem InputsKept.trans {s u t : State} (h : InputsKept s u) (h' : InputsKept u t) : InputsKept s t where
  bignums r hr := (h'.bignums r hr).trans (h.bignums r hr)
  ctrl := h'.ctrl.trans h.ctrl
  pflags := h'.pflags.trans h.pflags
  attemptMax := h'.attemptMax.trans h.attemptMax
  cmd := h'.cmd.trans h.cmd
  digbuf := h'.digbuf.trans h.digbuf
  wbusy := h'.wbusy.trans h.wbusy
  turns := h'.turns.trans h.turns
  reply := h'.reply.trans h.reply

theorem CommandFrame.trans {i : Instr} {s u t : State} (h : CommandFrame i s u) (h' : CommandFrame i u t) :
    CommandFrame i s t where
  inputs := h.inputs.trans h'.inputs
  bn r hr := (h'.bn r hr).trans (h.bn r hr)
  signature hi := ⟨(h'.signature hi).1.trans (h.signature hi).1, (h'.signature hi).2.trans (h.signature hi).2⟩
  counters hk hs := ⟨(h'.counters hk hs).1.trans (h.counters hk hs).1, (h'.counters hk hs).2.trans (h.counters hk hs).2⟩
  nop hi := (h'.nop hi).trans (h.nop hi)

theorem exec_frame {i : Instr} {s t : State} (h : exec i s = .next t) : CommandFrame i s t := by
  rcases exec_ends_or_goes_on h with ⟨u, hu, ⟨e, rfl⟩ | ⟨c, hc, rfl⟩⟩ | hgoes
  · exact hu.frame.trans (commandFrame_bookkeeping i u .idle none true (some e) _ _ (.inr ⟨rfl, rfl⟩))
  · exact (hu.frame.trans hc.frame).trans (commandFrame_bookkeeping i c .idle none true none _ _ (.inr ⟨rfl, rfl⟩))
  · obtain rfl | ⟨rest, c, rfl, -⟩ := hgoes.change
    · exact commandFrame_bookkeeping i s s.phase (s.requestLength i) _ _ _ _ (.inl hgoes.draws)
    · exact commandFrame_bookkeeping i s s.phase none _ _ rest c (.inl hgoes.draws)

/-- Settles O14: the frame of a step is composed of the frames of its attempt, its commit and its end. -/
theorem commandsWriteOnlyTheirResults : Obligations.CommandsWriteOnlyTheirResults := by
  intro i s t h
  obtain ⟨hinputs, hbn, hsignature, hcounters, hnop⟩ := exec_frame h
  exact ⟨hinputs, hbn, hsignature, hcounters, hnop⟩

/-- Settles O20: a step that leaves a running block idle with ERR 0 has made the commit of its command, whose flags the
law of commits bounds. -/
theorem successWritesEveryResultFlag : Obligations.SuccessWritesEveryResultFlag := by
  intro i s t hrun h hidle herr hnop
  rcases exec_ends_or_goes_on h with ⟨u, -, ⟨e, rfl⟩ | ⟨c, hc, rfl⟩⟩ | hgoes
  · rw [State.raiseError_err] at herr
    contradiction
  · exact ⟨hc.rinf hnop, hc.res1Neg hnop, hc.res2Neg hnop, hc.verifyOk hnop⟩
  · rw [hgoes.phase, hrun] at hidle
    contradiction

end Sys2Proof.Machine

/-! The step by its turn, read backwards; and what a bus transaction can leave (00_scope.md R15, 20_memory.md R60). -/

namespace Sys2Proof.Machine

/-- A step that gives t is an engine turn, a transaction, an entropy answer or a reset input. -/
theorem step_inv {s t : State} (h : step s = .next t) :
    (∃ l, engineTurn { s with turns := l } = .next t) ∨
    (∃ x rest, s.turns = .bus x :: rest ∧ t = ({ s with turns := rest } : State).busStep x) ∨
    (∃ a rest, s.turns = .entropy a :: rest ∧ t = ({ s with turns := rest } : State).presentAnswer a) ∨
    (∃ rest, s.turns = .resetInput :: rest ∧ t = ({ s with turns := rest } : State).blockReset) := by
  match hturns : s.turns with
  | [] =>
    rw [step_nil hturns] at h
    exact .inl ⟨s.turns, h⟩
  | .engine :: rest =>
    rw [step_engine hturns] at h
    exact .inl ⟨rest, h⟩
  | .bus x :: rest =>
    rw [step_bus hturns] at h
    cases h
    exact .inr (.inl ⟨x, rest, rfl, rfl⟩)
  | .entropy a :: rest =>
    rw [step_entropy hturns] at h
    cases h
    exact .inr (.inr (.inl ⟨a, rest, rfl, rfl⟩))
  | .resetInput :: rest =>
    rw [step_resetInput hturns] at h
    cases h
    exact .inr (.inr (.inr ⟨rest, rfl, rfl⟩))

/-- An engine turn that gives t left an idle block alone, or executed the command of CMD. -/
theorem engineTurn_inv {s t : State} (h : engineTurn s = .next t) :
    (s.phase = .idle ∧ t = s) ∨ (s.phase = .run ∧ ∃ i, decode s.cmd = .ok i ∧ exec i s = .next t) := by
  match hphase : s.phase with
  | .idle =>
    rw [engineTurn_idle hphase] at h
    cases h
    exact .inl ⟨rfl, rfl⟩
  | .run =>
    match hdecode : decode s.cmd with
    | .ok i =>
      rw [engineTurn_run hphase hdecode] at h
      exact .inr ⟨rfl, i, rfl, h⟩
    | .error e =>
      rw [engineTurn_illegal hphase hdecode] at h
      contradiction

/-- Settles O11: the two ways the engine gets the turn. -/
theorem stepRunsTheDecodedCommand : Obligations.StepRunsTheDecodedCommand := by
  intro s i hrun hdecode
  refine ⟨fun hnone => ?_, fun rest hengine => ?_⟩
  · rw [step_nil hnone, engineTurn_run hrun hdecode]
  · rw [step_engine hengine]
    exact engineTurn_run (s := { s with turns := rest }) hrun hdecode

/-- A transaction changes the reply alone, or is a served write to a slot. -/
theorem State.busStep_cases (s : State) (x : BusTxn) :
    (∃ r, s.busStep x = { s with reply := r }) ∨
    (∃ off size strobes v, x = .write off size strobes v ∧ x.served = true ∧
      s.busStep x = { s.writeSlot v (slotOf off) with reply := some (.write .ok) }) := by
  cases x with
  | read off size =>
    left
    simp only [State.busStep]
    split <;> exact ⟨_, rfl⟩
  | write off size strobes v =>
    by_cases hserved : (BusTxn.write off size strobes v).served = true
    · exact .inr ⟨off, size, strobes, v, rfl, hserved, by simp only [State.busStep, hserved, if_true]⟩
    · left
      simp only [State.busStep, if_neg hserved]
      exact ⟨_, rfl⟩

/-- A served CTRL write with SRST resets the block. -/
theorem State.resetNext_srst {s : State} {off : Offset} {size : Nat} {strobes : BitVec 4} {v : Word32} {rest : List Turn}
    (hturns : s.turns = .bus (.write off size strobes v) :: rest)
    (hserved : (BusTxn.write off size strobes v).served = true) (hslot : slotOf off = .ctrl) (hv : v.getLsbD 9 = true) :
    s.resetNext = true := by
  simp only [State.resetNext, hturns, Turn.resets, hserved, hslot, hv, decide_true, Bool.and_self]

theorem State.resetNext_resetInput {s : State} {rest : List Turn} (hturns : s.turns = .resetInput :: rest) :
    s.resetNext = true := by
  simp only [State.resetNext, hturns, Turn.resets]

/-- The registers and flags that only a commit writes: RES0 to RES2 and RFLAGS (10_state.md R25, R48). -/
structure ResultsKept (s t : State) : Prop where
  bn : ∀ r : BN, r.readOnly = true → t.bn r = s.bn r
  rflags : t.rflags = s.rflags

theorem resultsKept_of_eq {s t : State} (hbns : t.bns = s.bns) (hrflags : t.rflags = s.rflags) : ResultsKept s t :=
  ⟨fun r _ => State.bn_congr hbns r, hrflags⟩

/-- The block stays idle, with the same request and the same results. -/
structure IdleKept (s t : State) : Prop where
  phase : t.phase = .idle
  pending : t.pending = s.pending
  results : ResultsKept s t

/-- What a write can leave of an idle block: the block reset, a command started, or an idle block with the same request
and the same results (10_state.md R25, R27, R31; 43_control_commands.md R203). -/
theorem State.writeSlot_idle {s : State} (h : s.phase = .idle) (v : Word32) (sl : Slot) :
    (sl = .ctrl ∧ v.getLsbD 9 = true ∧ s.writeSlot v sl = s.blockReset) ∨
    (∃ i, decode v = .ok i ∧ s.writeSlot v sl =
      { s with
        cmd := v, phase := .run, status := { s.status with done := false, err := none }
        retryCnt := if drawsEntropy i then 0 else s.retryCnt }) ∨
    IdleKept s (s.writeSlot v sl) := by
  cases sl with
  | ctrl =>
    by_cases hv : v.getLsbD 9 = true
    · exact .inl ⟨rfl, hv, State.writeCtrl_srst hv s⟩
    · have hctrl := State.writeCtrl_idle h (Bool.not_eq_true _ ▸ hv)
      simp only [State.writeSlot, hctrl]
      exact .inr (.inr ⟨h, rfl, resultsKept_of_eq rfl rfl⟩)
  | cmd =>
    simp only [State.writeSlot, State.unlessBusy_idle h]
    cases hdecode : decode v with
    | ok i => exact .inr (.inl ⟨i, rfl, State.acceptCommand_legal hdecode s⟩)
    | error e =>
      rw [State.acceptCommand_illegal hdecode s]
      exact .inr (.inr ⟨h, rfl, resultsKept_of_eq rfl rfl⟩)
  | bn r j =>
    simp only [State.writeSlot, State.unlessBusy_idle h]
    by_cases hr : r.readOnly = true
    · simp only [hr, if_true]
      exact .inr (.inr ⟨h, rfl, resultsKept_of_eq rfl rfl⟩)
    · simp only [hr]
      refine .inr (.inr ⟨h, rfl, fun r' hr' => State.bn_setBn_of_ne _ _ ?_, rfl⟩)
      rintro rfl
      exact hr hr'
  | id | version | rflags | retryCnt | reserved | status =>
    exact .inr (.inr ⟨h, rfl, resultsKept_of_eq rfl rfl⟩)
  | pflags | attemptMax | sigLen | digbuf w | sigbuf w =>
    simp only [State.writeSlot, State.unlessBusy_idle h]
    exact .inr (.inr ⟨h, rfl, resultsKept_of_eq rfl rfl⟩)

end Sys2Proof.Machine

/-! The invariant of the block (10_state.md R29, R31, R46; 42_signature_engine.md R172). -/

namespace Sys2Proof.Machine

theorem State.good_idle {s : State} (h : s.phase = .idle) : s.good = true ↔ s.pending = none := by
  simp [State.good, h]

/-- The invariant of a running block, as its conditions. -/
theorem State.good_run {s : State} (h : s.phase = .run) :
    s.good = true ↔ s.status.done = false ∧ s.status.err = none ∧
      ∃ i, decode s.cmd = .ok i ∧ s.requestOk i = true ∧ s.countOk i = true := by
  cases hdecode : decode s.cmd <;> simp [State.good, h, hdecode, and_assoc]

/-- No request is in order for any command. -/
theorem State.requestOk_none {s : State} (h : s.pending = none) (i : Instr) : s.requestOk i = true := by
  simp [State.requestOk, h]

/-- The request a command makes is in order once its checks have passed. -/
theorem State.requestOk_of_checks {s : State} {i : Instr} (hpending : s.pending = s.requestLength i)
    (hconfig : s.cfgSig = true) (hkey : i = .sign → s.keyInRange = true) : s.requestOk i = true := by
  by_cases hi : i = .sign
  · simp [State.requestOk, hpending, hconfig, hkey hi]
  · simp [State.requestOk, hpending, hconfig, hi]

/-- The count is in order while there is no cap, or while it is below the cap. -/
theorem State.countOk_of_below {s : State} (h : s.attemptMax = 0 ∨ s.retryCnt.toNat < s.attemptMax.toNat) (i : Instr) :
    s.countOk i = true := by
  rcases h with h | h <;> simp [State.countOk, h]

/-- The start of a command clears the count of those that draw, so the count is below any cap (10_state.md R31). -/
theorem State.countOk_of_start {s : State} {i : Instr} (h : drawsEntropy i = true → s.retryCnt = 0) :
    s.countOk i = true := by
  by_cases hd : drawsEntropy i = true
  · refine State.countOk_of_below ?_ i
    rw [h hd]
    by_cases hcap : s.attemptMax = 0
    · exact .inl hcap
    · refine .inr (Nat.pos_of_ne_zero fun hzero => hcap ?_)
      exact BitVec.eq_of_toNat_eq hzero
  · simp [State.countOk, hd]

/-- Settles O6: at reset the block is idle with no request. -/
theorem resetStateIsGood : Obligations.ResetStateIsGood :=
  (State.good_idle rfl).mpr rfl

/-- An engine step of the running command keeps the invariant. -/
theorem exec_good {i : Instr} {s t : State} (hrun : s.phase = .run) (hdecode : decode s.cmd = .ok i)
    (hgood : s.good = true) (h : exec i s = .next t) : t.good = true := by
  rcases exec_ends_or_goes_on h with hend | hgoes
  · obtain ⟨hidle, -, hpending⟩ := hend.completion
    exact (State.good_idle hidle).mpr hpending
  · obtain ⟨hdone, herr, j, hj, -, hcount⟩ := (State.good_run hrun).mp hgood
    obtain rfl : j = i := Except.ok.inj (hj.symm.trans hdecode)
    have hrun' : t.phase = .run := hgoes.phase.trans hrun
    rw [State.good_run hrun']
    obtain rfl | ⟨rest, c, rfl, hbelow⟩ := hgoes.change
    · exact ⟨hdone, herr, j, hdecode, State.requestOk_of_checks rfl hgoes.config hgoes.key, hcount⟩
    · exact ⟨hdone, herr, j, hdecode, State.requestOk_none rfl j, State.countOk_of_below hbelow j⟩

theorem engineTurn_good {s t : State} (hgood : s.good = true) (h : engineTurn s = .next t) : t.good = true := by
  rcases engineTurn_inv h with ⟨-, rfl⟩ | ⟨hrun, i, hdecode, hexec⟩
  · exact hgood
  · exact exec_good hrun hdecode hgood hexec

/-- The invariant of a running block does not see IE or WBUSY, and holds the better with DONE cleared. -/
theorem State.good_of_running_write {s : State} (hrun : s.phase = .run) (hgood : s.good = true) (ie wb done : Bool)
    (hdone : done = true → s.status.done = true) :
    ({ s with
      ctrl := { s.ctrl with ie := ie }, status := { s.status with done := done, wbusy := wb } } : State).good = true := by
  obtain ⟨hd, herr, i, hi, hrequest, hcount⟩ := (State.good_run hrun).mp hgood
  refine (State.good_run ?running).mpr ⟨?done, herr, i, hi, hrequest, hcount⟩
  case running => exact hrun
  case done => exact Bool.eq_false_iff.mpr fun h => by rw [hdone h] at hd; contradiction

theorem State.writeSlot_good {s : State} (hgood : s.good = true) (v : Word32) (sl : Slot) :
    (s.writeSlot v sl).good = true := by
  match hphase : s.phase with
  | .idle =>
    have hpending := (State.good_idle hphase).mp hgood
    rcases State.writeSlot_idle hphase v sl with ⟨-, -, heq⟩ | ⟨i, hi, heq⟩ | hkept
    · rw [heq]
      exact (State.good_idle rfl).mpr rfl
    · rw [heq]
      exact (State.good_run rfl).mpr
        ⟨rfl, rfl, i, hi, State.requestOk_none hpending i, State.countOk_of_start fun hd => if_pos hd⟩
    · exact (State.good_idle hkept.phase).mpr (hkept.pending.trans hpending)
  | .run =>
    rcases State.writeSlot_run hphase v sl with ⟨-, -, heq⟩ | ⟨ie, wb, heq⟩ | ⟨ie, wb, done, hdone, heq⟩
    · rw [heq]
      exact (State.good_idle rfl).mpr rfl
    · rw [heq]
      exact (State.good_idle rfl).mpr rfl
    · rw [heq]
      exact State.good_of_running_write hphase hgood ie wb done hdone

theorem State.busStep_good {s : State} (hgood : s.good = true) (x : BusTxn) : (s.busStep x).good = true := by
  rcases s.busStep_cases x with ⟨r, heq⟩ | ⟨off, size, strobes, v, -, -, heq⟩
  · rw [heq]
    exact hgood
  · rw [heq]
    exact State.writeSlot_good hgood v (slotOf off)

theorem step_good {s t : State} (hgood : s.good = true) (h : step s = .next t) : t.good = true := by
  rcases step_inv h with ⟨l, hengine⟩ | ⟨x, rest, -, rfl⟩ | ⟨a, rest, -, rfl⟩ | ⟨rest, -, rfl⟩
  · exact engineTurn_good (s := { s with turns := l }) hgood hengine
  · exact State.busStep_good (s := { s with turns := rest }) hgood x
  · exact hgood
  · exact (State.good_idle rfl).mpr rfl

/-- Settles O7: each agent's turn keeps the invariant. -/
theorem everyStepKeepsTheInvariant : Obligations.EveryStepKeepsTheInvariant :=
  fun _ _ => step_good

/-- An engine turn of a state with the invariant has a next state: CMD holds a legal word while the phase is RUN. -/
theorem engineTurn_next {s : State} (hgood : s.good = true) : ∃ t, engineTurn s = .next t := by
  match hphase : s.phase with
  | .idle => exact ⟨s, engineTurn_idle hphase⟩
  | .run =>
    obtain ⟨-, -, i, hi, -⟩ := (State.good_run hphase).mp hgood
    obtain ⟨t, ht, -⟩ := exec_cases i s
    exact ⟨t, (engineTurn_run hphase hi).trans ht⟩

/-- Settles O8: the turns of the other agents always have a next state. -/
theorem goodStatesNeverStop : Obligations.GoodStatesNeverStop := by
  intro s hgood
  match hturns : s.turns with
  | [] =>
    rw [step_nil hturns]
    exact engineTurn_next hgood
  | .engine :: rest =>
    rw [step_engine hturns]
    exact engineTurn_next (s := { s with turns := rest }) hgood
  | .bus x :: rest => exact ⟨_, step_bus hturns⟩
  | .entropy a :: rest => exact ⟨_, step_entropy hturns⟩
  | .resetInput :: rest => exact ⟨_, step_resetInput hturns⟩

/-- What every step keeps holds after every run. -/
theorem run_keeps {P : State → Prop} (hstep : ∀ {s t}, P s → step s = .next t → P t) (k : Nat) :
    ∀ {s t : State}, P s → Sys2Proof.core.run k s = .next t → P t := by
  induction k with
  | zero =>
    intro s t hs h
    cases h
    exact hs
  | succ k ih =>
    intro s t hs h
    simp only [Host.Core.run] at h
    split at h
    · rename_i u hu
      exact ih (hstep hs hu) h
    · contradiction
    · contradiction

/-- Settles O9: the invariant holds after every run from reset, and says so of a busy block. -/
theorem busyBlockShowsNoOutcome : Obligations.BusyBlockShowsNoOutcome := by
  intro turns answers k t h hbusy
  have hgood : t.good = true := run_keeps (P := fun s => s.good = true) step_good k ((State.good_idle rfl).mpr rfl) h
  have hrun : t.phase = .run := of_decide_eq_true hbusy
  obtain ⟨hdone, herr, -⟩ := (State.good_run hrun).mp hgood
  exact ⟨hdone, herr⟩

end Sys2Proof.Machine

/-! When results appear, and what a running command can rely on (10_state.md R33, R34, R48; 70_reset_and_hazards.md
R250). -/

namespace Sys2Proof.Machine

theorem AfterAttempt.results {i : Instr} {s u : State} (h : AfterAttempt i s u) : ResultsKept s u := by
  obtain rfl | ⟨-, rest, c, rfl⟩ := h <;> exact resultsKept_of_eq rfl rfl

/-- The step of a running command that ended successfully (10_state.md R48). -/
def SucceededNow (s t : State) : Prop :=
  s.phase = .run ∧ t.phase = .idle ∧ t.status.done = true ∧ t.status.err = none ∧ t.pending = none

theorem engineTurn_results {s t : State} (h : engineTurn s = .next t) : ResultsKept s t ∨ SucceededNow s t := by
  rcases engineTurn_inv h with ⟨-, rfl⟩ | ⟨hrun, i, -, hexec⟩
  · exact .inl (resultsKept_of_eq rfl rfl)
  · rcases exec_ends_or_goes_on hexec with ⟨u, hu, ⟨e, rfl⟩ | ⟨c, -, rfl⟩⟩ | hgoes
    · exact .inl ⟨hu.results.bn, hu.results.rflags⟩
    · exact .inr ⟨hrun, rfl, rfl, rfl, rfl⟩
    · exact .inl (resultsKept_of_eq hgoes.bns hgoes.rflags)

theorem State.writeSlot_results (s : State) (v : Word32) (sl : Slot) :
    (sl = .ctrl ∧ v.getLsbD 9 = true) ∨ ResultsKept s (s.writeSlot v sl) := by
  match hphase : s.phase with
  | .idle =>
    rcases State.writeSlot_idle hphase v sl with ⟨hsl, hv, -⟩ | ⟨i, -, heq⟩ | hidle
    · exact .inl ⟨hsl, hv⟩
    · rw [heq]
      exact .inr (resultsKept_of_eq rfl rfl)
    · exact .inr hidle.results
  | .run =>
    rcases State.writeSlot_run hphase v sl with ⟨hsl, hv, -⟩ | ⟨ie, wb, heq⟩ | ⟨ie, wb, done, -, heq⟩
    · exact .inl ⟨hsl, hv⟩
    · rw [heq]
      exact .inr (resultsKept_of_eq rfl rfl)
    · rw [heq]
      exact .inr (resultsKept_of_eq rfl rfl)

/-- A step keeps the results, resets the block, or ends a command successfully. -/
theorem step_results {s t : State} (h : step s = .next t) :
    ResultsKept s t ∨ s.resetNext = true ∨ SucceededNow s t := by
  rcases step_inv h with ⟨l, hengine⟩ | ⟨x, rest, hturns, rfl⟩ | ⟨a, rest, -, rfl⟩ | ⟨rest, hturns, rfl⟩
  · rcases engineTurn_results hengine with hkept | hsucceeded
    · exact .inl ⟨hkept.bn, hkept.rflags⟩
    · exact .inr (.inr hsucceeded)
  · rcases ({ s with turns := rest } : State).busStep_cases x with ⟨r, heq⟩ | ⟨off, size, strobes, v, rfl, hserved, heq⟩
    · rw [heq]
      exact .inl (resultsKept_of_eq rfl rfl)
    · rcases ({ s with turns := rest } : State).writeSlot_results v (slotOf off) with ⟨hsl, hv⟩ | hkept
      · exact .inr (.inl (State.resetNext_srst hturns hserved hsl hv))
      · rw [heq]
        exact .inl ⟨hkept.bn, hkept.rflags⟩
  · exact .inl (resultsKept_of_eq rfl rfl)
  · exact .inr (.inl (State.resetNext_resetInput hturns))

/-- Settles O18: a change excludes the first outcome of a step. -/
theorem resultsAppearOnlyAtCommit : Obligations.ResultsAppearOnlyAtCommit := by
  intro s t h hchange
  rcases step_results h with hkept | hrest
  · have hsame := hkept.bn
    rcases hchange with hres | hres | hres | hflags
    · exact absurd (hsame .res0 rfl) hres
    · exact absurd (hsame .res1 rfl) hres
    · exact absurd (hsame .res2 rfl) hres
    · exact absurd hkept.rflags hflags
  · exact hrest

/-- What a command reads is the same in s and t; the signature buffer while the command goes on (10_state.md R33,
R34). -/
structure OperandsHeld (s t : State) : Prop where
  bignums : ∀ r : BN, r.readOnly = false → t.bn r = s.bn r
  mode : t.ctrl.mode = s.ctrl.mode
  digLE : t.ctrl.digLE = s.ctrl.digLE
  vfyCompat : t.ctrl.vfyCompat = s.ctrl.vfyCompat
  pflags : t.pflags = s.pflags
  attemptMax : t.attemptMax = s.attemptMax
  digbuf : t.digbuf = s.digbuf
  cmd : t.cmd = s.cmd
  signature : t.phase = .run → t.sigbuf = s.sigbuf ∧ t.sigLen = s.sigLen

/-- Only IE, STATUS, the phase and the model's bookkeeping differ. -/
theorem operandsHeld_bookkeeping (s : State) (ie : Bool) (status : Status) (phase : Phase) (pending : Option Nat)
    (turns : List Turn) (answers : List Answer) (reply : Option Reply) :
    OperandsHeld s { s with
      ctrl := { s.ctrl with ie := ie }, status := status, phase := phase, pending := pending, turns := turns
      answers := answers, reply := reply } :=
  ⟨fun _ _ => rfl, rfl, rfl, rfl, rfl, rfl, rfl, rfl, fun _ => ⟨rfl, rfl⟩⟩

theorem exec_operandsHeld {i : Instr} {s t : State} (h : exec i s = .next t) : OperandsHeld s t := by
  obtain ⟨hbn, hctrl, hpflags, hmax, hcmd, hdigbuf, -, -, -⟩ := (exec_frame h).inputs
  refine ⟨hbn, by rw [hctrl], by rw [hctrl], by rw [hctrl], hpflags, hmax, hdigbuf, hcmd, fun hrun => ?_⟩
  rcases exec_ends_or_goes_on h with hend | hgoes
  · rw [hend.completion.1] at hrun
    contradiction
  · exact hgoes.signature

theorem step_operandsHeld {s t : State} (hrun : s.phase = .run) (hreset : s.resetNext = false) (h : step s = .next t) :
    OperandsHeld s t := by
  have reset_absurd {p : Prop} (hr : s.resetNext = true) : p := absurd hr (Bool.eq_false_iff.mp hreset)
  rcases step_inv h with ⟨l, hengine⟩ | ⟨x, rest, hturns, rfl⟩ | ⟨a, rest, -, rfl⟩ | ⟨rest, hturns, rfl⟩
  · rcases engineTurn_inv hengine with ⟨hidle, -⟩ | ⟨-, i, -, hexec⟩
    · exact absurd (hidle.symm.trans hrun) (by decide)
    · have hheld := exec_operandsHeld hexec
      exact ⟨hheld.bignums, hheld.mode, hheld.digLE, hheld.vfyCompat, hheld.pflags, hheld.attemptMax, hheld.digbuf,
        hheld.cmd, hheld.signature⟩
  · rcases ({ s with turns := rest } : State).busStep_cases x with ⟨r, heq⟩ | ⟨off, size, strobes, v, rfl, hserved, heq⟩
    · rw [heq]
      exact operandsHeld_bookkeeping s s.ctrl.ie _ _ _ rest _ r
    · rw [heq]
      rcases State.writeSlot_run (s := { s with turns := rest }) hrun v (slotOf off) with
        ⟨hsl, hv, -⟩ | ⟨ie, wb, hslot⟩ | ⟨ie, wb, done, -, hslot⟩
      · exact reset_absurd (State.resetNext_srst hturns hserved hsl hv)
      · rw [hslot]
        exact operandsHeld_bookkeeping s ie _ .idle none rest _ _
      · rw [hslot]
        exact operandsHeld_bookkeeping s ie _ _ _ rest _ _
  · exact operandsHeld_bookkeeping s s.ctrl.ie _ _ _ rest _ _
  · exact reset_absurd (State.resetNext_resetInput hturns)

/-- Settles O19: the engine keeps its inputs, and a busy block drops the writes to them. -/
theorem operandsHoldWhileBusy : Obligations.OperandsHoldWhileBusy := by
  intro s t hrun hreset h
  obtain ⟨hbignums, hmode, hdigLE, hcompat, hpflags, hmax, hdigbuf, hcmd, hsignature⟩ := step_operandsHeld hrun hreset h
  exact ⟨hbignums, hmode, hdigLE, hcompat, hpflags, hmax, hdigbuf, hcmd, hsignature⟩

end Sys2Proof.Machine

/-! The bus (20_memory.md R60 to R68): a served transaction by its slot, and the claims about what reads return and writes
store, idle and busy. -/

namespace Sys2Proof.Machine

theorem State.busStep_wr_slot (s : State) {o : Nat} {sl : Slot} (v : Word32) (h : o < 4096) (ha : o % 4 = 0)
    (hslot : slotOf (BitVec.ofNat 12 o) = sl) :
    s.busStep (wr o v) = { s.writeSlot v sl with reply := some (.write .ok) } := by
  rw [State.busStep_wr s v h ha, hslot]

theorem State.busStep_rd_slot (s : State) {o : Nat} {sl : Slot} (h : o < 4096) (ha : o % 4 = 0)
    (hslot : slotOf (BitVec.ofNat 12 o) = sl) :
    s.busStep (rd o) = { s with reply := some (.read (s.readSlot sl) .ok) } := by
  rw [State.busStep_rd s h ha, hslot]

/-- RES0 to RES2 have the indexes from 17 on (10_state.md R25, 20_memory.md R67). -/
theorem BN.readOnly_iff (r : BN) : r.readOnly = true ↔ 17 ≤ (r.index : Nat) := by
  cases r <;> decide

/-- The words of RES0 to RES2 lie from 0x540 on (20_memory.md R67). -/
theorem BN.readOnly_iff_base (r : BN) {j : Nat} (hj : j < 16) : r.readOnly = true ↔ 0x540 ≤ r.base + 4 * j := by
  rw [BN.readOnly_iff]
  unfold BN.base
  omega

/-- A write to a slot that keeps the block answers OK and changes nothing else. -/
theorem State.busStep_wr_ignored {s : State} {o : Nat} {sl : Slot} {v : Word32} (h : o < 4096) (ha : o % 4 = 0)
    (hslot : slotOf (BitVec.ofNat 12 o) = sl) (hkeep : s.writeSlot v sl = s) :
    s.busStep (wr o v) = { s with reply := some (.write .ok) } := by
  rw [State.busStep_wr_slot s v h ha hslot, hkeep]

/-- Settles O53: the constants and the read-only registers, slot by slot. -/
theorem readOnlyRegistersIgnoreWrites : Obligations.ReadOnlyRegistersIgnoreWrites := by
  intro s
  refine ⟨State.busStep_rd_slot s (by omega) (by omega) (sl := .id) rfl,
    State.busStep_rd_slot s (by omega) (by omega) (sl := .version) rfl, fun o v ho => ?_⟩
  rcases ho with rfl | rfl | rfl | rfl | ⟨hlo, hhi, ha⟩
  · exact State.busStep_wr_ignored (sl := .id) (by omega) (by omega) rfl rfl
  · exact State.busStep_wr_ignored (sl := .version) (by omega) (by omega) rfl rfl
  · exact State.busStep_wr_ignored (sl := .rflags) (by omega) (by omega) rfl rfl
  · exact State.busStep_wr_ignored (sl := .retryCnt) (by omega) (by omega) rfl rfl
  · obtain ⟨r, j, hj, rfl⟩ := slotOf_bignum_range ha (by omega) hhi
    exact State.busStep_wr_ignored (by omega) ha (slotOf_bn r hj) (if_pos ((r.readOnly_iff_base hj).mpr hlo))

/-! The slots that only an idle block takes (10_state.md R33). -/

theorem State.writeSlot_cmd (s : State) (v : Word32) :
    s.writeSlot v .cmd = s.unlessBusy fun t => t.acceptCommand v := rfl

theorem State.writeSlot_pflags (s : State) (v : Word32) :
    s.writeSlot v .pflags = s.unlessBusy fun t => { t with pflags := .ofWord v } := rfl

theorem State.writeSlot_attemptMax (s : State) (v : Word32) :
    s.writeSlot v .attemptMax = s.unlessBusy fun t => { t with attemptMax := v } := rfl

theorem State.writeSlot_sigLen (s : State) (v : Word32) :
    s.writeSlot v .sigLen = s.unlessBusy fun t => { t with sigLen := v.extractLsb' 0 8 } := rfl

theorem State.writeSlot_bn (s : State) (v : Word32) {r : BN} (hr : ¬ r.readOnly = true) (j : Fin 16) :
    s.writeSlot v (.bn r j) = s.unlessBusy fun t => t.setBn r (setBigWord (t.bn r) j v) := if_neg hr

theorem State.writeSlot_digbuf (s : State) (v : Word32) (w : Fin 16) :
    s.writeSlot v (.digbuf w) = s.unlessBusy fun t => { t with digbuf := setBufWord t.digbuf w.val v } := rfl

theorem State.writeSlot_sigbuf (s : State) (v : Word32) (w : Fin 32) :
    s.writeSlot v (.sigbuf w) = s.unlessBusy fun t => { t with sigbuf := setBufWord t.sigbuf w.val v } := rfl

/-- A busy block drops a write to a slot that only an idle one takes, and sets WBUSY (10_state.md R33). -/
theorem State.busStep_wr_dropped {s : State} {o : Nat} {sl : Slot} {v : Word32} {store : State → State}
    (hrun : s.phase = .run) (h : o < 4096) (ha : o % 4 = 0) (hslot : slotOf (BitVec.ofNat 12 o) = sl)
    (hstore : s.writeSlot v sl = s.unlessBusy store) :
    s.busStep (wr o v) =
      { s with status := { s.status with wbusy := true }, reply := some (.write .ok) } := by
  rw [State.busStep_wr_slot s v h ha hslot, hstore, State.unlessBusy_run hrun]

/-- Settles O59: each of the offsets holds a slot that only an idle block takes. -/
theorem writesWhileBusyAreDropped : Obligations.WritesWhileBusyAreDropped := by
  intro s o v hrun ha ho
  rcases ho with rfl | rfl | rfl | rfl | ⟨hlo, hhi⟩ | ⟨hlo, hhi⟩
  · exact State.busStep_wr_dropped hrun (by omega) ha rfl (s.writeSlot_cmd v)
  · exact State.busStep_wr_dropped hrun (by omega) ha rfl (s.writeSlot_pflags v)
  · exact State.busStep_wr_dropped hrun (by omega) ha rfl (s.writeSlot_attemptMax v)
  · exact State.busStep_wr_dropped hrun (by omega) ha rfl (s.writeSlot_sigLen v)
  · obtain ⟨r, j, hj, rfl⟩ := slotOf_bignum_range ha hlo (by omega)
    have hwritable : ¬ r.readOnly = true := by rw [r.readOnly_iff_base hj]; omega
    exact State.busStep_wr_dropped hrun (by omega) ha (slotOf_bn r hj) (s.writeSlot_bn v hwritable _)
  · by_cases hdig : o < 0x640
    · obtain ⟨w, hw, rfl⟩ : ∃ w, w < 16 ∧ o = 0x600 + 4 * w := ⟨(o - 0x600) / 4, by omega, by omega⟩
      exact State.busStep_wr_dropped hrun (by omega) ha (slotOf_digbuf hw) (s.writeSlot_digbuf v _)
    · obtain ⟨w, hw, rfl⟩ : ∃ w, w < 32 ∧ o = 0x640 + 4 * w := ⟨(o - 0x640) / 4, by omega, by omega⟩
      exact State.busStep_wr_dropped hrun (by omega) ha (slotOf_sigbuf hw) (s.writeSlot_sigbuf v _)

/-! The words of the 32-bit registers as sums of their fields. -/

/-- Four flags in bits 0 to 3. -/
theorem toNat_flagBits (a b c d : Bool) :
    (flagBit a 0 ||| flagBit b 1 ||| flagBit c 2 ||| flagBit d 3).toNat =
      a.toNat + 2 * b.toNat + 4 * c.toNat + 8 * d.toNat := by
  revert a b c d
  decide

theorem toNat_decide (p : Prop) [Decidable p] : (decide p).toNat = if p then 1 else 0 := by
  by_cases h : p <;> simp [h]

theorem Ctrl.toNat_word (c : Ctrl) :
    c.word.toNat =
      (if c.mode = .m512 then 1 else 0) + 2 * c.ie.toNat + 4 * c.digLE.toNat + 8 * c.vfyCompat.toNat := by
  unfold Ctrl.word
  rw [toNat_flagBits, toNat_decide]

theorem RFlags.toNat_word (f : RFlags) :
    f.word.toNat = f.rinf.toNat + 2 * f.res1Neg.toNat + 4 * f.res2Neg.toNat + 8 * f.verifyOk.toNat :=
  toNat_flagBits _ _ _ _

theorem PFlags.toNat_word (f : PFlags) : f.word.toNat = f.p1inf.toNat + 2 * f.p2inf.toNat := by
  obtain ⟨a, b⟩ := f
  revert a b
  decide

/-- Three flags in bits 0 to 2 and a code of R210 in bits 11:8. -/
theorem toNat_flagBits_code (a b c : Bool) {n : Nat} (hn : n < 10) :
    (flagBit a 0 ||| flagBit b 1 ||| flagBit c 2 ||| (BitVec.ofNat 32 n <<< 8)).toNat =
      a.toNat + 2 * b.toNat + 4 * c.toNat + 256 * n := by
  revert a b c
  interval_cases n <;> decide

theorem errField_lt (e : Option Err) : errField e < 10 := by
  obtain _ | e := e
  · decide
  · cases e <;> decide

/-- The code of each outcome is the one of the table (60_exceptions.md R210). -/
theorem errField_mem_outcomeCodes (e : Option Err) : (e, errField e) ∈ outcomeCodes := by
  obtain _ | e := e
  · decide
  · cases e <;> decide

theorem State.toNat_statusWord (s : State) :
    s.statusWord.toNat =
      (if s.phase = .run then 1 else 0) + 2 * s.status.done.toNat + 4 * s.status.wbusy.toNat +
        256 * errField s.status.err := by
  unfold State.statusWord
  rw [toNat_flagBits_code _ _ _ (errField_lt _), State.busy, toNat_decide]

/-- PFLAGS stores bits 1:0 of a written word (10_state.md R35). -/
theorem PFlags.word_ofWord (v : Word32) : (PFlags.ofWord v).word = v &&& 3 := by
  apply BitVec.eq_of_toNat_eq
  have hbits : (v.getLsbD 0).toNat + 2 * (v.getLsbD 1).toNat = v.toNat % 4 := by
    simp only [BitVec.getLsbD, Nat.toNat_testBit]
    omega
  have hmask : (v &&& 3).toNat = v.toNat % 4 := by
    rw [BitVec.toNat_and]
    exact Nat.and_two_pow_sub_one_eq_mod v.toNat 2
  rw [PFlags.toNat_word, hmask]
  exact hbits

/-- SIG_LEN stores bits 7:0 of a written word (10_state.md R39). -/
theorem setWidth_low_byte (v : Word32) : ((v.extractLsb' 0 8).setWidth 32 : Word32) = v &&& 0xFF := by
  apply BitVec.eq_of_toNat_eq
  have hmask : (v &&& 0xFF).toNat = v.toNat % 256 := by
    rw [BitVec.toNat_and]
    exact Nat.and_two_pow_sub_one_eq_mod v.toNat 8
  rw [hmask, BitVec.toNat_setWidth, BitVec.extractLsb'_toNat, Nat.shiftRight_zero]
  omega

/-- A served read of a slot whose word is n. -/
theorem State.readsAs_of_slot (s : State) {o n : Nat} {sl : Slot} (h : o < 4096) (ha : o % 4 = 0)
    (hslot : slotOf (BitVec.ofNat 12 o) = sl) (hn : (s.readSlot sl).toNat = n) : s.ReadsAs o n :=
  ⟨s.readSlot sl, hn, State.busStep_rd_slot s h ha hslot⟩

/-- An idle block takes a write. -/
theorem State.busStep_wr_stored {s : State} {o : Nat} {sl : Slot} {v : Word32} {store : State → State}
    (hidle : s.phase = .idle) (h : o < 4096) (ha : o % 4 = 0) (hslot : slotOf (BitVec.ofNat 12 o) = sl)
    (hstore : s.writeSlot v sl = s.unlessBusy store) :
    s.busStep (wr o v) = { store s with reply := some (.write .ok) } := by
  rw [State.busStep_wr_slot s v h ha hslot, hstore, State.unlessBusy_idle hidle]

/-- Settles O57: each register by its slot, and each word as the sum of its fields. -/
theorem controlRegisterWrites : Obligations.ControlRegisterWrites := by
  intro s v
  refine ⟨State.busStep_wr_slot s v (by omega) (by omega) (sl := .status) rfl, fun hidle => ⟨?pflags, ?attemptMax, ?sigLen⟩,
    ?_, ⟨errField s.status.err, errField_mem_outcomeCodes _, ?_⟩, ?_, ?_, ?_, ?_, ?_, ?_⟩
  case pflags =>
    exact ⟨.ofWord v, State.busStep_wr_stored (o := 0x018) hidle (by omega) (by omega) rfl (s.writeSlot_pflags v),
      PFlags.word_ofWord v⟩
  case attemptMax => exact State.busStep_wr_stored (o := 0x01C) hidle (by omega) (by omega) rfl (s.writeSlot_attemptMax v)
  case sigLen =>
    exact ⟨v.extractLsb' 0 8, State.busStep_wr_stored (o := 0x024) hidle (by omega) (by omega) rfl (s.writeSlot_sigLen v),
      setWidth_low_byte v⟩
  · exact State.readsAs_of_slot s (by omega) (by omega) (sl := .ctrl) rfl s.ctrl.toNat_word
  · exact State.readsAs_of_slot s (by omega) (by omega) (sl := .status) rfl s.toNat_statusWord
  · exact State.readsAs_of_slot s (by omega) (by omega) (sl := .cmd) rfl rfl
  · exact State.readsAs_of_slot s (by omega) (by omega) (sl := .rflags) rfl s.rflags.toNat_word
  · exact State.readsAs_of_slot s (by omega) (by omega) (sl := .pflags) rfl s.pflags.toNat_word
  · exact State.readsAs_of_slot s (by omega) (by omega) (sl := .attemptMax) rfl rfl
  · exact State.readsAs_of_slot s (by omega) (by omega) (sl := .retryCnt) rfl rfl
  · exact State.readsAs_of_slot s (by omega) (by omega) (sl := .sigLen) rfl
      (BitVec.toNat_setWidth_of_le (by omega))

end Sys2Proof.Machine

/-! Reset, the start of a command, and the request of a draw (10_state.md R31, R46, R50, R55). -/

namespace Sys2Proof.Machine

/-- A reset of the block puts every piece at its reset value, whatever is still to come and was last replied. -/
theorem resetValues_blockReset (s : State) : ResetValues s.blockReset where
  bignums r := by
    have hzero : s.blockReset.bn r = Big.zero := State.bn_reset r
    rw [State.nat, hzero]
    rfl
  digbuf i := Vector.getElem_replicate i.isLt
  sigbuf i := Vector.getElem_replicate i.isLt
  mode := rfl
  ie := rfl
  digLE := rfl
  vfyCompat := rfl
  busy := rfl
  done := rfl
  wbusy := rfl
  err := rfl
  cmd := rfl
  rflags := ⟨rfl, rfl, rfl, rfl⟩
  pflags := ⟨rfl, rfl⟩
  attemptMax := rfl
  retryCnt := rfl
  sigLen := rfl
  phase := rfl
  pending := rfl
  irq := rfl
  id := rfl
  version := rfl

/-- A CTRL write with SRST is the reset of the block, answered OK (43_control_commands.md R203). -/
theorem State.busStep_srst (s : State) {v : Word32} (hv : v.getLsbD 9 = true) :
    s.busStep (wr 0x008 v) = ({ s with reply := some (.write .ok) } : State).blockReset := by
  rw [State.busStep_wr_slot s v (by omega) (by omega) (sl := .ctrl) rfl, State.writeSlot, State.writeCtrl_srst hv]
  rfl

/-- Settles O5: the reset input and SRST are the same reset of the block. -/
theorem resetPutsEveryPieceAtItsValue : Obligations.ResetPutsEveryPieceAtItsValue := by
  refine ⟨resetValues_blockReset State.reset, fun s rest hturns => ?_, fun s v v' hv hv' => ?_⟩
  · exact ⟨_, step_resetInput hturns, resetValues_blockReset _⟩
  · rw [State.busStep_srst s hv, State.busStep_srst s hv']
    have hctrl : ({} : Ctrl).word = 0 := by decide
    have hstatus : State.reset.statusWord = 0 := by decide
    exact ⟨resetValues_blockReset _, hstatus, hctrl, rfl⟩

/-- The word of a command decodes to it (30_encoding.md R95, R104). -/
theorem decode_encode (i : Instr) : decode (encode i) = .ok i := by
  cases i with
  | modred m | modadd m | modsub m | modmul m | modinv m | egcd m => cases m <;> rfl
  | nop | padd | pdbl | pmul | keygen | sign | verify => rfl

/-- A word is its MSEL bits beside the bits that a modulus row matches. -/
theorem word_eq_msel_or_row (w : Word32) :
    w = ((w.extractLsb' 8 2).setWidth 32 <<< 8) ||| (w &&& modulusRowMask) := by
  apply BitVec.eq_of_getLsbD_eq
  intro k hk
  simp only [modulusRowMask, BitVec.getLsbD_or, BitVec.getLsbD_shiftLeft, BitVec.getLsbD_setWidth,
    BitVec.getLsbD_extractLsb', BitVec.getLsbD_and]
  interval_cases k <;> simp

theorem plainRow_some {n : Nat} {i : Instr} (h : plainRow n = some i) : n = (encode i).toNat := by
  unfold plainRow at h
  split at h <;> cases h <;> rfl

theorem modulusRow_some {n : Nat} {f : MSel → Instr} (h : modulusRow n = some f) (m : MSel) :
    encode (f m) = (m.bits <<< 8) ||| BitVec.ofNat 32 n := by
  unfold modulusRow at h
  split at h <;> cases h <;> rfl

theorem mselOf_some {w : Word32} {m : MSel} (h : mselOf w = some m) : (w.extractLsb' 8 2).setWidth 32 = m.bits := by
  unfold mselOf at h
  apply BitVec.eq_of_toNat_eq
  rw [BitVec.toNat_setWidth_of_le (by omega)]
  split at h <;> cases h <;> assumption

/-- A word that decodes to a command is the word of the command (30_encoding.md R95, R104). -/
theorem eq_encode_of_decode {w : Word32} {i : Instr} (h : decode w = .ok i) : w = encode i := by
  have hmatch : matchRow w = some i := by
    unfold decode at h
    split at h
    · rename_i j hj
      cases h
      exact hj
    · contradiction
  unfold matchRow at hmatch
  split at hmatch
  · rename_i j hplain
    cases hmatch
    have hmask : w &&& 0xFFFFFFFF = w := BitVec.and_allOnes
    rw [hmask] at hplain
    exact BitVec.eq_of_toNat_eq (plainRow_some hplain)
  · split at hmatch
    · rename_i f hrow
      obtain ⟨m, hm, rfl⟩ := Option.map_eq_some_iff.mp hmatch
      rw [modulusRow_some hrow m, ← mselOf_some hm, BitVec.ofNat_toNat, BitVec.setWidth_eq]
      exact word_eq_msel_or_row w
    · contradiction

theorem legal_encode (i : Instr) : illegalWord (encode i) = false := by
  cases i with
  | modred m | modadd m | modsub m | modmul m | modinv m | egcd m => cases m <;> rfl
  | nop | padd | pdbl | pmul | keygen | sign | verify => rfl

/-- The decoder refuses an illegal word. -/
theorem decode_illegal {w : Word32} (h : illegalWord w = true) : ∃ e, decode w = .error e := by
  cases hdecode : decode w with
  | error e => exact ⟨e, rfl⟩
  | ok i =>
    rw [eq_encode_of_decode hdecode, legal_encode] at h
    contradiction

theorem CommandFields.takesModulus_iff (f : CommandFields) : f.takesModulus = true ↔ 1 ≤ f.opc ∧ f.opc ≤ 6 := by
  simp [CommandFields.takesModulus]

/-- Fields that meet no clause of 30_encoding.md R96: an opcode with a modulus operand beside one of the three selects, or
another assigned opcode beside the select 0. -/
theorem CommandFields.legal_cases {f : CommandFields} (h : f.illegal = false) :
    f.rsv = 0 ∧ ((f.opc ∈ [1, 2, 3, 4, 5, 6] ∧ f.msel ≠ 3) ∨
      (f.opc ∈ [0x00, 0x10, 0x11, 0x12, 0x20, 0x21, 0x22] ∧ f.msel = 0)) := by
  simp only [CommandFields.illegal, CommandFields.assigned, Bool.or_eq_false_iff, Bool.and_eq_false_iff,
    bne_eq_false_iff_eq, beq_eq_false_iff_ne, Bool.not_eq_false', Bool.or_eq_true, beq_iff_eq] at h
  obtain ⟨⟨⟨hrsv, hassigned⟩, hmodulus⟩, hplain⟩ := h
  simp only [← Bool.not_eq_true, CommandFields.takesModulus_iff] at hassigned hmodulus hplain
  simp only [List.mem_cons, List.not_mem_nil, or_false]
  omega

theorem toNat_encode (i : Instr) : (encode i).toNat = i.opcode.toNat + 256 * i.mselBits.toNat := by
  cases i with
  | modred m | modadd m | modsub m | modmul m | modinv m | egcd m => cases m <;> rfl
  | nop | padd | pdbl | pmul | keygen | sign | verify => rfl

theorem MSel.exists_bits {k : Nat} (h : k < 3) : ∃ m : MSel, m.bits.toNat = k := by
  interval_cases k
  exacts [⟨.opm, rfl⟩, ⟨.p, rfl⟩, ⟨.q, rfl⟩]

/-- Legal fields are those of a command. -/
theorem CommandFields.exists_instr {f : CommandFields} (hlt : f.msel < 4) (h : f.illegal = false) :
    ∃ i : Instr, i.opcode.toNat = f.opc ∧ i.mselBits.toNat = f.msel := by
  obtain ⟨-, ⟨hopc, hmsel⟩ | ⟨hopc, hmsel⟩⟩ := CommandFields.legal_cases h
  · obtain ⟨m, hm⟩ := MSel.exists_bits (k := f.msel) (by omega)
    simp only [List.mem_cons, List.not_mem_nil, or_false] at hopc
    rcases hopc with hopc | hopc | hopc | hopc | hopc | hopc <;> rw [hopc]
    exacts [⟨.modred m, rfl, hm⟩, ⟨.modadd m, rfl, hm⟩, ⟨.modsub m, rfl, hm⟩, ⟨.modmul m, rfl, hm⟩,
      ⟨.modinv m, rfl, hm⟩, ⟨.egcd m, rfl, hm⟩]
  · simp only [List.mem_cons, List.not_mem_nil, or_false] at hopc
    rw [hmsel]
    rcases hopc with hopc | hopc | hopc | hopc | hopc | hopc | hopc <;> rw [hopc]
    exacts [⟨.nop, rfl, rfl⟩, ⟨.padd, rfl, rfl⟩, ⟨.pdbl, rfl, rfl⟩, ⟨.pmul, rfl, rfl⟩, ⟨.keygen, rfl, rfl⟩,
      ⟨.sign, rfl, rfl⟩, ⟨.verify, rfl, rfl⟩]

/-- A legal word is the word of a command. -/
theorem exists_encode_of_legal {w : Word32} (h : illegalWord w = false) : ∃ i, w = encode i := by
  have hmsel : (CommandFields.ofWord w).msel < 4 := Nat.mod_lt _ (by decide)
  obtain ⟨i, hopcode, hbits⟩ := CommandFields.exists_instr hmsel h
  have hrsv := (CommandFields.legal_cases h).1
  refine ⟨i, BitVec.eq_of_toNat_eq ?_⟩
  rw [toNat_encode, hopcode, hbits]
  simp only [CommandFields.ofWord] at hrsv ⊢
  omega

/-- The commands that draw are those of the opcodes 0x20 and 0x21 (30_encoding.md R94). -/
theorem drawsEntropy_iff_opcode (i : Instr) :
    drawsEntropy i = true ↔ (encode i).toNat % 256 = 0x20 ∨ (encode i).toNat % 256 = 0x21 := by
  cases i with
  | modred m | modadd m | modsub m | modmul m | modinv m | egcd m => cases m <;> decide
  | nop | padd | pdbl | pmul | keygen | sign | verify => decide

/-- A legal CMD write on an idle block (10_state.md R31). -/
theorem State.busStep_legal_cmd {s : State} {w : Word32} (hidle : s.phase = .idle) (h : illegalWord w = false) :
    s.busStep (wr 0x010 w) =
      { s with cmd := w, phase := .run, status := { done := false, wbusy := s.status.wbusy, err := none },
               retryCnt := if w.toNat % 256 = 0x20 ∨ w.toNat % 256 = 0x21 then 0 else s.retryCnt,
               reply := some (.write .ok) } := by
  obtain ⟨i, rfl⟩ := exists_encode_of_legal h
  rw [State.busStep_wr_stored (o := 0x010) hidle (by omega) (by omega) rfl (s.writeSlot_cmd _),
    State.acceptCommand_legal (decode_encode i)]
  simp only [drawsEntropy_iff_opcode]

/-- An illegal CMD write on an idle block (43_control_commands.md R201). -/
theorem State.busStep_illegal_cmd {s : State} {w : Word32} (hidle : s.phase = .idle) (h : illegalWord w = true) :
    s.busStep (wr 0x010 w) =
      { s with cmd := w, status := { done := true, wbusy := s.status.wbusy, err := some .illegal },
               reply := some (.write .ok) } := by
  obtain ⟨e, he⟩ := decode_illegal h
  rw [State.busStep_wr_stored (o := 0x010) hidle (by omega) (by omega) rfl (s.writeSlot_cmd _),
    State.acceptCommand_illegal he]

/-- The step that takes an illegal CMD write on an idle block. -/
theorem step_illegal_cmd {s : State} {w : Word32} {rest : List Turn} (hidle : s.phase = .idle)
    (hturns : s.turns = .bus (wr 0x010 w) :: rest) (h : illegalWord w = true) :
    step s = .next { s with cmd := w, status := { done := true, wbusy := s.status.wbusy, err := some .illegal },
                            reply := some (.write .ok), turns := rest } := by
  rw [step_bus hturns, State.busStep_illegal_cmd (s := { s with turns := rest }) hidle h]

/-- Settles O4: the start, the illegal word, and the example of R201, which is a case of the latter. -/
theorem cmdWriteStartsOrEndsTheCommand : Obligations.CmdWriteStartsOrEndsTheCommand := by
  refine ⟨fun s w => State.busStep_legal_cmd, fun s w rest hidle hturns h => ?_, ?_⟩
  · exact ⟨_, step_illegal_cmd hidle hturns h, rfl, State.busy_idle hidle, Bool.true_and _⟩
  · exact ⟨_, step_illegal_cmd (s := { State.reset with turns := [.bus (wr 0x010 0x00000307)] }) rfl rfl (by decide),
      by decide, rfl⟩

theorem exec_keygen_of_config {s : State} (h : s.cfgSig = true) : exec .keygen s = .next (s.withDraw s.n keygenAttempt) :=
  congrArg _ (if_neg (by simp [h]))

theorem exec_sign_of_checks {s : State} (h : s.cfgSig = true) (hpos : 0 < s.nat .d) (hlt : s.nat .d < s.nat .q) :
    exec .sign s = .next (s.withDraw Config.nonceBytes signAttempt) := by
  have hrange : ¬(s.nat .d = 0 ∨ s.nat .q ≤ s.nat .d) := by omega
  simp only [exec, execSign, h, hrange, Bool.true_eq_false, if_false]

/-- Settles O47: with the checks passed and no answer, the draw only sets its request. -/
theorem requestWaitsForAnAnswer : Obligations.RequestWaitsForAnAnswer := by
  intro s hconfig hnone
  refine ⟨?keygen, fun hpos hlt => ?sign⟩
  case keygen => rw [exec_keygen_of_config hconfig, State.withDraw_none hnone]
  case sign =>
    rw [exec_sign_of_checks hconfig hpos hlt, State.withDraw_none hnone]
    rfl

end Sys2Proof.Machine

/-! What a command does not read (10_state.md R22, R44; 30_encoding.md R93; 42_signature_engine.md R173, R181). Two states
that are alike but for one part, and that agree on the operands of a command, are alike but for that part after it. -/

namespace Sys2Proof.Machine

theorem State.retry_capped {s : State} (h : s.attemptMax ≠ 0 ∧ s.attemptMax.toNat ≤ s.countedRetry.toNat) :
    s.retry = ({ s with retryCnt := s.countedRetry }).raiseError .retryLimit :=
  if_pos h

theorem State.retry_uncapped {s : State} (h : ¬(s.attemptMax ≠ 0 ∧ s.attemptMax.toNat ≤ s.countedRetry.toNat)) :
    s.retry = { s with retryCnt := s.countedRetry } :=
  if_neg h

/-- A part of the state that a command may leave unread. -/
inductive Part where
  | reg (r : BN)
  | digbuf
  | sigbuf

/-- t is s but for the value of the part. -/
def Part.Alike : Part → State → State → Prop
  | .reg r, s, t => ∃ x, t = s.setBn r x
  | .digbuf, s, t => ∃ d, t = { s with digbuf := d }
  | .sigbuf, s, t => ∃ b, t = { s with sigbuf := b }

section Alike

variable {p : Part} {s t : State}

theorem Part.Alike.ctrl (h : p.Alike s t) : t.ctrl = s.ctrl := by
  cases p <;> obtain ⟨x, rfl⟩ := h <;> rfl

theorem Part.Alike.pflags (h : p.Alike s t) : t.pflags = s.pflags := by
  cases p <;> obtain ⟨x, rfl⟩ := h <;> rfl

theorem Part.Alike.sigLen (h : p.Alike s t) : t.sigLen = s.sigLen := by
  cases p <;> obtain ⟨x, rfl⟩ := h <;> rfl

theorem Part.Alike.attemptMax (h : p.Alike s t) : t.attemptMax = s.attemptMax := by
  cases p <;> obtain ⟨x, rfl⟩ := h <;> rfl

theorem Part.Alike.countedRetry (h : p.Alike s t) : t.countedRetry = s.countedRetry := by
  cases p <;> obtain ⟨x, rfl⟩ := h <;> rfl

theorem Part.Alike.answers (h : p.Alike s t) : t.answers = s.answers := by
  cases p <;> obtain ⟨x, rfl⟩ := h <;> rfl

/-- An update that reads no part, and leaves each part as it is or overwrites it, keeps states alike. -/
theorem Part.Alike.map {f : State → State} (hreg : ∀ s r x, ∃ y, f (s.setBn r x) = (f s).setBn r y)
    (hdig : ∀ s d, ∃ d', f { s with digbuf := d } = { f s with digbuf := d' })
    (hsig : ∀ s b, ∃ b', f { s with sigbuf := b } = { f s with sigbuf := b' }) (h : p.Alike s t) :
    p.Alike (f s) (f t) := by
  cases p with
  | reg r => obtain ⟨x, rfl⟩ := h; exact hreg s r x
  | digbuf => obtain ⟨d, rfl⟩ := h; exact hdig s d
  | sigbuf => obtain ⟨b, rfl⟩ := h; exact hsig s b

theorem Part.Alike.setNat (h : p.Alike s t) (r : BN) (v : Nat) : p.Alike (s.setNat r v) (t.setNat r v) := by
  refine h.map (f := fun u => u.setNat r v) (fun u r' x => ?_) (fun _ d => ⟨d, rfl⟩) (fun _ b => ⟨b, rfl⟩)
  by_cases hr : r' = r
  · subst hr
    exact ⟨BitVec.ofNat 512 v, by simp only [State.setNat, State.setBn_setBn_self]⟩
  · exact ⟨x, u.setBn_comm hr _ _⟩

theorem Part.Alike.withRflags (h : p.Alike s t) (f : RFlags) :
    p.Alike { s with rflags := f } { t with rflags := f } :=
  h.map (f := fun u => { u with rflags := f }) (fun _ _ x => ⟨x, rfl⟩) (fun _ d => ⟨d, rfl⟩) (fun _ b => ⟨b, rfl⟩)

theorem Part.Alike.withSignature (h : p.Alike s t) (buf : Vector Byte 128) (len : BitVec 8) (f : RFlags) :
    p.Alike { s with sigbuf := buf, sigLen := len, rflags := f } { t with sigbuf := buf, sigLen := len, rflags := f } :=
  h.map (f := fun u => { u with sigbuf := buf, sigLen := len, rflags := f }) (fun _ _ x => ⟨x, rfl⟩)
    (fun _ d => ⟨d, rfl⟩) (fun _ _ => ⟨buf, rfl⟩)

theorem Part.Alike.withPending (h : p.Alike s t) (l : Option Nat) :
    p.Alike { s with pending := l } { t with pending := l } :=
  h.map (f := fun u => { u with pending := l }) (fun _ _ x => ⟨x, rfl⟩) (fun _ d => ⟨d, rfl⟩) (fun _ b => ⟨b, rfl⟩)

theorem Part.Alike.afterDraw (h : p.Alike s t) (rest : List Answer) : p.Alike (s.afterDraw rest) (t.afterDraw rest) :=
  h.map (f := fun u => u.afterDraw rest) (fun _ _ x => ⟨x, rfl⟩) (fun _ d => ⟨d, rfl⟩) (fun _ b => ⟨b, rfl⟩)

theorem Part.Alike.endOk (h : p.Alike s t) : p.Alike s.endOk t.endOk :=
  h.map (fun _ _ x => ⟨x, rfl⟩) (fun _ d => ⟨d, rfl⟩) (fun _ b => ⟨b, rfl⟩)

theorem Part.Alike.raiseError (h : p.Alike s t) (e : Err) : p.Alike (s.raiseError e) (t.raiseError e) :=
  h.map (f := fun u => u.raiseError e) (fun _ _ x => ⟨x, rfl⟩) (fun _ d => ⟨d, rfl⟩) (fun _ b => ⟨b, rfl⟩)

theorem Part.Alike.withRetryCnt (h : p.Alike s t) (c : BitVec 32) :
    p.Alike { s with retryCnt := c } { t with retryCnt := c } :=
  h.map (f := fun u => { u with retryCnt := c }) (fun _ _ x => ⟨x, rfl⟩) (fun _ d => ⟨d, rfl⟩) (fun _ b => ⟨b, rfl⟩)

/-- A retry reads RETRY_CNT and ATTEMPT_MAX alone. -/
theorem Part.Alike.retry (h : p.Alike s t) : p.Alike s.retry t.retry := by
  have hcounted := h.withRetryCnt s.countedRetry
  by_cases hcap : s.attemptMax ≠ 0 ∧ s.attemptMax.toNat ≤ s.countedRetry.toNat
  · have hcap' : t.attemptMax ≠ 0 ∧ t.attemptMax.toNat ≤ t.countedRetry.toNat := by
      rwa [h.attemptMax, h.countedRetry]
    rw [State.retry_capped hcap, State.retry_capped hcap', h.countedRetry]
    exact hcounted.raiseError .retryLimit
  · have hcap' : ¬(t.attemptMax ≠ 0 ∧ t.attemptMax.toNat ≤ t.countedRetry.toNat) := by
      rwa [h.attemptMax, h.countedRetry]
    rw [State.retry_uncapped hcap, State.retry_uncapped hcap', h.countedRetry]
    exact hcounted

/-- Two endings of the same kind, with commits that are alike. -/
def Part.EndingsAlike (p : Part) : Ending → Ending → Prop
  | .commit c, .commit c' => p.Alike c c'
  | .raise e, .raise e' => e' = e
  | .retry, .retry => True
  | _, _ => False

theorem Part.Alike.finish {E E' : Ending} (h : p.Alike s t) (hE : p.EndingsAlike E E') :
    p.Alike (s.finish E) (t.finish E') := by
  cases E with
  | commit c =>
    cases E' with
    | commit c' => exact Part.Alike.endOk hE
    | raise e' | retry => exact hE.elim
  | raise e =>
    cases E' with
    | raise e' =>
      obtain rfl : e' = e := hE
      exact h.raiseError e'
    | commit c' | retry => exact hE.elim
  | retry =>
    cases E' with
    | retry => exact h.retry
    | commit c' | raise e' => exact hE.elim

/-- A draw reads the waiting answers, and nothing else but what its attempt reads. -/
theorem Part.Alike.withDraw {attempt : List Byte → State → Ending} (h : p.Alike s t) (len : Nat)
    (hattempt : ∀ b rest, p.EndingsAlike (attempt b (s.afterDraw rest)) (attempt b (t.afterDraw rest))) :
    p.Alike (s.withDraw len attempt) (t.withDraw len attempt) := by
  match hs : s.answers with
  | [] =>
    rw [State.withDraw_none hs, State.withDraw_none (h.answers.trans hs)]
    exact h.withPending (some len)
  | .fail :: rest =>
    rw [State.withDraw_fail hs, State.withDraw_fail (h.answers.trans hs)]
    exact (h.afterDraw rest).raiseError .entropy
  | .bytes b :: rest =>
    rw [State.withDraw_bytes hs, State.withDraw_bytes (h.answers.trans hs)]
    exact (h.afterDraw rest).finish (hattempt _ rest)

end Alike

/-! Operands assembled from equal registers are equal. -/

section Agree

variable {s t : State}

/-- The curve a command works on is the same. -/
structure CurveAgree (s t : State) : Prop where
  ctrl : t.ctrl = s.ctrl
  p : t.nat .p = s.nat .p
  a : t.nat .a = s.nat .a

/-- The curve, the subgroup and the base point are the same. -/
structure SignatureAgree (s t : State) : Prop extends CurveAgree s t where
  q : t.nat .q = s.nat .q
  gx : t.nat .gx = s.nat .gx
  gy : t.nat .gy = s.nat .gy

theorem CurveAgree.cfgCurve (h : CurveAgree s t) : t.cfgCurve = s.cfgCurve := by
  simp only [State.cfgCurve, h.ctrl, h.p, h.a]

theorem CurveAgree.curveExp (h : CurveAgree s t) : t.curveExp = s.curveExp := by
  funext k X
  simp only [State.curveExp, h.p, h.a]

theorem SignatureAgree.cfgSig (h : SignatureAgree s t) : t.cfgSig = s.cfgSig := by
  simp only [State.cfgSig, h.cfgCurve, h.ctrl, h.p, h.q, h.gx, h.gy]

theorem SignatureAgree.basePoint (h : SignatureAgree s t) : t.basePoint = s.basePoint := by
  simp only [State.basePoint, h.gx, h.gy]

theorem n_congr (h : t.ctrl = s.ctrl) : t.n = s.n := by
  simp only [State.n, h]

theorem modulus_eq_nat (s : State) (m : MSel) : s.modulus m = s.nat (mselBn m) := by
  cases m <;> rfl

/-- Point 1 depends on its registers only while P1INF is 0 (10_state.md R36). -/
theorem pt1_congr (hflags : t.pflags = s.pflags) (h : ∀ r ∈ s.point1Bn, t.nat r = s.nat r) : t.pt1 = s.pt1 := by
  unfold State.pt1
  unfold State.point1Bn at h
  rw [hflags]
  by_cases hinf : s.pflags.p1inf = true
  · rw [if_pos hinf, if_pos hinf]
  · rw [if_neg hinf] at h
    rw [if_neg hinf, if_neg hinf, h .p1x (by simp), h .p1y (by simp)]

/-- Point 2 depends on its registers only while P2INF is 0 (10_state.md R36). -/
theorem pt2_congr (hflags : t.pflags = s.pflags) (h : ∀ r ∈ s.point2Bn, t.nat r = s.nat r) : t.pt2 = s.pt2 := by
  unfold State.pt2
  unfold State.point2Bn at h
  rw [hflags]
  by_cases hinf : s.pflags.p2inf = true
  · rw [if_pos hinf, if_pos hinf]
  · rw [if_neg hinf] at h
    rw [if_neg hinf, if_neg hinf, h .p2x (by simp), h .p2y (by simp)]

/-- The digest value depends on the first n bytes of DIGBUF (42_signature_engine.md R173). -/
theorem digestE_congr (hctrl : t.ctrl = s.ctrl) (hq : t.nat .q = s.nat .q)
    (hbytes : t.digbuf.toList.take s.n = s.digbuf.toList.take s.n) : t.digestE = s.digestE := by
  simp only [State.digestE, n_congr hctrl, hctrl, hq, hbytes]

/-- The signature halves depend on the first 2n bytes of SIGBUF (42_signature_engine.md R181). -/
theorem sigHalves_congr (hctrl : t.ctrl = s.ctrl)
    (hbytes : t.sigbuf.toList.take (2 * s.n) = s.sigbuf.toList.take (2 * s.n)) : t.sigR = s.sigR ∧ t.sigS = s.sigS := by
  have hfirst (l : List Byte) : l.take s.n = (l.take (2 * s.n)).take s.n := by
    rw [List.take_take, Nat.min_eq_left (by omega)]
  have hsecond (l : List Byte) : (l.drop s.n).take s.n = (l.take (2 * s.n)).drop s.n := by
    rw [List.drop_take, show 2 * s.n - s.n = s.n by omega]
  constructor
  · rw [State.sigR, State.sigR, n_congr hctrl, hfirst, hbytes, ← hfirst]
  · rw [State.sigS, State.sigS, n_congr hctrl, hsecond, hbytes, ← hsecond]

end Agree

/-! The endings of the commands, from states that are alike and agree on the operands. -/

section Endings

variable {p : Part} {s t : State}

theorem mruEnding_alike (h : p.Alike s t) {m : MSel} (hm : t.nat (mselBn m) = s.nat (mselBn m)) {f g : Nat → Nat}
    (hf : ∀ M, g M = f M) : p.EndingsAlike (mruEnding m s f) (mruEnding m t g) := by
  obtain rfl : g = f := funext hf
  simp only [mruEnding, modulus_eq_nat, hm]
  split
  · exact rfl
  · exact (h.setNat .res0 _).withRflags {}

theorem modinvEnding_alike (h : p.Alike s t) {m : MSel} (hm : t.nat (mselBn m) = s.nat (mselBn m))
    (ha : t.nat .opa = s.nat .opa) : p.EndingsAlike (modinvEnding m s) (modinvEnding m t) := by
  simp only [modinvEnding, modulus_eq_nat, hm, ha]
  split
  · exact rfl
  · cases inv (s.nat .opa) (s.nat (mselBn m)) with
    | error e => exact rfl
    | ok u => exact (h.setNat .res0 u).withRflags {}

theorem egcdCommit_alike (h : p.Alike s t) {m : MSel} (hm : t.nat (mselBn m) = s.nat (mselBn m))
    (ha : t.nat .opa = s.nat .opa) : p.Alike (egcdCommit m s) (egcdCommit m t) := by
  simp only [egcdCommit, modulus_eq_nat, hm, ha]
  exact (((h.setNat .res0 _).setNat .res1 _).setNat .res2 _).withRflags _

theorem pointEnding_alike (h : p.Alike s t) (R : Except Err Point) :
    p.EndingsAlike (pointEnding s R) (pointEnding t R) := by
  match R with
  | .error e => exact rfl
  | .ok .infinity => exact ((h.setNat .res0 0).setNat .res1 0).withRflags (.point true)
  | .ok (.aff x y) => exact ((h.setNat .res0 x).setNat .res1 y).withRflags (.point false)

theorem onePointEnding_alike (h : p.Alike s t) (hcurve : CurveAgree s t) (hpt : t.pt1 = s.pt1) (R : Except Err Point) :
    p.EndingsAlike (onePointEnding s R) (onePointEnding t R) := by
  simp only [onePointEnding, hcurve.cfgCurve, hcurve.p, hpt]
  split
  · exact rfl
  · split
    · exact rfl
    · exact pointEnding_alike h R

theorem paddEnding_alike (h : p.Alike s t) (hcurve : CurveAgree s t) (hpt1 : t.pt1 = s.pt1) (hpt2 : t.pt2 = s.pt2) :
    p.EndingsAlike (paddEnding s) (paddEnding t) := by
  simp only [paddEnding, hcurve.cfgCurve, hcurve.p, hcurve.a, hpt1, hpt2]
  split
  · exact rfl
  · split
    · exact rfl
    · split
      · exact rfl
      · exact pointEnding_alike h _

theorem keygenAttempt_alike (h : p.Alike s t) (hsig : SignatureAgree s t) (b : List Byte) :
    p.EndingsAlike (keygenAttempt b s) (keygenAttempt b t) := by
  simp only [keygenAttempt, hsig.q, hsig.curveExp, hsig.basePoint]
  split
  · trivial
  · match s.curveExp (intBE b.reverse % s.nat .q) s.basePoint with
    | .error e => exact rfl
    | .ok .infinity => exact rfl
    | .ok (.aff x y) => exact (((h.setNat .res0 _).setNat .res1 x).setNat .res2 y).withRflags {}

theorem signCommit_alike (h : p.Alike s t) (r sg : Nat) : p.Alike (s.signCommit r sg) (t.signCommit r sg) := by
  unfold State.signCommit
  rw [n_congr h.ctrl]
  exact ((h.setNat .res0 r).setNat .res1 sg).withSignature (sigBytes s.n r sg) (BitVec.ofNat 8 (2 * s.n)) {}

theorem signAttempt_alike (h : p.Alike s t) (hsig : SignatureAgree s t) (hd : t.nat .d = s.nat .d)
    (he : t.digestE = s.digestE) (b : List Byte) : p.EndingsAlike (signAttempt b s) (signAttempt b t) := by
  simp only [signAttempt, hsig.q, hsig.curveExp, hsig.basePoint, hd, he]
  split
  · trivial
  · match s.curveExp (intBE b % s.nat .q) s.basePoint with
    | .error e => exact rfl
    | .ok .infinity => exact rfl
    | .ok (.aff x y) =>
      dsimp only
      split
      · trivial
      · split
        · trivial
        · exact signCommit_alike h _ _

theorem verifyEnding_alike (h : p.Alike s t) (hsig : SignatureAgree s t) (hx : t.nat .pubx = s.nat .pubx)
    (hy : t.nat .puby = s.nat .puby) (he : t.digestE = s.digestE) (hr : t.sigR = s.sigR) (hs : t.sigS = s.sigS) :
    p.EndingsAlike (verifyEnding s) (verifyEnding t) := by
  have hpoint : t.verifyPoint = s.verifyPoint := by
    funext r sg
    simp only [State.verifyPoint, State.pubPoint, he, hsig.q, hsig.curveExp, hsig.basePoint, hsig.p, hsig.a, hx, hy]
  have hcompare : t.verifyCompare = s.verifyCompare := by
    funext r C
    cases C with
    | infinity => rfl
    | aff x y => simp only [State.verifyCompare, h.ctrl, hsig.q]
  simp only [verifyEnding, hsig.cfgSig, h.sigLen, n_congr h.ctrl, hsig.p, hsig.q, hx, hy, hr, hs, hpoint, hcompare]
  split
  · exact rfl
  · split
    · exact rfl
    · split
      · exact rfl
      · split
        · exact h.withRflags _
        · cases s.verifyPoint s.sigR s.sigS with
          | error e => exact rfl
          | ok C => exact h.withRflags _

end Endings

/-- Two states agree on what a command reads: its bignum registers, for SIGN and VERIFY the digest value, and for VERIFY
the signature halves. -/
structure OperandsAgree (i : Instr) (s t : State) : Prop where
  nat : ∀ r ∈ s.readsBn i, t.nat r = s.nat r
  digest : i = .sign ∨ i = .verify → t.digestE = s.digestE
  signature : i = .verify → t.sigR = s.sigR ∧ t.sigS = s.sigS

section Exec

variable {p : Part} {i : Instr} {s t : State}

theorem OperandsAgree.curve (ho : OperandsAgree i s t) (h : p.Alike s t) (hp : .p ∈ s.readsBn i) (ha : .a ∈ s.readsBn i) :
    CurveAgree s t :=
  ⟨h.ctrl, ho.nat .p hp, ho.nat .a ha⟩

theorem OperandsAgree.subgroup (ho : OperandsAgree i s t) (h : p.Alike s t)
    (hreads : ∀ r ∈ [BN.a, .p, .q, .gx, .gy], r ∈ s.readsBn i) : SignatureAgree s t where
  ctrl := h.ctrl
  p := ho.nat .p (hreads .p (by simp))
  a := ho.nat .a (hreads .a (by simp))
  q := ho.nat .q (hreads .q (by simp))
  gx := ho.nat .gx (hreads .gx (by simp))
  gy := ho.nat .gy (hreads .gy (by simp))

/-- A command gives from both states next states that are alike. -/
def Part.ExecAlike (p : Part) (i : Instr) (s t : State) : Prop :=
  ∃ s' t', exec i s = .next s' ∧ exec i t = .next t' ∧ p.Alike s' t'

theorem Part.Alike.execAlike {E E' : Ending} (h : p.Alike s t) (hs : exec i s = .next (s.finish E))
    (ht : exec i t = .next (t.finish E')) (hE : p.EndingsAlike E E') : p.ExecAlike i s t :=
  ⟨_, _, hs, ht, h.finish hE⟩

theorem keygen_alike (h : p.Alike s t) (ho : OperandsAgree .keygen s t) : p.ExecAlike .keygen s t := by
  have hsig := ho.subgroup h (by simp [State.readsBn])
  refine ⟨_, _, rfl, rfl, ?_⟩
  rw [hsig.cfgSig, n_congr h.ctrl]
  split
  · exact h.raiseError .config
  · refine h.withDraw s.n fun b rest => keygenAttempt_alike (h.afterDraw rest) ?_ b
    exact ⟨⟨hsig.ctrl, hsig.p, hsig.a⟩, hsig.q, hsig.gx, hsig.gy⟩

theorem sign_alike (h : p.Alike s t) (ho : OperandsAgree .sign s t) : p.ExecAlike .sign s t := by
  have hsig := ho.subgroup h (by simp [State.readsBn])
  have hd := ho.nat .d (by simp [State.readsBn])
  refine ⟨_, _, rfl, rfl, ?_⟩
  rw [hsig.cfgSig, hd, hsig.q]
  split
  · exact h.raiseError .config
  · split
    · exact h.raiseError .range
    · refine h.withDraw Config.nonceBytes fun b rest => ?_
      have hsig' : SignatureAgree (s.afterDraw rest) (t.afterDraw rest) :=
        ⟨⟨hsig.ctrl, hsig.p, hsig.a⟩, hsig.q, hsig.gx, hsig.gy⟩
      exact signAttempt_alike (h.afterDraw rest) hsig' hd (ho.digest (.inl rfl)) b

/-- A command sees of the state only its operands. -/
theorem exec_alike (h : p.Alike s t) (ho : OperandsAgree i s t) : p.ExecAlike i s t := by
  cases i with
  | nop => exact h.execAlike rfl rfl h
  | modred m =>
    refine h.execAlike rfl rfl (mruEnding_alike h (ho.nat _ (by simp [State.readsBn])) fun M => ?_)
    rw [ho.nat .opa (by simp [State.readsBn])]
  | modadd m | modsub m | modmul m =>
    refine h.execAlike rfl rfl (mruEnding_alike h (ho.nat _ (by simp [State.readsBn])) fun M => ?_)
    rw [ho.nat .opa (by simp [State.readsBn]), ho.nat .opb (by simp [State.readsBn])]
  | modinv m =>
    exact h.execAlike rfl rfl
      (modinvEnding_alike h (ho.nat _ (by simp [State.readsBn])) (ho.nat .opa (by simp [State.readsBn])))
  | egcd m =>
    exact h.execAlike rfl rfl
      (egcdCommit_alike h (ho.nat _ (by simp [State.readsBn])) (ho.nat .opa (by simp [State.readsBn])))
  | padd =>
    have hcurve := ho.curve h (by simp [State.readsBn]) (by simp [State.readsBn])
    have hpt1 := pt1_congr h.pflags fun r hr => ho.nat r (by simp [State.readsBn, hr])
    have hpt2 := pt2_congr h.pflags fun r hr => ho.nat r (by simp [State.readsBn, hr])
    exact h.execAlike rfl rfl (paddEnding_alike h hcurve hpt1 hpt2)
  | pdbl =>
    have hcurve := ho.curve h (by simp [State.readsBn]) (by simp [State.readsBn])
    have hpt1 := pt1_congr h.pflags fun r hr => ho.nat r (by simp [State.readsBn, hr])
    refine h.execAlike rfl (E' := onePointEnding t (pointDbl (s.nat .p) (s.nat .a) s.pt1)) ?_
      (onePointEnding_alike h hcurve hpt1 _)
    simp only [exec, execPdbl, hcurve.p, hcurve.a, hpt1]
  | pmul =>
    have hcurve := ho.curve h (by simp [State.readsBn]) (by simp [State.readsBn])
    have hpt1 := pt1_congr h.pflags fun r hr => ho.nat r (by simp [State.readsBn, hr])
    have hk := ho.nat .k (by simp [State.readsBn])
    refine h.execAlike rfl (E' := onePointEnding t (pointExp (s.nat .p) (s.nat .a) (s.nat .k) s.pt1)) ?_
      (onePointEnding_alike h hcurve hpt1 _)
    simp only [exec, execPmul, hcurve.p, hcurve.a, hk, hpt1]
  | keygen => exact keygen_alike h ho
  | sign => exact sign_alike h ho
  | verify =>
    have hsig := ho.subgroup h (by simp [State.readsBn])
    obtain ⟨hr, hs⟩ := ho.signature rfl
    exact h.execAlike rfl rfl
      (verifyEnding_alike h hsig (ho.nat .pubx (by simp [State.readsBn])) (ho.nat .puby (by simp [State.readsBn]))
        (ho.digest (.inr rfl)) hr hs)

/-- The next state of the one gives the next state of the other. -/
theorem exec_next_alike {s' : State} (h : p.Alike s t) (ho : OperandsAgree i s t) (hs : exec i s = .next s') :
    ∃ t', exec i t = .next t' ∧ p.Alike s' t' := by
  obtain ⟨u, t', hu, ht, hut⟩ := exec_alike h ho
  rw [hs] at hu
  cases hu
  exact ⟨t', ht, hut⟩

end Exec

/-- A register outside the read set of a command is no operand. -/
theorem operandsAgree_setBn {i : Instr} {s : State} {r : BN} (v : Big) (hr : r ∉ s.readsBn i) :
    OperandsAgree i s (s.setBn r v) where
  nat r' hr' := State.nat_setBn_of_ne s v fun heq => hr (heq ▸ hr')
  digest hi := by
    refine digestE_congr rfl (State.nat_setBn_of_ne s v ?_) rfl
    rintro rfl
    rcases hi with rfl | rfl <;> simp [State.readsBn] at hr
  signature _ := ⟨rfl, rfl⟩

/-- Settles O15: the states are alike but for r before the command, and so they are after it. -/
theorem commandsReadOnlyTheirOperands : Obligations.CommandsReadOnlyTheirOperands := by
  intro i s t r v hr h
  obtain ⟨_, ht', x, rfl⟩ := exec_next_alike (p := .reg r) ⟨v, rfl⟩ (operandsAgree_setBn v hr) h
  exact ⟨x, ht'⟩

theorem operandsAgree_digbuf (i : Instr) {s : State} {d : Vector Byte 64}
    (hd : d.toList.take s.n = s.digbuf.toList.take s.n) : OperandsAgree i s { s with digbuf := d } where
  nat _ _ := rfl
  digest _ := digestE_congr rfl rfl hd
  signature _ := ⟨rfl, rfl⟩

theorem operandsAgree_sigbuf {s : State} {b : Vector Byte 128}
    (hb : b.toList.take (2 * s.n) = s.sigbuf.toList.take (2 * s.n)) :
    OperandsAgree .verify s { s with sigbuf := b } where
  nat _ _ := rfl
  digest _ := rfl
  signature _ := sigHalves_congr rfl hb

/-- Settles O16: the states are alike but for the buffer, which the command keeps. -/
theorem bufferTailsAreNotRead : Obligations.BufferTailsAreNotRead := by
  refine ⟨fun i s t d hd h => ?_, fun s t b hb h => ?_⟩
  · obtain ⟨_, ht', d', rfl⟩ := exec_next_alike (p := .digbuf) ⟨d, rfl⟩ (operandsAgree_digbuf i hd) h
    obtain rfl : d' = d := (exec_frame ht').inputs.digbuf
    exact ht'
  · obtain ⟨_, ht', b', rfl⟩ := exec_next_alike (p := .sigbuf) ⟨b, rfl⟩ (operandsAgree_sigbuf hb) h
    obtain rfl : b' = b := ((exec_frame ht').signature (by decide)).1
    exact ht'

end Sys2Proof.Machine

/-! The bus window as memory (20_memory.md R61 to R63, R68, R71): transactions that are not served, reserved offsets,
and the words of the bignum registers and of the two buffers. -/

namespace Sys2Proof.Machine

/-! Transactions that are not served (20_memory.md R61). -/

theorem BusTxn.served_read_iff (off : Offset) (size : Nat) :
    (BusTxn.read off size).served = true ↔ size = 4 ∧ off.toNat % 4 = 0 := by
  simp [BusTxn.served]

theorem BusTxn.served_write_iff (off : Offset) (size : Nat) (strobes : BitVec 4) (v : Word32) :
    (BusTxn.write off size strobes v).served = true ↔ size = 4 ∧ off.toNat % 4 = 0 ∧ strobes = 0xF := by
  simp [BusTxn.served, and_assoc]

theorem State.busStep_read_unserved (s : State) {off : Offset} {size : Nat}
    (h : ¬ (BusTxn.read off size).served = true) :
    s.busStep (.read off size) = { s with reply := some (.read 0 .error) } :=
  if_neg h

theorem State.busStep_write_unserved (s : State) {off : Offset} {size : Nat} {strobes : BitVec 4} {v : Word32}
    (h : ¬ (BusTxn.write off size strobes v).served = true) :
    s.busStep (.write off size strobes v) = { s with reply := some (.write .error) } :=
  if_neg h

/-- A read changes the reply alone, served or not. -/
theorem State.busStep_read_frame (s : State) (off : Offset) (size : Nat) :
    ∃ r, s.busStep (.read off size) = { s with reply := some r } := by
  by_cases hserved : (BusTxn.read off size).served = true
  · exact ⟨_, if_pos hserved⟩
  · exact ⟨_, s.busStep_read_unserved hserved⟩

/-- Settles O52: each of the conditions contradicts being served. -/
theorem readsAndUnservedTransactionsChangeNothing : Obligations.ReadsAndUnservedTransactionsChangeNothing := by
  intro s off size strobes v
  refine ⟨fun hbad => s.busStep_read_unserved ?_, fun hbad => s.busStep_write_unserved ?_,
    s.busStep_read_frame off size⟩
  · rw [BusTxn.served_read_iff, not_and_or]
    exact hbad
  · rw [BusTxn.served_write_iff, not_and_or, not_and_or]
    exact hbad

/-- Settles O54: the offsets hold the reserved slot, which reads 0 and keeps the block. -/
theorem reservedOffsetsReadZeroAndIgnoreWrites : Obligations.ReservedOffsetsReadZeroAndIgnoreWrites := by
  intro s o v ha ho
  have hslot : slotOf (BitVec.ofNat 12 o) = .reserved := slotOf_reserved ho
  exact ⟨State.busStep_rd_slot s (by omega) ha hslot, State.busStep_wr_ignored (by omega) ha hslot rfl⟩

/-! A bignum with one word replaced, as a number (20_memory.md R62). -/

theorem testBit_setBigWord (x : Big) {j : Nat} (hj : j < 16) (v : Word32) (k : Nat) :
    (setBigWord x (Fin.ofNat 16 j) v).toNat.testBit k =
      if 32 * j ≤ k ∧ k < 32 * j + 32 then v.toNat.testBit (k - 32 * j) else x.toNat.testBit k :=
  getLsbD_setBigWord x hj v k

/-- The bits below word j are kept. -/
theorem setBigWord_mod (x : Big) {j : Nat} (hj : j < 16) (v : Word32) :
    (setBigWord x (Fin.ofNat 16 j) v).toNat % 2 ^ (32 * j) = x.toNat % 2 ^ (32 * j) := by
  apply Nat.eq_of_testBit_eq
  intro k
  rw [Nat.testBit_mod_two_pow, Nat.testBit_mod_two_pow, testBit_setBigWord x hj]
  by_cases hk : k < 32 * j
  · rw [if_neg (by omega)]
  · simp [hk]

/-- The bits above word j are kept. -/
theorem setBigWord_div (x : Big) {j : Nat} (hj : j < 16) (v : Word32) :
    (setBigWord x (Fin.ofNat 16 j) v).toNat / 2 ^ (32 * j) / 2 ^ 32 = x.toNat / 2 ^ (32 * j) / 2 ^ 32 := by
  apply Nat.eq_of_testBit_eq
  intro k
  simp only [Nat.testBit_div_two_pow]
  rw [testBit_setBigWord x hj, if_neg (by omega)]

/-- The words of a bignum after word j is replaced: the new word there, the old ones elsewhere. -/
theorem setBigWord_word (x : Big) {j : Nat} (hj : j < 16) (v : Word32) (i : Nat) :
    (setBigWord x (Fin.ofNat 16 j) v).toNat / 2 ^ (32 * i) % 2 ^ 32 =
      if i = j then v.toNat else x.toNat / 2 ^ (32 * i) % 2 ^ 32 := by
  apply Nat.eq_of_testBit_eq
  intro k
  rw [Nat.testBit_mod_two_pow, Nat.testBit_div_two_pow, testBit_setBigWord x hj]
  by_cases hk : k < 32
  · by_cases hi : i = j
    · subst hi
      rw [if_pos (by omega), if_pos rfl, show k + 32 * i - 32 * i = k by omega]
      simp [hk]
    · rw [if_neg (by omega), if_neg hi, Nat.testBit_mod_two_pow, Nat.testBit_div_two_pow]
  · rw [decide_eq_false hk, Bool.false_and]
    split
    · exact (BitVec.getLsbD_of_ge v k (by omega)).symm
    · rw [Nat.testBit_mod_two_pow, decide_eq_false hk, Bool.false_and]

/-- A number as its bits below word j, word j, and the bits above. -/
theorem nat_eq_around_word (n j : Nat) :
    n = n % 2 ^ (32 * j) + 2 ^ (32 * j) * (n / 2 ^ (32 * j) % 2 ^ 32 + 2 ^ 32 * (n / 2 ^ (32 * j) / 2 ^ 32)) := by
  rw [Nat.mod_add_div, Nat.mod_add_div]

/-- The formula of R62: the old word leaves the sum and the new one enters it. -/
theorem toNat_setBigWord (x : Big) {j : Nat} (hj : j < 16) (v : Word32) :
    ((setBigWord x (Fin.ofNat 16 j) v).toNat : Int) =
      x.toNat - (x.toNat / 2 ^ (32 * j) % 2 ^ 32 : Nat) * 2 ^ (32 * j) + v.toNat * 2 ^ (32 * j) := by
  have hlow := setBigWord_mod x hj v
  have hword := setBigWord_word x hj v j
  have hhigh := setBigWord_div x hj v
  rw [if_pos rfl] at hword
  have hold := nat_eq_around_word x.toNat j
  have hnew := nat_eq_around_word (setBigWord x (Fin.ofNat 16 j) v).toNat j
  rw [hlow, hword, hhigh] at hnew
  zify at hold hnew ⊢
  linear_combination hnew - hold

/-! The words of the bignum registers and of the buffers on the bus. -/

/-- The words of the bignum registers lie in the window, at aligned offsets (20_memory.md R62, R67). -/
theorem BN.wordOffset_served (r : BN) {j : Nat} (hj : j < 16) : r.base + 4 * j < 4096 ∧ (r.base + 4 * j) % 4 = 0 := by
  have hr := r.index.isLt
  unfold BN.base
  omega

/-- Settles O55: the slot of the word, with the slice a read returns and the formula for a write. -/
theorem bignumWordsAreSlices : Obligations.BignumWordsAreSlices := by
  intro s r j hj
  obtain ⟨hlt, ha⟩ := r.wordOffset_served hj
  refine ⟨?read, fun v hidle hwritable => ⟨setBigWord (s.bn r) (Fin.ofNat 16 j) v, ?formula, ?write, ?others⟩⟩
  case read =>
    rw [State.busStep_rd_slot s hlt ha (slotOf_bn r hj), State.readSlot, bigWord_eq _ hj, State.toNat_bn]
  case formula => exact toNat_setBigWord (s.bn r) hj v
  case write =>
    exact State.busStep_wr_stored hidle hlt ha (slotOf_bn r hj) (s.writeSlot_bn v (by simp [hwritable]) _)
  case others =>
    intro i _ hne
    rw [setBigWord_word _ hj, if_neg hne, State.toNat_bn]

/-- Settles O56: the slot of each word, with the byte lanes of a word read and of a word replaced. -/
theorem bufferWordsAreByteLanes : Obligations.BufferWordsAreByteLanes := by
  intro s
  refine ⟨fun w hw => ⟨bufWord s.digbuf w, ?_, fun j h hj => extractLsb'_bufWord _ w hj h⟩,
    fun w hw => ⟨bufWord s.sigbuf w, ?_, fun j h hj => extractLsb'_bufWord _ w hj h⟩,
    fun hidle w v hw => ⟨setBufWord s.digbuf w v, ?_, getElem_setBufWord _ w v⟩,
    fun hidle w v hw => ⟨setBufWord s.sigbuf w v, ?_, getElem_setBufWord _ w v⟩⟩
  · rw [State.busStep_rd_slot s (by omega) (by omega) (slotOf_digbuf hw), State.readSlot, val_ofNat_of_lt hw]
  · rw [State.busStep_rd_slot s (by omega) (by omega) (slotOf_sigbuf hw), State.readSlot, val_ofNat_of_lt hw]
  · rw [State.busStep_wr_stored hidle (by omega) (by omega) (slotOf_digbuf hw) (s.writeSlot_digbuf v _),
      val_ofNat_of_lt hw]
  · rw [State.busStep_wr_stored hidle (by omega) (by omega) (slotOf_sigbuf hw) (s.writeSlot_sigbuf v _),
      val_ofNat_of_lt hw]

end Sys2Proof.Machine

/-! Decoder and encoder (30_encoding.md R95, R96, R104). -/

namespace Sys2Proof.Machine

/-- Settles O1: the decoder reads only encodings (`eq_encode_of_decode`), and every encoding back (`decode_encode`). -/
theorem decodeAndEncodeAgree : Obligations.DecodeAndEncodeAgree := by
  intro w i
  constructor
  · exact eq_encode_of_decode
  · rintro rfl
    exact decode_encode i

/-- Settles O2: a legal word is the word of a command, which the decoder reads; an illegal one selects no row. -/
theorem decoderRefusesExactlyIllegalWords : Obligations.DecoderRefusesExactlyIllegalWords := by
  intro w
  constructor
  · rintro ⟨e, hrefused⟩
    by_contra hlegal
    obtain ⟨i, rfl⟩ := exists_encode_of_legal (Bool.eq_false_of_not_eq_true hlegal)
    rw [decode_encode] at hrefused
    contradiction
  · exact decode_illegal

end Sys2Proof.Machine

/-! A bignum register loaded word by word (20_memory.md R62, 30_encoding.md R106). -/

namespace Sys2Proof.Machine

/-- The bignum x with its words below n replaced, one after the other from word 0 on, by those of v. -/
def loadWords (x v : Big) : Nat → Big
  | 0 => x
  | n + 1 => setBigWord (loadWords x v n) (Fin.ofNat 16 n) (bigWord v (Fin.ofNat 16 n))

theorem getLsbD_bigWord (v : Big) {j : Nat} (hj : j < 16) (k : Nat) :
    (bigWord v (Fin.ofNat 16 j)).getLsbD k = (decide (k < 32) && v.getLsbD (32 * j + k)) := by
  rw [bigWord, val_ofNat_of_lt hj, BitVec.getLsbD_extractLsb']

/-- The bits of the words loaded so far are those of v, the bits above them those of x. -/
theorem getLsbD_loadWords (x v : Big) {n : Nat} (hn : n ≤ 16) (k : Nat) :
    (loadWords x v n).getLsbD k = if k < 32 * n then v.getLsbD k else x.getLsbD k := by
  induction n with
  | zero => simp [loadWords]
  | succ n ih =>
    rw [loadWords, getLsbD_setBigWord _ (by omega), getLsbD_bigWord v (by omega), ih (by omega)]
    by_cases hbelow : k < 32 * n
    · rw [if_neg (by omega), if_pos hbelow, if_pos (by omega)]
    · by_cases hword : k < 32 * n + 32
      · rw [if_pos (by omega), if_pos (by omega), decide_eq_true (by omega), Bool.true_and,
          Nat.add_sub_cancel' (by omega)]
      · rw [if_neg (by omega), if_neg hbelow, if_neg (by omega)]

/-- Sixteen words are the whole bignum. -/
theorem loadWords_all (x v : Big) : loadWords x v 16 = v := by
  apply BitVec.eq_of_getLsbD_eq
  intro k hk
  rw [getLsbD_loadWords x v le_rfl, if_pos hk]

/-- A write of one word to an RW bignum register of an idle block. -/
theorem State.busStep_wr_bn {s : State} (hidle : s.phase = .idle) {r : BN} (hr : r.readOnly = false) {j : Nat}
    (hj : j < 16) (w : Word32) :
    s.busStep (wr (r.base + 4 * j) w) =
      { s.setBn r (setBigWord (s.bn r) (Fin.ofNat 16 j) w) with reply := some (.write .ok) } := by
  obtain ⟨hlt, ha⟩ := r.wordOffset_served hj
  exact State.busStep_wr_stored hidle hlt ha (slotOf_bn r hj) (s.writeSlot_bn w (by simp [hr]) _)

/-- A write of one word to a register that holds x from the writes before, whose last response is q. -/
theorem State.busStep_wr_bn_again {s t : State} (hidle : s.phase = .idle) {r : BN} (hr : r.readOnly = false) {j : Nat}
    (hj : j < 16) {x : Big} {q : Option Reply} (ht : t = { s.setBn r x with reply := q }) (w : Word32) :
    t.busStep (wr (r.base + 4 * j) w) =
      { s.setBn r (setBigWord x (Fin.ofNat 16 j) w) with reply := some (.write .ok) } := by
  have hphase : t.phase = .idle := by rw [ht]; exact hidle
  have hx : t.bn r = x := by rw [ht]; exact s.bn_setBn_self r x
  rw [State.busStep_wr_bn hphase hr hj, hx, ht]
  exact congrArg (fun u : State => { u with reply := some (.write .ok) }) (s.setBn_setBn_self r x _)

/-- The first n writes of `ldbn R, v`. -/
def ldbnFirst (r : BN) (v : Big) (n : Nat) : List BusTxn :=
  (List.range n).map fun j => wr (r.base + 4 * j) (bigWord v (Fin.ofNat 16 j))

theorem ldbn_eq_ldbnFirst (r : BN) (v : Big) : ldbn r v = ldbnFirst r v 16 := rfl

/-- One write more than n, on the block that the first n writes leave. -/
theorem State.busSteps_ldbnFirst_succ (s : State) (r : BN) (v : Big) (n : Nat) :
    s.busSteps (ldbnFirst r v (n + 1)) =
      (s.busSteps (ldbnFirst r v n)).busStep (wr (r.base + 4 * n) (bigWord v (Fin.ofNat 16 n))) := by
  simp [State.busSteps, ldbnFirst, List.range_succ, List.foldl_append]

/-- What the first n + 1 writes leave: the register with that many words loaded, and the last OK response. -/
theorem State.busSteps_ldbnFirst {s : State} (hidle : s.phase = .idle) {r : BN} (hr : r.readOnly = false) (v : Big)
    {n : Nat} (hn : n < 16) :
    s.busSteps (ldbnFirst r v (n + 1)) =
      { s.setBn r (loadWords (s.bn r) v (n + 1)) with reply := some (.write .ok) } := by
  induction n with
  | zero => exact State.busStep_wr_bn hidle hr hn _
  | succ n ih =>
    rw [State.busSteps_ldbnFirst_succ]
    exact State.busStep_wr_bn_again hidle hr hn (ih (by omega)) _

/-- The whole of `ldbn R, v` on an idle block. -/
theorem State.busSteps_ldbn {s : State} (hidle : s.phase = .idle) {r : BN} (hr : r.readOnly = false) (v : Big) :
    s.busSteps (ldbn r v) = { s.setBn r v with reply := some (.write .ok) } := by
  rw [ldbn_eq_ldbnFirst, State.busSteps_ldbnFirst hidle hr v (n := 15) (by omega), loadWords_all]

/-- The reply to a read of one word of a bignum register. -/
theorem State.reply_busStep_rd_bn (s : State) (r : BN) {j : Nat} (hj : j < 16) :
    (s.busStep (rd (r.base + 4 * j))).reply = some (.read ((s.bn r).extractLsb' (32 * j) 32) .ok) := by
  obtain ⟨hlt, ha⟩ := r.wordOffset_served hj
  rw [State.busStep_rd_slot s hlt ha (slotOf_bn r hj), State.readSlot, bigWord, val_ofNat_of_lt hj]

/-- Settles O60: the 16 words written make up the value, and each is read back from it. -/
theorem loadedRegisterHoldsTheValue : Obligations.LoadedRegisterHoldsTheValue := by
  intro s r v hidle hr
  refine ⟨State.busSteps_ldbn hidle hr v, fun j hj => ?_⟩
  have hv : (s.busSteps (ldbn r v)).bn r = v := by
    rw [State.busSteps_ldbn hidle hr v]
    exact s.bn_setBn_self r v
  rw [State.reply_busStep_rd_bn _ r hj, hv]

end Sys2Proof.Machine

/-! EGCD and Inv (40_modular_arithmetic.md R112 to R118): what one turn of the loop does, the invariant of the loop with
the bound of its coefficients, and the inverse that comes of it. -/

namespace Sys2Proof.Machine

@[simp] theorem egcdLoop_zero (fuel a : Nat) (x2 x1 y2 y1 : Int) : egcdLoop fuel a 0 x2 x1 y2 y1 = (a, x2, y2) := by
  cases fuel <;> rfl

/-- One turn of the loop while b > 0: a - q·b is the remainder. -/
theorem egcdLoop_turn (fuel a : Nat) {b : Nat} (hb : b ≠ 0) (x2 x1 y2 y1 : Int) :
    egcdLoop (fuel + 1) a b x2 x1 y2 y1 =
      egcdLoop fuel b (a % b) x1 (x2 - (a / b : Nat) * x1) y1 (y2 - (a / b : Nat) * y1) := by
  rw [egcdLoop, if_neg hb, Nat.mod_eq_sub_div_mul]

/-- The fuel is harmless: b strictly decreases, so any two fuels of at least b run the loop to the same end. -/
theorem egcdLoop_fuel {fuel fuel' a b : Nat} {x2 x1 y2 y1 : Int} (h : b ≤ fuel) (h' : b ≤ fuel') :
    egcdLoop fuel a b x2 x1 y2 y1 = egcdLoop fuel' a b x2 x1 y2 y1 := by
  induction fuel generalizing fuel' a b x2 x1 y2 y1 with
  | zero => rw [Nat.le_zero.mp h, egcdLoop_zero, egcdLoop_zero]
  | succ fuel ih =>
    by_cases hb : b = 0
    · rw [hb, egcdLoop_zero, egcdLoop_zero]
    · have hdecreases : a % b < b := Nat.mod_lt _ (by omega)
      obtain ⟨k, rfl⟩ := Nat.exists_eq_succ_of_ne_zero (n := fuel') (by omega)
      rw [egcdLoop_turn _ _ hb, egcdLoop_turn _ _ hb]
      exact ih (by omega) (by omega)

/-- Settles O29: one turn of the loop, and then any fuel that is enough. -/
theorem egcdFollowsItsLoop : Obligations.EgcdFollowsItsLoop := by
  refine ⟨fun a b => rfl, fun fuel a b x2 x1 y2 y1 hfuel => ?_⟩
  split
  case isTrue hb => rw [hb, egcdLoop_zero]
  case isFalse hb =>
    have hdecreases : a % b < b := Nat.mod_lt _ (by omega)
    obtain ⟨k, rfl⟩ := Nat.exists_eq_succ_of_ne_zero (n := fuel) (by omega)
    rw [egcdLoop_turn _ _ hb]
    exact egcdLoop_fuel (by omega) le_rfl

/-- A pair of coefficients beside the pair (r, s) of the loop. Their signs are opposite, so their magnitudes only grow, and
the weighted sum of the magnitudes stays c: that is what bounds them (40_modular_arithmetic.md R118). -/
structure CoefficientPair (c r s : Nat) (z2 z1 : Int) : Prop where
  signs : (0 ≤ z2 ∧ z1 ≤ 0) ∨ (z2 ≤ 0 ∧ 0 ≤ z1)
  weight : z1.natAbs * r + z2.natAbs * s = c
  bound2 : z2.natAbs ≤ max c 1
  bound1 : z1.natAbs ≤ max c 1

/-- The difference of coefficients of opposite signs adds their magnitudes. -/
theorem natAbs_sub_mul_of_opposite {z2 z1 : Int} (h : (0 ≤ z2 ∧ z1 ≤ 0) ∨ (z2 ≤ 0 ∧ 0 ≤ z1)) (q : Nat) :
    (z2 - q * z1).natAbs = z2.natAbs + q * z1.natAbs := by
  have hq : (0 : Int) ≤ q := q.cast_nonneg
  rw [sub_eq_add_neg, ← mul_neg]
  obtain ⟨h2, h1⟩ | ⟨h2, h1⟩ := h
  · rw [Int.natAbs_add_of_nonneg h2 (mul_nonneg hq (by omega)), Int.natAbs_mul, Int.natAbs_neg, Int.natAbs_natCast]
  · rw [Int.natAbs_add_of_nonpos h2 (mul_nonpos_of_nonneg_of_nonpos hq (by omega)), Int.natAbs_mul, Int.natAbs_neg,
      Int.natAbs_natCast]

theorem CoefficientPair.turn {c r s : Nat} {z2 z1 : Int} (h : CoefficientPair c r s z2 z1) (hs : s ≠ 0) :
    CoefficientPair c s (r % s) z1 (z2 - (r / s : Nat) * z1) := by
  have hnew := natAbs_sub_mul_of_opposite h.signs (r / s)
  have hq : (0 : Int) ≤ (r / s : Nat) := Int.natCast_nonneg _
  have hweight : (z2 - (r / s : Nat) * z1).natAbs * s + z1.natAbs * (r % s) = c :=
    calc (z2 - (r / s : Nat) * z1).natAbs * s + z1.natAbs * (r % s)
      _ = z1.natAbs * (s * (r / s) + r % s) + z2.natAbs * s := by rw [hnew]; ring
      _ = c := by rw [Nat.div_add_mod, h.weight]
  have hle : (z2 - (r / s : Nat) * z1).natAbs ≤ c :=
    calc (z2 - (r / s : Nat) * z1).natAbs
      _ ≤ (z2 - (r / s : Nat) * z1).natAbs * s := Nat.le_mul_of_pos_right _ (by omega)
      _ ≤ c := by omega
  refine ⟨?_, hweight, h.bound1, le_max_of_le_left hle⟩
  obtain ⟨h2, h1⟩ | ⟨h2, h1⟩ := h.signs
  · exact .inr ⟨h1, sub_nonneg.mpr ((mul_nonpos_of_nonneg_of_nonpos hq h1).trans h2)⟩
  · exact .inl ⟨h1, sub_nonpos.mpr (h2.trans (mul_nonneg hq h1))⟩

/-- The invariant of the loop of EGCD(a, b) at the pair (r, s): the gcd is kept, each of r and s is the combination of a
and b that its coefficients give, and the coefficients are bounded. -/
structure EgcdInvariant (a b r s : Nat) (x2 x1 y2 y1 : Int) : Prop where
  gcd : Nat.gcd r s = Nat.gcd a b
  first : (a : Int) * x2 + b * y2 = r
  second : (a : Int) * x1 + b * y1 = s
  xs : CoefficientPair b r s x2 x1
  ys : CoefficientPair a r s y2 y1

theorem egcdInvariant_start (a b : Nat) : EgcdInvariant a b a b 1 0 0 1 where
  gcd := rfl
  first := by ring
  second := by ring
  xs := by constructor <;> simp
  ys := by constructor <;> simp

/-- One turn keeps the invariant: the new coefficients are combined as the remainder r - q·s is. -/
theorem EgcdInvariant.turn {a b r s : Nat} {x2 x1 y2 y1 : Int} (h : EgcdInvariant a b r s x2 x1 y2 y1) (hs : s ≠ 0) :
    EgcdInvariant a b s (r % s) x1 (x2 - (r / s : Nat) * x1) y1 (y2 - (r / s : Nat) * y1) where
  gcd := by rw [Nat.gcd_comm, ← Nat.gcd_rec, Nat.gcd_comm, h.gcd]
  first := h.second
  second := by
    have hdiv : (s : Int) * (r / s : Nat) + (r % s : Nat) = r := by exact_mod_cast Nat.div_add_mod r s
    linear_combination h.first - ((r / s : Nat) : Int) * h.second - hdiv
  xs := h.xs.turn hs
  ys := h.ys.turn hs

/-- With enough fuel the loop ends at a pair (g, 0) that meets the invariant. -/
theorem EgcdInvariant.loop {a b fuel r s : Nat} {x2 x1 y2 y1 : Int} (h : EgcdInvariant a b r s x2 x1 y2 y1)
    (hfuel : s ≤ fuel) :
    ∃ g x y x' y', egcdLoop fuel r s x2 x1 y2 y1 = (g, x, y) ∧ EgcdInvariant a b g 0 x x' y y' := by
  induction fuel generalizing r s x2 x1 y2 y1 with
  | zero =>
    obtain rfl := Nat.le_zero.mp hfuel
    exact ⟨r, x2, y2, x1, y1, rfl, h⟩
  | succ fuel ih =>
    by_cases hs : s = 0
    · subst hs
      exact ⟨r, x2, y2, x1, y1, rfl, h⟩
    · have hdecreases : r % s < s := Nat.mod_lt _ (by omega)
      rw [egcdLoop_turn _ _ hs]
      exact ih (h.turn hs) (by omega)

/-- The contract of EGCD with the bound of each coefficient by the other operand (40_modular_arithmetic.md R113, R118). -/
theorem egcd_contract {a b g : Nat} {x y : Int} (h : egcd a b = (g, x, y)) :
    g = Nat.gcd a b ∧ (a : Int) * x + b * y = g ∧ x.natAbs ≤ max b 1 ∧ y.natAbs ≤ max a 1 := by
  obtain ⟨g', x', y', _, _, hloop, hend⟩ := (egcdInvariant_start a b).loop le_rfl
  obtain ⟨rfl, rfl, rfl⟩ : g' = g ∧ x' = x ∧ y' = y := by
    simpa using hloop.symm.trans h
  exact ⟨by rw [← hend.gcd, Nat.gcd_zero_right], hend.first, hend.xs.bound2, hend.ys.bound2⟩

/-- The magnitudes of the coefficients of operands in the range of a bignum are in it too (40_modular_arithmetic.md
R118). -/
theorem egcd_fits {a b g : Nat} {x y : Int} (h : egcd a b = (g, x, y)) (ha : a < 2 ^ 512) (hb : b < 2 ^ 512) :
    x.natAbs < 2 ^ 512 ∧ y.natAbs < 2 ^ 512 := by
  obtain ⟨-, -, hx, hy⟩ := egcd_contract h
  have hone : 1 < 2 ^ 512 := Nat.one_lt_two_pow (Nat.succ_ne_zero _)
  exact ⟨hx.trans_lt (max_lt hb hone), hy.trans_lt (max_lt ha hone)⟩

/-- Settles O30: the contract at the end of the loop, and its bounds weakened to both operands. -/
theorem egcdMeetsItsContract : Obligations.EgcdMeetsItsContract := by
  intro a b
  rcases hegcd : egcd a b with ⟨g, x, y⟩
  obtain ⟨hgcd, hbezout, hx, hy⟩ := egcd_contract hegcd
  refine ⟨hgcd, hgcd ▸ hbezout, hx.trans (by omega), hy.trans (by omega), fun ha hb => ?_⟩
  obtain ⟨hx', hy'⟩ := egcd_fits hegcd ha hb
  exact ⟨Nat.le_sub_one_of_lt hx', Nat.le_sub_one_of_lt hy'⟩

/-- Inv by the gcd of its operands (40_modular_arithmetic.md R115): NOT_INVERTIBLE, or the reduced coefficient of v. -/
theorem inv_cases (v m : Nat) :
    (Nat.gcd (v % m) m ≠ 1 ∧ inv v m = .error .notInvertible) ∨
      (Nat.gcd (v % m) m = 1 ∧ ∃ x y : Int, (v % m : Nat) * x + m * y = 1 ∧ inv v m = .ok (modInt x m)) := by
  rcases hegcd : egcd (v % m) m with ⟨g, x, y⟩
  obtain ⟨rfl, hbezout, -, -⟩ := egcd_contract hegcd
  by_cases hg : Nat.gcd (v % m) m = 1
  · rw [hg] at hbezout
    exact .inr ⟨hg, x, y, hbezout, by simp [inv, hegcd, hg]⟩
  · exact .inl ⟨hg, by simp [inv, hegcd, hg]⟩

/-- A reduced Bézout coefficient is an inverse. -/
theorem mul_modInt_mod_of_bezout {v m : Nat} {x y : Int} (hm : 2 ≤ m) (h : (v % m : Nat) * x + m * y = 1) :
    v * modInt x m % m = 1 := by
  have hone : (1 : Int) % m = 1 := Int.emod_eq_of_lt (by omega) (by omega)
  have hcast : ((v * modInt x m % m : Nat) : Int) = 1 :=
    calc ((v * modInt x m % m : Nat) : Int)
      _ = (v : Int) * (x % m) % m := by rw [Int.natCast_mod, Nat.cast_mul, coe_modInt x (by omega)]
      _ = (v % m : Nat) * x % m := by
        rw [Int.natCast_mod]
        exact ((Int.mod_modEq x m).mul_left v).trans ((Int.mod_modEq v m).symm.mul_right x)
      _ = ((v % m : Nat) * x + m * y) % m := by rw [Int.add_mul_emod_self_left]
      _ = 1 := by rw [h, hone]
  exact_mod_cast hcast

/-- An inverse below the modulus is the only one (40_modular_arithmetic.md R116). -/
theorem inverse_unique {v m u u' : Nat} (hu : u < m) (hu' : u' < m) (h : v * u % m = 1) (h' : v * u' % m = 1) :
    u' = u := by
  have hone : 1 % m = 1 := by rw [← h, Nat.mod_mod]
  have hcoprime : Nat.gcd m v = 1 :=
    Nat.gcd_comm m v ▸ Nat.coprime_of_mul_modEq_one u (h.trans hone.symm)
  exact (Nat.ModEq.cancel_left_of_coprime hcoprime (h'.trans h.symm)).eq_of_lt_of_lt hu' hu

/-- Settles O31: each case of Inv by the gcd decides all three claims. -/
theorem inverseIsExact : Obligations.InverseIsExact := by
  intro v m hm
  obtain ⟨hgcd, hinv⟩ | ⟨hgcd, ⟨x, y, hbezout, hinv⟩⟩ := inv_cases v m
  case inl =>
    rw [hinv]
    exact ⟨fun u hu => (nomatch hu), iff_of_true rfl hgcd, fun h => absurd h hgcd⟩
  case inr =>
    rw [hinv]
    refine ⟨fun u hu => ?_, iff_of_false (nomatch ·) (not_not_intro hgcd), fun _ => ⟨_, rfl⟩⟩
    obtain rfl := Except.ok.inj hu
    have hlt := modInt_lt x (m := m) (by omega)
    have hinverse := mul_modInt_mod_of_bezout hm hbezout
    exact ⟨hlt, hinverse, fun u' hu' h' => inverse_unique hlt hu' hinverse h'⟩

end Sys2Proof.Machine

/-! The commands with a modulus operand (40_modular_arithmetic.md R119 to R125): their words, and how each ends. -/

namespace Sys2Proof.Machine

/-- A command whose opcode is that of a modulus row is the row's command, for one of the three selects. -/
theorem eq_of_modulusRow_opcode {i : Instr} {f : MSel → Instr} (h : modulusRow i.opcode.toNat = some f) :
    ∃ m, i = f m := by
  cases i with
  | modred m | modadd m | modsub m | modmul m | modinv m | egcd m =>
    obtain rfl := Option.some.inj h
    exact ⟨m, rfl⟩
  | nop | padd | pdbl | pmul | keygen | sign | verify => exact nomatch h

/-- The word of a modulus row and a select decodes to the row's command (30_encoding.md R95, R104). -/
theorem decode_modulusWord {n : Nat} {f : MSel → Instr} (h : modulusRow n = some f) (m : MSel) :
    decode ((m.bits <<< 8) ||| BitVec.ofNat 32 n) = .ok (f m) := by
  rw [← modulusRow_some h m, decode_encode]

/-- The low byte of the word of a command is its opcode (30_encoding.md R94). -/
theorem encode_mod_opcode (i : Instr) : (encode i).toNat % 256 = i.opcode.toNat := by
  cases i with
  | modred m | modadd m | modsub m | modmul m | modinv m | egcd m => cases m <;> rfl
  | nop | padd | pdbl | pmul | keygen | sign | verify => rfl

/-- Any word of the opcode of a modulus row but the three words of the row is illegal (30_encoding.md R96). -/
theorem illegal_of_modulusOpcode {n : Nat} {f : MSel → Instr} (h : modulusRow n = some f) (w : Word32)
    (hopcode : w.toNat % 256 = n) (hw : ∀ m : MSel, w ≠ (m.bits <<< 8) ||| BitVec.ofNat 32 n) :
    illegalWord w = true := by
  by_contra hlegal
  obtain ⟨i, rfl⟩ := exists_encode_of_legal (Bool.eq_false_of_not_eq_true hlegal)
  rw [encode_mod_opcode] at hopcode
  obtain ⟨m, rfl⟩ := eq_of_modulusRow_opcode (hopcode ▸ h)
  exact hw m (modulusRow_some h m)

/-- An MRU command ends with BAD_MODULUS for M = 0 (40_modular_arithmetic.md R119). -/
theorem finish_mruEnding_zero {m : MSel} {s : State} (h : s.modulus m = 0) (residue : Nat → Nat) :
    s.finish (mruEnding m s residue) = s.failed .badModulus := by
  rw [mruEnding, if_pos h]
  rfl

/-- Otherwise it commits its residue, which a bignum register holds without truncation. -/
theorem finish_mruEnding_residue {m : MSel} {s : State} {residue : Nat → Nat} (h : s.modulus m ≠ 0)
    (hlt : residue (s.modulus m) < s.modulus m) :
    ∃ v : Big, v.toNat = residue (s.modulus m) ∧
      s.finish (mruEnding m s residue) = ({ s.setBn .res0 v with rflags := {} } : State).succeeded := by
  refine ⟨_, toNat_ofNat_big (hlt.trans (s.modulus_lt m)), ?_⟩
  rw [mruEnding, if_neg h]
  rfl

/-- The claim about an MRU command, from its row, its ending and that its residue is below the modulus. -/
theorem mruCommand_ends {n : Nat} {f : MSel → Instr} {m : MSel} {s : State} {residue : Nat → Nat}
    (hrow : modulusRow n = some f) (hexec : exec (f m) s = .next (s.finish (mruEnding m s residue)))
    (hlt : ∀ M, 0 < M → residue M < M) :
    decode ((m.bits <<< 8) ||| BitVec.ofNat 32 n) = .ok (f m) ∧
    (∀ w : Word32, w.toNat % 256 = n → (∀ m' : MSel, w ≠ (m'.bits <<< 8) ||| BitVec.ofNat 32 n) →
      illegalWord w = true) ∧
    (s.modulus m = 0 → exec (f m) s = .next (s.failed .badModulus)) ∧
    (s.modulus m ≠ 0 → ∃ v : Big, v.toNat = residue (s.modulus m) ∧
      exec (f m) s = .next ({ s.setBn .res0 v with rflags := {} } : State).succeeded) := by
  refine ⟨decode_modulusWord hrow m, illegal_of_modulusOpcode hrow, fun hzero => ?_, fun hne => ?_⟩
  · rw [hexec, finish_mruEnding_zero hzero]
  · obtain ⟨v, hv, hend⟩ := finish_mruEnding_residue (m := m) hne (hlt _ (Nat.pos_of_ne_zero hne))
    exact ⟨v, hv, by rw [hexec, hend]⟩

theorem exec_modred (m : MSel) (s : State) :
    exec (.modred m) s = .next (s.finish (mruEnding m s fun M => s.nat .opa % M)) := rfl

theorem exec_modadd (m : MSel) (s : State) :
    exec (.modadd m) s = .next (s.finish (mruEnding m s fun M => (s.nat .opa + s.nat .opb) % M)) := rfl

theorem exec_modsub (m : MSel) (s : State) :
    exec (.modsub m) s = .next (s.finish (mruEnding m s fun M => modInt ((s.nat .opa : Int) - s.nat .opb) M)) := rfl

theorem exec_modmul (m : MSel) (s : State) :
    exec (.modmul m) s = .next (s.finish (mruEnding m s fun M => s.nat .opa * s.nat .opb % M)) := rfl

theorem exec_modinv (m : MSel) (s : State) : exec (.modinv m) s = .next (s.finish (modinvEnding m s)) := rfl

theorem exec_egcd (m : MSel) (s : State) : exec (.egcd m) s = .next (egcdCommit m s).succeeded := rfl

/-- Settles O23: the ending of an MRU command with the residue of OPA. -/
theorem modredGivesTheResidue : Obligations.ModredGivesTheResidue :=
  fun m s => mruCommand_ends rfl (exec_modred m s) fun _ hM => Nat.mod_lt _ hM

/-- Settles O24: the ending of an MRU command with the residue of the exact sum. -/
theorem modaddGivesTheSum : Obligations.ModaddGivesTheSum :=
  fun m s => mruCommand_ends rfl (exec_modadd m s) fun _ hM => Nat.mod_lt _ hM

/-- Settles O25: the ending of an MRU command with the Euclidean remainder of the difference of the integers. -/
theorem modsubGivesTheDifference : Obligations.ModsubGivesTheDifference := by
  intro m s
  obtain ⟨hword, hillegal, hzero, hresidue⟩ :=
    mruCommand_ends (n := 0x03) (f := .modsub) rfl (exec_modsub m s) fun _ hM => modInt_lt _ hM
  refine ⟨hword, hillegal, hzero, fun hne => ?_⟩
  obtain ⟨v, hv, hend⟩ := hresidue hne
  exact ⟨v, by rw [hv, coe_modInt _ (Nat.pos_of_ne_zero hne)], hend⟩

/-- Settles O26: the ending of an MRU command with the residue of the exact product. -/
theorem modmulGivesTheProduct : Obligations.ModmulGivesTheProduct :=
  fun m s => mruCommand_ends rfl (exec_modmul m s) fun _ hM => Nat.mod_lt _ hM

/-- MODINV ends with BAD_MODULUS for M < 2 (40_modular_arithmetic.md R124). -/
theorem finish_modinvEnding_small {m : MSel} {s : State} (h : s.modulus m < 2) :
    s.finish (modinvEnding m s) = s.failed .badModulus := by
  rw [modinvEnding, if_pos h]
  rfl

/-- For every other M, MODINV ends with the error of Inv (40_modular_arithmetic.md R124). -/
theorem finish_modinvEnding_error {m : MSel} {s : State} {e : Err} (hM : 2 ≤ s.modulus m)
    (h : inv (s.nat .opa) (s.modulus m) = .error e) : s.finish (modinvEnding m s) = s.failed e := by
  rw [modinvEnding, if_neg (by omega), h]
  rfl

/-- For every other M, MODINV commits the value of Inv (40_modular_arithmetic.md R124). -/
theorem finish_modinvEnding_ok {m : MSel} {s : State} {u : Nat} (hM : 2 ≤ s.modulus m)
    (h : inv (s.nat .opa) (s.modulus m) = .ok u) :
    s.finish (modinvEnding m s) = ({ s.setNat .res0 u with rflags := {} } : State).succeeded := by
  rw [modinvEnding, if_neg (by omega), h]
  rfl

/-- Settles O27: Inv decides by the gcd (`inverseIsExact`), and its value fits a register since it is below M. -/
theorem modinvGivesTheInverse : Obligations.ModinvGivesTheInverse := by
  intro m s
  refine ⟨decode_modulusWord rfl m, illegal_of_modulusOpcode rfl, fun hsmall => ?small, fun hM hgcd => ?fails,
    fun hM hgcd => ?inverts⟩
  case small => rw [exec_modinv, finish_modinvEnding_small hsmall]
  case fails =>
    obtain ⟨-, hfails, -⟩ := inverseIsExact (s.nat .opa) (s.modulus m) hM
    rw [exec_modinv, finish_modinvEnding_error hM (hfails.mpr hgcd)]
  case inverts =>
    obtain ⟨hok, -, hexists⟩ := inverseIsExact (s.nat .opa) (s.modulus m) hM
    obtain ⟨u, hu⟩ := hexists hgcd
    obtain ⟨hlt, hinverse, -⟩ := hok u hu
    have hfits := toNat_ofNat_big (hlt.trans (s.modulus_lt m))
    refine ⟨BitVec.ofNat 512 u, by rwa [hfits], by rwa [hfits], ?_⟩
    rw [exec_modinv, finish_modinvEnding_ok hM hu]
    rfl

/-- A gcd is no larger than its operands allow. -/
theorem gcd_lt_of_lt {a b n : Nat} (ha : a < n) (hb : b < n) : Nat.gcd a b < n := by
  obtain rfl | hpos := Nat.eq_zero_or_pos a
  · rwa [Nat.gcd_zero_left]
  · exact (Nat.gcd_le_left b hpos).trans_lt ha

/-- The commit of EGCD by the triple it computes. -/
theorem egcdCommit_eq {m : MSel} {s : State} {g : Nat} {x y : Int} (h : egcd (s.nat .opa) (s.modulus m) = (g, x, y)) :
    egcdCommit m s =
      { ((s.setNat .res0 g).setNat .res1 x.natAbs).setNat .res2 y.natAbs with rflags := .signs x y } := by
  rw [egcdCommit, h]

/-- Settles O28: each of the three results fits a bignum register, so none is truncated. -/
theorem egcdCommandGivesTheTriple : Obligations.EgcdCommandGivesTheTriple := by
  intro m s
  refine ⟨decode_modulusWord rfl m, illegal_of_modulusOpcode rfl, ?_⟩
  rcases hegcd : egcd (s.nat .opa) (s.modulus m) with ⟨g, x, y⟩
  obtain ⟨hgcd, -⟩ := egcd_contract hegcd
  obtain ⟨hx, hy⟩ := egcd_fits hegcd (s.nat_lt _) (s.modulus_lt m)
  have hg : g < 2 ^ 512 := hgcd ▸ gcd_lt_of_lt (s.nat_lt _) (s.modulus_lt m)
  refine ⟨x, y, BitVec.ofNat 512 g, BitVec.ofNat 512 x.natAbs, BitVec.ofNat 512 y.natAbs, by rw [toNat_ofNat_big hg],
    toNat_ofNat_big hx, toNat_ofNat_big hy, ?_⟩
  rw [exec_egcd, egcdCommit_eq hegcd]
  rfl

end Sys2Proof.Machine

/-! The point functions by residues (41_curve_group.md R142 to R148): Inv, the two formulas and the cases of Add in the
ring of integers modulo P, where the rules about them are equations. -/

namespace Sys2Proof.Machine

theorem cast_modInt (z : Int) {P : Nat} (hP : 0 < P) : (modInt z P : ZMod P) = z := by
  have hresidue : ((modInt z P : Int) : ZMod P) = (z % (P : Int) : Int) := by rw [coe_modInt z hP]
  rwa [Int.cast_natCast, ZMod.intCast_mod] at hresidue

/-- Numbers below P with one residue are equal. -/
theorem eq_of_residue_eq {P a b : Nat} (ha : a < P) (hb : b < P) (h : (a : ZMod P) = b) : a = b :=
  ((ZMod.natCast_eq_natCast_iff a b P).mp h).eq_of_lt_of_lt ha hb

/-- Inv by residues (40_modular_arithmetic.md R115): it finds an inverse of a unit, and fails on any other residue. -/
theorem inv_residue {P : Nat} (hP : 0 < P) (v : Nat) :
    (¬ IsUnit (v : ZMod P) ∧ inv v P = .error .notInvertible) ∨
      (IsUnit (v : ZMod P) ∧ ∃ i : Nat, (v : ZMod P) * i = 1 ∧ inv v P = .ok i) := by
  have hunit : IsUnit (v : ZMod P) ↔ Nat.gcd (v % P) P = 1 := by
    rw [← ZMod.natCast_mod, ZMod.isUnit_iff_coprime, Nat.Coprime]
  obtain ⟨hgcd, hinv⟩ | ⟨hgcd, x, y, hbezout, hinv⟩ := inv_cases v P
  · exact .inl ⟨fun h => hgcd (hunit.mp h), hinv⟩
  · refine .inr ⟨hunit.mpr hgcd, _, ?_, hinv⟩
    have hone := congrArg (Int.cast : Int → ZMod P) hbezout
    push_cast at hone
    rwa [ZMod.natCast_self, zero_mul, add_zero, ← cast_modInt x hP] at hone

/-- The coordinates of the point both formulas end with, by their residues (41_curve_group.md R143, R144). -/
theorem thirdPoint_eq {P : Nat} (hP : 0 < P) (lam x1 y1 x2 : Nat) :
    ∃ x3 y3, thirdPoint P lam x1 y1 x2 = .aff x3 y3 ∧ x3 < P ∧ y3 < P ∧
      (x3 : ZMod P) = lam * lam - x1 - x2 ∧ (y3 : ZMod P) = lam * (x1 - x3) - y1 := by
  refine ⟨_, _, rfl, modInt_lt _ hP, modInt_lt _ hP, ?_, ?_⟩ <;> rw [cast_modInt _ hP] <;> push_cast <;> rfl

/-- The chord formula by residues (41_curve_group.md R143): its slope solves the equation of the chord, and it fails
just where the difference of the abscissas is no unit. -/
theorem chordFormula_cases {P : Nat} (hP : 0 < P) (x1 y1 x2 y2 : Nat) :
    (¬ IsUnit ((x2 : ZMod P) - x1) ∧ chordFormula P x1 y1 x2 y2 = .error .notInvertible) ∨
      (IsUnit ((x2 : ZMod P) - x1) ∧ ∃ lam : Nat, ((x2 : ZMod P) - x1) * lam = y2 - y1 ∧
        chordFormula P x1 y1 x2 y2 = .ok (thirdPoint P lam x1 y1 x2)) := by
  have hrun : (modInt ((x2 : Int) - x1) P : ZMod P) = (x2 : ZMod P) - x1 := by
    rw [cast_modInt _ hP]; push_cast; rfl
  have hrise : (modInt ((y2 : Int) - y1) P : ZMod P) = (y2 : ZMod P) - y1 := by
    rw [cast_modInt _ hP]; push_cast; rfl
  obtain ⟨hunit, hinv⟩ | ⟨hunit, i, hi, hinv⟩ := inv_residue hP (modInt ((x2 : Int) - x1) P) <;> rw [hrun] at hunit
  · exact .inl ⟨hunit, by rw [chordFormula, hinv]; rfl⟩
  · rw [hrun] at hi
    refine .inr ⟨hunit, modInt ((y2 : Int) - y1) P * i % P, ?_, by rw [chordFormula, hinv]; rfl⟩
    rw [ZMod.natCast_mod, Nat.cast_mul, hrise]
    linear_combination ((y2 : ZMod P) - y1) * hi

/-- The doubling formula by residues (41_curve_group.md R144): its slope solves the equation of the tangent, and it
fails just where twice the ordinate is no unit. -/
theorem doubleFormula_cases {P : Nat} (hP : 0 < P) (A x1 y1 : Nat) :
    (¬ IsUnit (2 * y1 : ZMod P) ∧ doubleFormula P A x1 y1 = .error .notInvertible) ∨
      (IsUnit (2 * y1 : ZMod P) ∧ ∃ lam : Nat, (2 * y1 : ZMod P) * lam = 3 * x1 * x1 + A ∧
        doubleFormula P A x1 y1 = .ok (thirdPoint P lam x1 y1 x1)) := by
  have hrun : ((2 * y1 % P : Nat) : ZMod P) = 2 * y1 := by
    rw [ZMod.natCast_mod]; push_cast; rfl
  obtain ⟨hunit, hinv⟩ | ⟨hunit, i, hi, hinv⟩ := inv_residue hP (2 * y1 % P) <;> rw [hrun] at hunit
  · exact .inl ⟨hunit, by rw [doubleFormula, hinv]; rfl⟩
  · rw [hrun] at hi
    refine .inr ⟨hunit, (3 * x1 * x1 + A) % P * i % P, ?_, by rw [doubleFormula, hinv]; rfl⟩
    rw [ZMod.natCast_mod, Nat.cast_mul, ZMod.natCast_mod]
    push_cast
    linear_combination (3 * x1 * x1 + A : ZMod P) * hi

/-! The cases of Add (41_curve_group.md R142). -/

@[simp] theorem pointAdd_infinity_left (P A : Nat) (X : Point) : pointAdd P A .infinity X = .ok X := by
  cases X <;> rfl

@[simp] theorem pointAdd_infinity_right (P A : Nat) (X : Point) : pointAdd P A X .infinity = .ok X := by
  cases X <;> rfl

theorem pointAdd_self (P A x y : Nat) :
    pointAdd P A (.aff x y) (.aff x y) = if y = 0 then .ok .infinity else doubleFormula P A x y := by
  rw [pointAdd, if_pos ⟨rfl, rfl⟩]

/-- The second test of Add, for an ordinate opposite to the other, by residues. -/
theorem eq_opposite_iff {P y1 y2 : Nat} (h1 : y1 < P) (h2 : y2 < P) :
    y1 = (P - y2) % P ↔ (y1 : ZMod P) + y2 = 0 := by
  have hopposite : (((P - y2) % P : Nat) : ZMod P) = -y2 := by
    rw [ZMod.natCast_mod, Nat.cast_sub h2.le, ZMod.natCast_self, zero_sub]
  rw [← eq_neg_iff_add_eq_zero, ← hopposite]
  exact ⟨congrArg _, eq_of_residue_eq h1 (Nat.mod_lt _ (by omega))⟩

theorem pointAdd_opposite {P x y1 y2 : Nat} (A : Nat) (h1 : y1 < P) (h2 : y2 < P) (hne : y1 ≠ y2)
    (h : (y1 : ZMod P) + y2 = 0) : pointAdd P A (.aff x y1) (.aff x y2) = .ok .infinity := by
  rw [pointAdd, if_neg fun heq => hne heq.2, if_pos ⟨rfl, (eq_opposite_iff h1 h2).mpr h⟩]

theorem pointAdd_chord {P x1 y1 x2 y2 : Nat} (A : Nat) (h1 : y1 < P) (h2 : y2 < P) (hne : ¬(x1 = x2 ∧ y1 = y2))
    (h : ¬(x1 = x2 ∧ (y1 : ZMod P) + y2 = 0)) :
    pointAdd P A (.aff x1 y1) (.aff x2 y2) = chordFormula P x1 y1 x2 y2 := by
  rw [← eq_opposite_iff h1 h2] at h
  rw [pointAdd, if_neg hne, if_neg h]

/-- The range check by coordinates (41_curve_group.md R141). -/
theorem Point.inRange_aff {P x y : Nat} : (Point.aff x y).inRange P = true ↔ x < P ∧ y < P := by
  simp [Point.inRange]

/-- The chord formula is symmetric: swapped points have the same slope, since the difference of their abscissas is a
unit, and the slope gives both forms of the third point one ordinate (41_curve_group.md R148). -/
theorem chordFormula_comm {P : Nat} (hP : 0 < P) (x1 y1 x2 y2 : Nat) :
    chordFormula P x1 y1 x2 y2 = chordFormula P x2 y2 x1 y1 := by
  have hswap : IsUnit ((x1 : ZMod P) - x2) ↔ IsUnit ((x2 : ZMod P) - x1) := by rw [← IsUnit.neg_iff, neg_sub]
  obtain ⟨hunit, hfail⟩ | ⟨hunit, lam, hlam, hpoint⟩ := chordFormula_cases hP x1 y1 x2 y2 <;>
    obtain ⟨hunit', hfail'⟩ | ⟨hunit', lam', hlam', hpoint'⟩ := chordFormula_cases hP x2 y2 x1 y1
  · rw [hfail, hfail']
  · exact absurd (hswap.mp hunit') hunit
  · exact absurd (hswap.mpr hunit) hunit'
  · have hslope : (lam : ZMod P) = lam' := hunit.mul_left_cancel (by linear_combination hlam + hlam')
    obtain ⟨x3, y3, hthird, hx3, hy3, hx, hy⟩ := thirdPoint_eq hP lam x1 y1 x2
    obtain ⟨x3', y3', hthird', hx3', hy3', hx', hy'⟩ := thirdPoint_eq hP lam' x2 y2 x1
    rw [← hslope] at hx' hy'
    obtain rfl : x3 = x3' := eq_of_residue_eq hx3 hx3' (by linear_combination hx - hx')
    obtain rfl : y3 = y3' := eq_of_residue_eq hy3 hy3' (by linear_combination hy - hy' - hlam)
    rw [hpoint, hpoint', hthird, hthird']

/-- Settles O32: each test of Add is symmetric, and so is the chord formula. -/
theorem addIsSymmetric : Obligations.AddIsSymmetric := by
  intro P A X1 X2 hP h1 h2
  cases X1 with
  | infinity => rw [pointAdd_infinity_left, pointAdd_infinity_right]
  | aff x1 y1 =>
    cases X2 with
    | infinity => rw [pointAdd_infinity_left, pointAdd_infinity_right]
    | aff x2 y2 =>
      obtain ⟨-, hy1⟩ := Point.inRange_aff.mp h1
      obtain ⟨-, hy2⟩ := Point.inRange_aff.mp h2
      by_cases heq : x1 = x2 ∧ y1 = y2
      case pos => rw [heq.1, heq.2]
      by_cases hopposite : x1 = x2 ∧ (y1 : ZMod P) + y2 = 0
      case pos =>
        obtain ⟨rfl, hsum⟩ := hopposite
        have hne : y1 ≠ y2 := fun h => heq ⟨rfl, h⟩
        rw [pointAdd_opposite A hy1 hy2 hne hsum, pointAdd_opposite A hy2 hy1 hne.symm ((add_comm _ _).trans hsum)]
      case neg =>
        rw [pointAdd_chord A hy1 hy2 heq hopposite, chordFormula_comm hP,
          pointAdd_chord A hy2 hy1 (fun h => heq ⟨h.1.symm, h.2.symm⟩)
            (fun h => hopposite ⟨h.1.symm, (add_comm _ _).trans h.2⟩)]

/-- Settles O33: Add of a point with itself, and the doubling formula by what Inv gives it. -/
theorem doublingCases : Obligations.DoublingCases := by
  intro P A x y
  have hdouble : y ≠ 0 → pointDbl P A (.aff x y) = doubleFormula P A x y := fun hy => by
    rw [pointDbl, pointAdd_self, if_neg hy]
  refine ⟨fun _ => rfl, rfl, ?_, fun hy i hi => ?_, fun hy e he => ?_⟩
  · rw [pointDbl, pointAdd_self, if_pos rfl]
  · intro lam x3
    have hx3 : x3 = modInt ((lam : Int) * lam - x - x) P := by rw [sub_sub, ← two_mul]
    rw [hdouble hy, doubleFormula, hi, hx3]
    rfl
  · rw [hdouble hy, doubleFormula, he]
    rfl

/-! The recursion of Exp (41_curve_group.md R146, R147). -/

@[simp] theorem expLoop_zero (P A fuel : Nat) (X : Point) : expLoop P A fuel 0 X = .ok .infinity := by
  cases fuel <;> rfl

/-- The fuel is harmless: the scalar strictly decreases, so any two fuels of at least k run the recursion to the same
end. -/
theorem expLoop_fuel {P A fuel fuel' k : Nat} {X : Point} (h : k ≤ fuel) (h' : k ≤ fuel') :
    expLoop P A fuel k X = expLoop P A fuel' k X := by
  induction fuel generalizing fuel' k X with
  | zero => rw [Nat.le_zero.mp h, expLoop_zero, expLoop_zero]
  | succ fuel ih =>
    by_cases hk : k = 0
    · rw [hk, expLoop_zero, expLoop_zero]
    · obtain ⟨j, rfl⟩ := Nat.exists_eq_succ_of_ne_zero (n := fuel') (by omega)
      have hodd : ∀ Y, expLoop P A fuel (k - 1) Y = expLoop P A j (k - 1) Y := fun Y => ih (by omega) (by omega)
      have heven : ∀ Y, expLoop P A fuel (k / 2) Y = expLoop P A j (k / 2) Y := fun Y => ih (by omega) (by omega)
      simp only [expLoop, hodd, heven]

theorem expLoop_eq_pointExp {fuel k : Nat} (P A : Nat) (X : Point) (h : k ≤ fuel) :
    expLoop P A fuel k X = pointExp P A k X :=
  expLoop_fuel h le_rfl

/-- Settles O34: one call of the recursion, and then the fuel that is left is enough. -/
theorem expFollowsItsRecursion : Obligations.ExpFollowsItsRecursion := by
  intro P A k X
  cases k with
  | zero => rfl
  | succ k =>
    have hodd : expLoop P A k (k + 1 - 1) X = pointExp P A (k + 1 - 1) X := expLoop_eq_pointExp P A X le_rfl
    have heven : ∀ Y, expLoop P A k ((k + 1) / 2) Y = pointExp P A ((k + 1) / 2) Y :=
      fun Y => expLoop_eq_pointExp P A Y (by omega)
    rw [pointExp, expLoop, hodd]
    simp only [heven]

end Sys2Proof.Machine

/-! Add and Exp on a proper curve as the group law of the library's Weierstrass curve (41_curve_group.md R153, R154). -/

namespace Sys2Proof.Machine

/-! The library's formulas on the curve of the block: its coefficients a₁, a₂ and a₃ are 0. -/

section LibraryCurve

variable {P A B : Nat}

theorem fieldCurve_negY (x y : ZMod P) : (fieldCurve P A B).negY x y = -y := by
  simp [WeierstrassCurve.Affine.negY, fieldCurve]

/-- The library's negative is the opposite ordinate. -/
theorem eq_negY_iff (x y1 y2 : ZMod P) : y1 = (fieldCurve P A B).negY x y2 ↔ y1 + y2 = 0 := by
  rw [fieldCurve_negY, eq_neg_iff_add_eq_zero]

theorem fieldCurve_addX (x1 x2 l : ZMod P) : (fieldCurve P A B).addX x1 x2 l = l * l - x1 - x2 := by
  simp [WeierstrassCurve.Affine.addX, fieldCurve, sq]

theorem fieldCurve_addY (x1 x2 y1 l : ZMod P) :
    (fieldCurve P A B).addY x1 x2 y1 l = l * (x1 - (l * l - x1 - x2)) - y1 := by
  rw [WeierstrassCurve.Affine.addY, fieldCurve_negY, WeierstrassCurve.Affine.negAddY, fieldCurve_addX]
  ring

theorem fieldCurve_equation (x y : ZMod P) :
    (fieldCurve P A B).Equation x y ↔ y * y = x * x * x + A * x + B := by
  simp [WeierstrassCurve.Affine.equation_iff, fieldCurve, pow_succ]

theorem fieldCurve_discriminant (P A B : Nat) :
    (fieldCurve P A B).Δ = -(2 ^ 4 * ((4 * A ^ 3 + 27 * B ^ 2 : Nat) : ZMod P)) := by
  simp only [WeierstrassCurve.Δ, WeierstrassCurve.b₂, WeierstrassCurve.b₄, WeierstrassCurve.b₆, WeierstrassCurve.b₈,
    fieldCurve]
  push_cast
  ring

theorem standsFor_infinity_zero : StandsFor (P := P) (A := A) (B := B) .infinity 0 := trivial

end LibraryCurve

section ProperCurve

variable {P A B : Nat} [Fact P.Prime]

theorem two_ne_zero_of_odd (hodd : P % 2 = 1) : (2 : ZMod P) ≠ 0 := by
  intro h
  have hdvd : P ∣ 2 := (ZMod.natCast_eq_zero_iff 2 P).mp (by exact_mod_cast h)
  have := (Nat.prime_dvd_prime_iff_eq (Fact.out : P.Prime) Nat.prime_two).mp hdvd
  omega

theorem ProperCurve.odd (h : ProperCurve P A B) : P % 2 = 1 := by
  have hP := h.above3
  exact ((Fact.out : P.Prime).eq_two_or_odd).resolve_left (by omega)

/-- Below an odd prime, twice an ordinate other than 0 is not 0 (41_curve_group.md R144). -/
theorem two_mul_ne_zero_of_odd (hodd : P % 2 = 1) {y : Nat} (hy : y ≠ 0) (hlt : y < P) : (2 * y : ZMod P) ≠ 0 := by
  refine mul_ne_zero (two_ne_zero_of_odd hodd) fun h => hy ?_
  exact eq_of_residue_eq hlt (by omega) (by rw [h, Nat.cast_zero])

/-- Over an odd prime the doubling formula never fails (41_curve_group.md R144). -/
theorem doubleFormula_ok_of_odd (hodd : P % 2 = 1) (A x : Nat) {y : Nat} (hy : y ≠ 0) (hlt : y < P) :
    ∃ lam : Nat, (2 * y : ZMod P) * lam = 3 * x * x + A ∧
      doubleFormula P A x y = .ok (thirdPoint P lam x y x) := by
  obtain ⟨hunit, -⟩ | ⟨-, hok⟩ := doubleFormula_cases (P := P) (by omega) A x y
  · exact absurd (two_mul_ne_zero_of_odd hodd hy hlt).isUnit hunit
  · exact hok

/-- Over a prime the chord formula never fails on points of different abscissas (41_curve_group.md R143). -/
theorem chordFormula_ok_of_prime {x1 x2 : Nat} (y1 y2 : Nat) (hne : (x1 : ZMod P) ≠ x2) :
    ∃ lam : Nat, ((x2 : ZMod P) - x1) * lam = y2 - y1 ∧
      chordFormula P x1 y1 x2 y2 = .ok (thirdPoint P lam x1 y1 x2) := by
  obtain ⟨hunit, -⟩ | ⟨-, hok⟩ := chordFormula_cases (Fact.out : P.Prime).pos x1 y1 x2 y2
  · exact absurd (sub_ne_zero_of_ne hne.symm).isUnit hunit
  · exact hok

/-- The slope of the chord is the library's. -/
theorem slope_of_chord {x1 y1 x2 y2 lam : ZMod P} (hne : x1 ≠ x2) (h : (x2 - x1) * lam = y2 - y1) :
    (fieldCurve P A B).slope x1 x2 y1 y2 = lam := by
  rw [WeierstrassCurve.Affine.slope_of_X_ne hne, div_eq_iff (sub_ne_zero_of_ne hne)]
  linear_combination h

/-- The slope of the tangent is the library's. -/
theorem slope_of_tangent {x y lam : ZMod P} (hne : 2 * y ≠ 0) (h : 2 * y * lam = 3 * x * x + A) :
    (fieldCurve P A B).slope x x y y = lam := by
  have hY : y - (fieldCurve P A B).negY x y = 2 * y := by rw [fieldCurve_negY]; ring
  rw [WeierstrassCurve.Affine.slope_of_Y_ne rfl (sub_ne_zero.mp (hY ▸ hne)), hY, div_eq_iff hne]
  simp only [fieldCurve]
  linear_combination -h

/-- The third point of both formulas stands for the point the library adds with the same slope. -/
theorem standsFor_thirdPoint {x1 y1 x2 y2 lam : Nat} {h1 : (fieldCurve P A B).Nonsingular x1 y1}
    {h2 : (fieldCurve P A B).Nonsingular x2 y2} (hxy : ¬((x1 : ZMod P) = x2 ∧ (y1 : ZMod P) + y2 = 0))
    (hslope : (fieldCurve P A B).slope (x1 : ZMod P) x2 y1 y2 = lam) :
    StandsFor (thirdPoint P lam x1 y1 x2)
      (WeierstrassCurve.Affine.Point.some _ _ h1 + WeierstrassCurve.Affine.Point.some _ _ h2) := by
  obtain ⟨x3, y3, hthird, hx3, hy3, hx, hy⟩ := thirdPoint_eq (Fact.out : P.Prime).pos lam x1 y1 x2
  rw [← eq_negY_iff (A := A) (B := B) x2] at hxy
  rw [WeierstrassCurve.Affine.Point.add_some hxy, hthird]
  refine ⟨hx3, hy3, ?_, ?_⟩
  · rw [hslope, fieldCurve_addX, hx]
  · rw [hslope, fieldCurve_addY, hy, hx]

/-- Points of the curve with one abscissa have equal or opposite ordinates. -/
theorem ordinates_of_abscissa_eq {x y1 y2 : ZMod P} (h1 : (fieldCurve P A B).Equation x y1)
    (h2 : (fieldCurve P A B).Equation x y2) : y1 = y2 ∨ y1 + y2 = 0 := by
  rw [← eq_negY_iff (A := A) (B := B) x]
  exact WeierstrassCurve.Affine.Y_eq_of_X_eq h1 h2 rfl

/-- Over an odd prime Add of opposite points is O: by the second test, or by the first where both ordinates are 0
(41_curve_group.md R142). -/
theorem pointAdd_opposite_of_odd (hodd : P % 2 = 1) (A x : Nat) {y1 y2 : Nat} (hy1 : y1 < P) (hy2 : y2 < P)
    (hsum : (y1 : ZMod P) + y2 = 0) : pointAdd P A (.aff x y1) (.aff x y2) = .ok .infinity := by
  by_cases hy : y1 = y2
  · subst hy
    have hzero : y1 = 0 := by
      by_contra hne
      exact two_mul_ne_zero_of_odd hodd hne hy1 (two_mul (y1 : ZMod P) ▸ hsum)
    rw [pointAdd_self, if_pos hzero]
  · exact pointAdd_opposite A hy1 hy2 hy hsum

/-- Add of two affine points of the curve: the double, the opposite and the chord, each as in the library's group. -/
theorem pointAdd_aff_standsFor (hodd : P % 2 = 1) {x1 y1 x2 y2 : Nat} (hx1 : x1 < P) (hy1 : y1 < P) (hx2 : x2 < P)
    (hy2 : y2 < P) (h1 : (fieldCurve P A B).Nonsingular x1 y1) (h2 : (fieldCurve P A B).Nonsingular x2 y2) :
    ∃ R, pointAdd P A (.aff x1 y1) (.aff x2 y2) = .ok R ∧
      StandsFor R (WeierstrassCurve.Affine.Point.some _ _ h1 + WeierstrassCurve.Affine.Point.some _ _ h2) := by
  by_cases hopposite : x1 = x2 ∧ (y1 : ZMod P) + y2 = 0
  case pos =>
    obtain ⟨rfl, hsum⟩ := hopposite
    have hzero : WeierstrassCurve.Affine.Point.some _ _ h1 + WeierstrassCurve.Affine.Point.some _ _ h2 = 0 :=
      WeierstrassCurve.Affine.Point.add_of_Y_eq rfl ((eq_negY_iff _ _ _).mpr hsum)
    exact ⟨.infinity, pointAdd_opposite_of_odd hodd A x1 hy1 hy2 hsum, hzero ▸ standsFor_infinity_zero⟩
  case neg =>
    have hxy : ¬((x1 : ZMod P) = x2 ∧ (y1 : ZMod P) + y2 = 0) :=
      fun h => hopposite ⟨eq_of_residue_eq hx1 hx2 h.1, h.2⟩
    by_cases heq : x1 = x2 ∧ y1 = y2
    case pos =>
      obtain ⟨rfl, rfl⟩ := heq
      have hy0 : y1 ≠ 0 := fun h => hopposite ⟨rfl, by rw [h, Nat.cast_zero, add_zero]⟩
      obtain ⟨lam, hlam, hdouble⟩ := doubleFormula_ok_of_odd hodd A x1 hy0 hy1
      refine ⟨_, by rw [pointAdd_self, if_neg hy0, hdouble], standsFor_thirdPoint hxy ?_⟩
      exact slope_of_tangent (two_mul_ne_zero_of_odd hodd hy0 hy1) hlam
    case neg =>
      have hx : (x1 : ZMod P) ≠ x2 := by
        intro h
        obtain rfl := eq_of_residue_eq hx1 hx2 h
        obtain hsame | hsum := ordinates_of_abscissa_eq h1.1 h2.1
        · exact heq ⟨rfl, eq_of_residue_eq hy1 hy2 hsame⟩
        · exact hopposite ⟨rfl, hsum⟩
      obtain ⟨lam, hlam, hchord⟩ := chordFormula_ok_of_prime y1 y2 hx
      refine ⟨_, by rw [pointAdd_chord A hy1 hy2 heq hopposite, hchord], standsFor_thirdPoint hxy ?_⟩
      exact slope_of_chord hx hlam

end ProperCurve

/-- Settles O35: O is the zero of the group, and two affine points add as in the library. -/
theorem addIsTheGroupLaw : Obligations.AddIsTheGroupLaw := by
  intro P A B _ hcurve X1 X2 Q1 Q2 h1 h2
  match X1, Q1, h1 with
  | .infinity, .zero, _ => exact ⟨X2, pointAdd_infinity_left P A X2, (zero_add Q2).symm ▸ h2⟩
  | .aff x1 y1, .some _ _ hQ1, h1 =>
    match X2, Q2, h2 with
    | .infinity, .zero, _ =>
      exact ⟨_, pointAdd_infinity_right P A _, (add_zero (M := (fieldCurve P A B).Point) _).symm ▸ h1⟩
    | .aff x2 y2, .some _ _ hQ2, h2 =>
      obtain ⟨hx1, hy1, rfl, rfl⟩ := h1
      obtain ⟨hx2, hy2, rfl, rfl⟩ := h2
      exact pointAdd_aff_standsFor hcurve.odd hx1 hy1 hx2 hy2 hQ1 hQ2

/-- Settles O36: by the recursion of Exp, each call of which is an identity of multiples in the group. -/
theorem expIsScalarMultiplication : Obligations.ExpIsScalarMultiplication := by
  intro P A B _ hcurve k
  induction k using Nat.strong_induction_on with
  | _ k ih =>
    intro X Q hX
    rw [expFollowsItsRecursion]
    split_ifs with hzero hone hodd
    case pos => exact ⟨_, rfl, by rw [hzero, zero_nsmul]; exact standsFor_infinity_zero⟩
    case pos => exact ⟨_, rfl, by rwa [hone, one_nsmul]⟩
    case pos =>
      obtain ⟨T, hT, hstands⟩ := ih (k - 1) (by omega) X Q hX
      obtain ⟨R, hR, hsum⟩ := addIsTheGroupLaw P A B hcurve X T Q _ hX hstands
      have hmultiple : Q + (k - 1) • Q = k • Q := by rw [← succ_nsmul', Nat.sub_add_cancel (by omega)]
      exact ⟨R, by rw [hT]; exact hR, hmultiple ▸ hsum⟩
    case neg =>
      obtain ⟨D, hD, hstands⟩ := addIsTheGroupLaw P A B hcurve X X Q Q hX hX
      obtain ⟨R, hR, hmultiple⟩ := ih (k / 2) (by omega) D _ hstands
      have hhalves : (k / 2) • (Q + Q) = k • Q := by
        rw [← two_nsmul, ← mul_nsmul, Nat.two_mul_div_two_of_even (Nat.not_odd_iff_even.mp (by rwa [Nat.odd_iff]))]
      exact ⟨R, by rw [hD]; exact hR, hhalves ▸ hmultiple⟩

/-- The curve equation modulo P is the equation over the field. -/
theorem equation_mod_iff {P A B x y : Nat} :
    y * y % P = (x * x * x + A * x + B) % P ↔ (fieldCurve P A B).Equation (x : ZMod P) y := by
  rw [fieldCurve_equation, ← Nat.ModEq, ← ZMod.natCast_eq_natCast_iff]
  push_cast
  rfl

theorem fieldCurve_discriminant_ne_zero {P A B : Nat} [Fact P.Prime] (h : ProperCurve P A B) :
    (fieldCurve P A B).Δ ≠ 0 := by
  rw [fieldCurve_discriminant, neg_ne_zero]
  refine mul_ne_zero (pow_ne_zero 4 (two_ne_zero_of_odd h.odd)) fun hzero => h.smooth ?_
  exact Nat.mod_eq_zero_of_dvd ((ZMod.natCast_eq_zero_iff _ P).mp hzero)

/-- On a proper curve every point is nonsingular, so a point of the curve stands for one of the library's. -/
theorem OnCurve.exists_standsFor {P A B : Nat} [Fact P.Prime] (hcurve : ProperCurve P A B) {X : Point}
    (h : OnCurve P A B X) : ∃ Q : (fieldCurve P A B).Point, StandsFor X Q := by
  cases X with
  | infinity => exact ⟨0, standsFor_infinity_zero⟩
  | aff x y =>
    obtain ⟨hx, hy, hequation⟩ := h
    have hnonsingular := (WeierstrassCurve.Affine.equation_iff_nonsingular_of_Δ_ne_zero
      (fieldCurve_discriminant_ne_zero hcurve)).mp (equation_mod_iff.mp hequation)
    exact ⟨.some _ _ hnonsingular, hx, hy, rfl, rfl⟩

theorem StandsFor.onCurve {P A B : Nat} {X : Point} {Q : (fieldCurve P A B).Point} (h : StandsFor X Q) :
    OnCurve P A B X := by
  match X, Q, h with
  | .infinity, .zero, _ => trivial
  | .aff x y, .some _ _ hQ, h =>
    obtain ⟨hx, hy, rfl, rfl⟩ := h
    exact ⟨hx, hy, equation_mod_iff.mpr hQ.1⟩

/-- Settles O37: the multiple in the group is a point of the library's curve, and what stands for one lies on the
curve. -/
theorem multiplesLieOnTheCurve : Obligations.MultiplesLieOnTheCurve := by
  intro P A B k X hprime hcurve hX
  have : Fact P.Prime := ⟨hprime⟩
  obtain ⟨Q, hQ⟩ := hX.exists_standsFor hcurve
  obtain ⟨R, hR, hmultiple⟩ := expIsScalarMultiplication P A B hcurve k X Q hQ
  exact ⟨R, hR, hmultiple.onCurve⟩

end Sys2Proof.Machine

/-! The commands of the curve group (41_curve_group.md R149 to R152): their words, and how each ends. -/

namespace Sys2Proof.Machine

/-- A command whose opcode is that of a plain row is the row's command. -/
theorem eq_of_plainRow_opcode {i j : Instr} (h : plainRow i.opcode.toNat = some j) : i = j := by
  cases i with
  | modred m | modadd m | modsub m | modmul m | modinv m | egcd m => exact nomatch h
  | nop | padd | pdbl | pmul | keygen | sign | verify => exact Option.some.inj h

/-- The word of a plain row decodes to the row's command (30_encoding.md R95, R104). -/
theorem decode_plainWord {n : Nat} {i : Instr} (h : plainRow n = some i) : decode (BitVec.ofNat 32 n) = .ok i := by
  rw [plainRow_some h, BitVec.ofNat_toNat, BitVec.setWidth_eq, decode_encode]

/-- Any word of the opcode of a plain row but the word of the row is illegal (30_encoding.md R96). -/
theorem illegal_of_plainOpcode {n : Nat} {i : Instr} (h : plainRow n = some i) (w : Word32)
    (hopcode : w.toNat % 256 = n) (hw : w ≠ BitVec.ofNat 32 n) : illegalWord w = true := by
  by_contra hlegal
  obtain ⟨j, rfl⟩ := exists_encode_of_legal (Bool.eq_false_of_not_eq_true hlegal)
  rw [encode_mod_opcode] at hopcode
  obtain rfl := eq_of_plainRow_opcode (hopcode ▸ h)
  exact hw (by rw [plainRow_some h, BitVec.ofNat_toNat, BitVec.setWidth_eq])

/-- NOT_INVERTIBLE or a point with coordinates below P, which a bignum register holds without truncation, ends a command
as 41_curve_group.md R149 says. -/
theorem pointEnding_endsWithPoint {s : State} {R : Except Err Point}
    (h : R = .error .notInvertible ∨ ∃ X, R = .ok X ∧ X.inRange (s.nat .p) = true) :
    EndsWithPoint s (.next (s.finish (pointEnding s R))) R := by
  obtain rfl | ⟨X, rfl, hX⟩ := h
  · refine ⟨fun e he => ?_, nofun, nofun⟩
    obtain rfl := Except.error.inj he
    exact ⟨rfl, rfl⟩
  · refine ⟨nofun, fun hR => ?_, fun x y hR => ?_⟩ <;> obtain rfl := Except.ok.inj hR
    · rfl
    · obtain ⟨hx, hy⟩ := Point.inRange_aff.mp hX
      exact ⟨_, _, toNat_ofNat_big (hx.trans (s.nat_lt _)), toNat_ofNat_big (hy.trans (s.nat_lt _)), rfl⟩

theorem State.p_pos_of_cfgCurve {s : State} (h : s.cfgCurve = true) : 0 < s.nat .p := by
  obtain ⟨hP, -⟩ := s.cfgCurve_iff.mp h
  omega

/-! The checks of PADD in their order (41_curve_group.md R150). -/

theorem exec_padd (s : State) : exec .padd s = .next (s.finish (paddEnding s)) := rfl

theorem paddEnding_config {s : State} (h : s.cfgCurve = false) : paddEnding s = .raise .config := by
  rw [paddEnding, if_pos h]

theorem paddEnding_range {s : State} (hcfg : s.cfgCurve = true)
    (h : (s.pt1.inRange (s.nat .p) && s.pt2.inRange (s.nat .p)) = false) : paddEnding s = .raise .range := by
  rw [paddEnding, if_neg (by simp [hcfg])]
  obtain h1 | h2 := Bool.and_eq_false_iff.mp h
  · rw [if_pos h1]
  · rw [if_pos h2, ite_self]

theorem paddEnding_sum {s : State} (hcfg : s.cfgCurve = true) (h1 : s.pt1.inRange (s.nat .p) = true)
    (h2 : s.pt2.inRange (s.nat .p) = true) :
    paddEnding s = pointEnding s (pointAdd (s.nat .p) (s.nat .a) s.pt1 s.pt2) := by
  rw [paddEnding, if_neg (by simp [hcfg]), if_neg (by simp [h1]), if_neg (by simp [h2])]

/-- Settles O38: the checks in their order, and then a sum that is an error or in range. -/
theorem paddGivesTheSum : Obligations.PaddGivesTheSum := by
  intro s
  refine ⟨decode_plainWord rfl, illegal_of_plainOpcode rfl, fun hcfg => ?config, fun hcfg hrange => ?range,
    fun hcfg h1 h2 => ?sum⟩
  case config => rw [exec_padd, paddEnding_config hcfg]; rfl
  case range => rw [exec_padd, paddEnding_range hcfg hrange]; rfl
  case sum =>
    rw [exec_padd, paddEnding_sum hcfg h1 h2]
    exact pointEnding_endsWithPoint (pointAdd_outcomes (State.p_pos_of_cfgCurve hcfg) h1 h2)

/-! The checks of the commands on point 1 alone (41_curve_group.md R151, R152). -/

section OnePoint

variable {s : State} {R : Except Err Point}

theorem onePointEnding_config (h : s.cfgCurve = false) : onePointEnding s R = .raise .config := by
  rw [onePointEnding, if_pos h]

theorem onePointEnding_range (hcfg : s.cfgCurve = true) (h : s.pt1.inRange (s.nat .p) = false) :
    onePointEnding s R = .raise .range := by
  rw [onePointEnding, if_neg (by simp [hcfg]), if_pos h]

theorem onePointEnding_result (hcfg : s.cfgCurve = true) (h : s.pt1.inRange (s.nat .p) = true) :
    onePointEnding s R = pointEnding s R := by
  rw [onePointEnding, if_neg (by simp [hcfg]), if_neg (by simp [h])]

/-- The claim about a command on point 1, from its row, its ending and what its result can be. -/
theorem onePointCommand_ends {n : Nat} {i : Instr} (hrow : plainRow n = some i)
    (hexec : exec i s = .next (s.finish (onePointEnding s R)))
    (hR : 0 < s.nat .p → s.pt1.inRange (s.nat .p) = true →
      R = .error .notInvertible ∨ ∃ X, R = .ok X ∧ X.inRange (s.nat .p) = true) :
    decode (BitVec.ofNat 32 n) = .ok i ∧
    (∀ w : Word32, w.toNat % 256 = n → w ≠ BitVec.ofNat 32 n → illegalWord w = true) ∧
    (s.cfgCurve = false → exec i s = .next (s.failed .config)) ∧
    (s.cfgCurve = true → s.pt1.inRange (s.nat .p) = false → exec i s = .next (s.failed .range)) ∧
    (s.cfgCurve = true → s.pt1.inRange (s.nat .p) = true → EndsWithPoint s (exec i s) R) := by
  refine ⟨decode_plainWord hrow, illegal_of_plainOpcode hrow, fun hcfg => ?config, fun hcfg hrange => ?range,
    fun hcfg hrange => ?result⟩
  case config => rw [hexec, onePointEnding_config hcfg]; rfl
  case range => rw [hexec, onePointEnding_range hcfg hrange]; rfl
  case result =>
    rw [hexec, onePointEnding_result hcfg hrange]
    exact pointEnding_endsWithPoint (hR (State.p_pos_of_cfgCurve hcfg) hrange)

end OnePoint

theorem exec_pdbl (s : State) :
    exec .pdbl s = .next (s.finish (onePointEnding s (pointDbl (s.nat .p) (s.nat .a) s.pt1))) := rfl

theorem exec_pmul (s : State) :
    exec .pmul s = .next (s.finish (onePointEnding s (pointExp (s.nat .p) (s.nat .a) (s.nat .k) s.pt1))) := rfl

/-- Settles O40: a command on point 1 with the result of Exp for the value of K. -/
theorem pmulGivesTheMultiple : Obligations.PmulGivesTheMultiple :=
  fun s => onePointCommand_ends rfl (exec_pmul s) fun hP hX => pointExp_outcomes hP _ hX

/-- Over an odd prime Dbl of a point in range never raises (41_curve_group.md R151). -/
theorem pointDbl_ok_of_odd {P : Nat} (hprime : P.Prime) (hodd : P % 2 = 1) (A : Nat) {X : Point}
    (hX : X.inRange P = true) : ∃ R, pointDbl P A X = .ok R := by
  have : Fact P.Prime := ⟨hprime⟩
  cases X with
  | infinity => exact ⟨_, rfl⟩
  | aff x y =>
    obtain ⟨-, hlt⟩ := Point.inRange_aff.mp hX
    rw [pointDbl, pointAdd_self]
    split
    case isTrue => exact ⟨_, rfl⟩
    case isFalse hy =>
      obtain ⟨lam, -, hdouble⟩ := doubleFormula_ok_of_odd hodd A x hy hlt
      exact ⟨_, hdouble⟩

/-- Where the two input points are the same, the second range check of PADD repeats the first. -/
theorem paddEnding_of_same {s : State} (h : s.pt2 = s.pt1) :
    paddEnding s = onePointEnding s (pointDbl (s.nat .p) (s.nat .a) s.pt1) := by
  rw [paddEnding, onePointEnding, h, pointDbl]
  by_cases hrange : s.pt1.inRange (s.nat .p) = false
  · rw [if_pos hrange, if_pos hrange]
  · rw [if_neg hrange, if_neg hrange]

/-- Settles O39: a command on point 1 with the result of Dbl, which is Add of the point with itself. -/
theorem pdblGivesTheDouble : Obligations.PdblGivesTheDouble := by
  intro s
  obtain ⟨hword, hillegal, hconfig, hrange, hresult⟩ :=
    onePointCommand_ends (n := 0x11) rfl (exec_pdbl s) fun hP hX => pointAdd_outcomes hP hX hX
  refine ⟨hword, hillegal, hconfig, hrange, fun hcfg hX => ⟨hresult hcfg hX, fun hprime hodd e he => ?_⟩,
    fun hsame => ?_⟩
  · obtain ⟨R, hR⟩ := pointDbl_ok_of_odd hprime hodd (s.nat .a) hX
    exact nomatch hR.symm.trans he
  · rw [exec_pdbl, exec_padd, paddEnding_of_same hsame]

end Sys2Proof.Machine

/-! The checks of KEYGEN, SIGN and VERIFY in their order (42_signature_engine.md R170, R177, R180 to R182;
60_exceptions.md R214), and the digest value (R173). -/

namespace Sys2Proof.Machine

theorem State.raiseError_eq_failed (s : State) (e : Err) : s.raiseError e = s.failed e := rfl

theorem State.endOk_eq_succeeded (s : State) : s.endOk = s.succeeded := rfl

theorem exec_keygen_of_bad_config {s : State} (h : s.cfgSig = false) : exec .keygen s = .next (s.failed .config) := by
  rw [exec, execKeygen, if_pos h, State.raiseError_eq_failed]

theorem exec_sign_of_bad_config {s : State} (h : s.cfgSig = false) : exec .sign s = .next (s.failed .config) := by
  rw [exec, execSign, if_pos h, State.raiseError_eq_failed]

theorem exec_sign_of_bad_key {s : State} (hconfig : s.cfgSig = true) (h : s.nat .d = 0 ∨ s.nat .q ≤ s.nat .d) :
    exec .sign s = .next (s.failed .range) := by
  rw [exec, execSign, if_neg (by simp [hconfig]), if_pos h, State.raiseError_eq_failed]

theorem exec_verify (s : State) : exec .verify s = .next (s.finish (verifyEnding s)) := rfl

/-- A raise of VERIFY is the end of the command with that error. -/
theorem exec_verify_of_raise {s : State} {e : Err} (h : verifyEnding s = .raise e) :
    exec .verify s = .next (s.failed e) := by
  rw [exec_verify, h, State.finish_raise, State.raiseError_eq_failed]

/-- A commit of VERIFY is a successful end that writes RFLAGS alone. -/
theorem exec_verify_of_commit {s : State} {ok : Bool} (h : verifyEnding s = .commit (s.verifyCommit ok)) :
    exec .verify s = .next ({ s with rflags := .verified ok } : State).succeeded := by
  rw [exec_verify, h, State.finish_commit, State.endOk_eq_succeeded, State.verifyCommit]

theorem verifyEnding_config {s : State} (h : s.cfgSig = false) : verifyEnding s = .raise .config := by
  rw [verifyEnding, if_pos h]

theorem verifyEnding_format {s : State} (hconfig : s.cfgSig = true) (h : s.sigLen.toNat ≠ 2 * s.n) :
    verifyEnding s = .raise .format := by
  rw [verifyEnding, if_neg (by simp [hconfig]), if_pos h]

theorem verifyEnding_range {s : State} (hconfig : s.cfgSig = true) (hlength : s.sigLen.toNat = 2 * s.n)
    (h : s.nat .p ≤ s.nat .pubx ∨ s.nat .p ≤ s.nat .puby) : verifyEnding s = .raise .range := by
  rw [verifyEnding, if_neg (by simp [hconfig]), if_neg (not_not_intro hlength), if_pos h]

/-- Settles O41: the first check that fails ends the command, before any draw. -/
theorem signatureChecksComeFirst : Obligations.SignatureChecksComeFirst := by
  intro s
  refine ⟨fun hconfig => ⟨?keygen, ?sign, ?verify⟩, exec_sign_of_bad_key, fun hconfig hlength => ?format,
    fun hconfig hlength hrange => ?range⟩
  case keygen => exact exec_keygen_of_bad_config hconfig
  case sign => exact exec_sign_of_bad_config hconfig
  case verify => exact exec_verify_of_raise (verifyEnding_config hconfig)
  case format => exact exec_verify_of_raise (verifyEnding_format hconfig hlength)
  case range => exact exec_verify_of_raise (verifyEnding_range hconfig hlength hrange)

/-- The checks of VERIFY before it looks at the signature have passed (42_signature_engine.md R180, R181). -/
structure State.VerifyChecked (s : State) : Prop where
  config : s.cfgSig = true
  length : s.sigLen.toNat = 2 * s.n
  pubx : s.nat .pubx < s.nat .p
  puby : s.nat .puby < s.nat .p

/-- Both signature halves lie strictly between 0 and Q (42_signature_engine.md R182). -/
structure State.SignatureInRange (s : State) : Prop where
  r_pos : 0 < s.sigR
  r_lt : s.sigR < s.nat .q
  s_pos : 0 < s.sigS
  s_lt : s.sigS < s.nat .q

theorem verifyEnding_rejects {s : State} (h : s.VerifyChecked)
    (hrange : s.sigR = 0 ∨ s.sigS = 0 ∨ s.nat .q ≤ s.sigR ∨ s.nat .q ≤ s.sigS) :
    verifyEnding s = .commit (s.verifyCommit false) := by
  obtain ⟨hconfig, hlength, hx, hy⟩ := h
  rw [verifyEnding, if_neg (by simp [hconfig]), if_neg (not_not_intro hlength), if_neg (by omega), if_pos hrange]

theorem verifyEnding_error {s : State} {e : Err} (h : s.VerifyChecked) (hrange : s.SignatureInRange)
    (hpoint : s.verifyPoint s.sigR s.sigS = .error e) : verifyEnding s = .raise e := by
  obtain ⟨hconfig, hlength, hx, hy⟩ := h
  obtain ⟨hr, hr', hs, hs'⟩ := hrange
  rw [verifyEnding, if_neg (by simp [hconfig]), if_neg (not_not_intro hlength), if_neg (by omega),
    if_neg (by omega), hpoint]

theorem verifyEnding_ok {s : State} {C : Point} (h : s.VerifyChecked) (hrange : s.SignatureInRange)
    (hpoint : s.verifyPoint s.sigR s.sigS = .ok C) :
    verifyEnding s = .commit (s.verifyCommit (s.verifyCompare s.sigR C)) := by
  obtain ⟨hconfig, hlength, hx, hy⟩ := h
  obtain ⟨hr, hr', hs, hs'⟩ := hrange
  rw [verifyEnding, if_neg (by simp [hconfig]), if_neg (not_not_intro hlength), if_neg (by omega),
    if_neg (by omega), hpoint]

/-- Settles O48: the rejection comes after the checks and before the computation. -/
theorem verifyRejectsOutOfRangeSignatures : Obligations.VerifyRejectsOutOfRangeSignatures :=
  fun _ hconfig hlength hx hy hrange =>
    exec_verify_of_commit (verifyEnding_rejects ⟨hconfig, hlength, hx, hy⟩ hrange)

theorem State.two_le_q_of_cfgSig {s : State} (h : s.cfgSig = true) : 2 ≤ s.nat .q := by
  obtain ⟨-, hq, -⟩ := s.cfgSig_iff.mp h
  exact hq

/-- The digest value of the number e in the first n bytes of DIGBUF (42_signature_engine.md R173). -/
theorem State.digestE_eq {s : State} {e : Nat} (hbe : s.ctrl.digLE = false → e = intBE (s.digbuf.toList.take s.n))
    (hle : s.ctrl.digLE = true → e = intBE (s.digbuf.toList.take s.n).reverse) :
    s.digestE = if e % s.nat .q = 0 then 1 else e % s.nat .q := by
  have he : (if s.ctrl.digLE then intLE (s.digbuf.toList.take s.n) else intBE (s.digbuf.toList.take s.n)) = e := by
    cases horder : s.ctrl.digLE with
    | false => exact (hbe horder).symm
    | true => rw [hle horder, intBE_reverse]; rfl
  simp only [State.digestE, he]

/-- Settles O50: a residue modulo Q other than 0, or 1, which is below Q. -/
theorem digestValueIsInRange : Obligations.DigestValueIsInRange := by
  intro s e hconfig hbe hle
  have hq := State.two_le_q_of_cfgSig hconfig
  rw [State.digestE_eq hbe hle]
  by_cases hzero : e % s.nat .q = 0
  · rw [if_pos hzero]
    exact ⟨Nat.one_pos, hq, fun hne => absurd hzero hne, fun _ => rfl⟩
  · rw [if_neg hzero]
    exact ⟨Nat.pos_of_ne_zero hzero, Nat.mod_lt _ (by omega), fun _ => rfl, fun h => absurd h hzero⟩

/-- The digest value lies strictly between 0 and Q, whatever DIGBUF holds. -/
theorem State.digestE_bounds {s : State} (h : s.cfgSig = true) : 0 < s.digestE ∧ s.digestE < s.nat .q := by
  cases horder : s.ctrl.digLE with
  | false =>
    obtain ⟨hpos, hlt, -⟩ := digestValueIsInRange s _ h (fun _ => rfl) fun hle => by simp [horder] at hle
    exact ⟨hpos, hlt⟩
  | true =>
    obtain ⟨hpos, hlt, -⟩ := digestValueIsInRange s _ h (fun hbe => by simp [horder] at hbe) fun _ => rfl
    exact ⟨hpos, hlt⟩

end Sys2Proof.Machine

/-! The attempts of KEYGEN and SIGN (42_signature_engine.md R171 to R178): the retry, the draw, and the outcomes of an
attempt on the bytes drawn. -/

namespace Sys2Proof.Machine

/-- Settles O45: the two cases of the cap. -/
theorem retryCountsAndCaps : Obligations.RetryCountsAndCaps := by
  refine fun s => ⟨s.countedRetry, s.toNat_countedRetry, fun hcap hreached => ?_, fun hbelow => ?_⟩
  · rw [State.retry, if_pos ⟨hcap, hreached⟩, State.raiseError_eq_failed]
  · rw [State.retry, if_neg]
    rintro ⟨hcap, hreached⟩
    exact hbelow.elim hcap fun hlt => absurd hreached (Nat.not_le.mpr hlt)

/-- Settles O46: FAIL is the next answer of the draw that follows the checks. -/
theorem entropyFailureEndsTheCommand : Obligations.EntropyFailureEndsTheCommand := by
  refine ⟨rfl, fun s rest hconfig hfail => ⟨?keygen, fun hpos hlt => ?sign⟩⟩
  case keygen => rw [exec_keygen_of_config hconfig, State.withDraw_fail hfail]; rfl
  case sign => rw [exec_sign_of_checks hconfig hpos hlt, State.withDraw_fail hfail]; rfl

/-- KEYGEN on an answer of bytes is one attempt on the first n of them (42_signature_engine.md R175). -/
theorem exec_keygen_of_bytes {s : State} {b : Vector Byte 64} {rest : List Answer} (hconfig : s.cfgSig = true)
    (hbytes : s.answers = .bytes b :: rest) :
    exec .keygen s = .next ((s.afterDraw rest).finish (keygenAttempt (b.toList.take s.n) (s.afterDraw rest))) := by
  rw [exec_keygen_of_config hconfig, State.withDraw_bytes hbytes, State.afterDraw]

/-- SIGN on an answer of bytes is one attempt on all 64 of them (42_signature_engine.md R177). -/
theorem exec_sign_of_bytes {s : State} {b : Vector Byte 64} {rest : List Answer} (hconfig : s.cfgSig = true)
    (hpos : 0 < s.nat .d) (hlt : s.nat .d < s.nat .q) (hbytes : s.answers = .bytes b :: rest) :
    exec .sign s = .next ((s.afterDraw rest).finish (signAttempt b.toList (s.afterDraw rest))) := by
  have hall : b.toList.take Config.nonceBytes = b.toList := List.take_of_length_le (by simp [Config.nonceBytes])
  rw [exec_sign_of_checks hconfig hpos hlt, State.withDraw_bytes hbytes, State.afterDraw, hall]

theorem State.basePoint_inRange {s : State} (h : s.cfgSig = true) : s.basePoint.inRange (s.nat .p) = true := by
  obtain ⟨-, -, -, hx, hy⟩ := s.cfgSig_iff.mp h
  exact Point.inRange_aff.mpr ⟨hx, hy⟩

theorem State.p_pos_of_cfgSig {s : State} (h : s.cfgSig = true) : 0 < s.nat .p := by
  obtain ⟨hcurve, -⟩ := s.cfgSig_iff.mp h
  exact State.p_pos_of_cfgCurve hcurve

/-- A multiple of the base point has its coordinates below P. -/
theorem State.curveExp_basePoint_lt {s : State} {k x y : Nat} (hconfig : s.cfgSig = true)
    (h : s.curveExp k s.basePoint = .ok (.aff x y)) : x < s.nat .p ∧ y < s.nat .p := by
  obtain herror | ⟨R, hR, hrange⟩ :=
    pointExp_outcomes (A := s.nat .a) (State.p_pos_of_cfgSig hconfig) k (State.basePoint_inRange hconfig)
  · exact nomatch herror.symm.trans h
  · obtain rfl := Except.ok.inj (hR.symm.trans h)
    exact Point.inRange_aff.mp hrange

section KeygenAttempt

variable {s : State} {b : List Byte} {d : Nat}

theorem keygenAttempt_degenerate (hd : intLE b % s.nat .q = 0) : keygenAttempt b s = .retry := by
  rw [← intBE_reverse] at hd
  rw [keygenAttempt, if_pos hd]

/-- An attempt whose key is not 0 ends as the public point says (42_signature_engine.md R175). -/
theorem keygenAttempt_error {e : Err} (hd : d = intLE b % s.nat .q) (hne : d ≠ 0)
    (h : s.curveExp d s.basePoint = .error e) : keygenAttempt b s = .raise e := by
  rw [← intBE_reverse] at hd
  subst hd
  simp only [keygenAttempt, if_neg hne, h]

theorem keygenAttempt_infinity (hd : d = intLE b % s.nat .q) (hne : d ≠ 0)
    (h : s.curveExp d s.basePoint = .ok .infinity) : keygenAttempt b s = .raise .config := by
  rw [← intBE_reverse] at hd
  subst hd
  simp only [keygenAttempt, if_neg hne, h]

theorem keygenAttempt_key {x y : Nat} (hd : d = intLE b % s.nat .q) (hne : d ≠ 0)
    (h : s.curveExp d s.basePoint = .ok (.aff x y)) :
    keygenAttempt b s = .commit { ((s.setNat .res0 d).setNat .res1 x).setNat .res2 y with rflags := {} } := by
  rw [← intBE_reverse] at hd
  subst hd
  simp only [keygenAttempt, if_neg hne, h]

end KeygenAttempt

/-- Settles O42: the outcomes of the attempt, whose three numbers fit their registers. -/
theorem keygenGivesAKeyPair : Obligations.KeygenGivesAKeyPair := by
  intro s b rest d hconfig hbytes hd
  rw [exec_keygen_of_bytes hconfig hbytes]
  refine ⟨fun hzero => ?degenerate, fun hne => ⟨fun hpoint => ?infinity, fun e herror => ?error, fun x y hkey => ?key⟩⟩
  case degenerate =>
    rw [keygenAttempt_degenerate (s := s.afterDraw rest) (hd.symm.trans hzero), State.finish_retry]
  case infinity =>
    rw [keygenAttempt_infinity (s := s.afterDraw rest) hd hne hpoint, State.finish_raise, State.raiseError_eq_failed]
  case error =>
    obtain rfl := pointExp_only _ _ _ _ e herror
    rw [keygenAttempt_error (s := s.afterDraw rest) hd hne herror, State.finish_raise, State.raiseError_eq_failed]
    exact ⟨rfl, rfl⟩
  case key =>
    have hlt : d < s.nat .q := hd ▸ Nat.mod_lt _ (by have := State.two_le_q_of_cfgSig hconfig; omega)
    obtain ⟨hx, hy⟩ := State.curveExp_basePoint_lt hconfig hkey
    refine ⟨_, _, _, toNat_ofNat_big (hlt.trans (s.nat_lt _)), Nat.pos_of_ne_zero hne, hlt,
      toNat_ofNat_big (hx.trans (s.nat_lt _)), toNat_ofNat_big (hy.trans (s.nat_lt _)), ?_⟩
    rw [keygenAttempt_key (s := s.afterDraw rest) hd hne hkey]
    rfl

section SignAttempt

variable {s : State} {b : List Byte} {k : Nat}

theorem signAttempt_degenerate (hk : intBE b % s.nat .q = 0) : signAttempt b s = .retry := by
  rw [signAttempt, if_pos hk]

theorem signAttempt_error {e : Err} (hk : k = intBE b % s.nat .q) (hne : k ≠ 0)
    (h : s.curveExp k s.basePoint = .error e) : signAttempt b s = .raise e := by
  subst hk
  simp only [signAttempt, if_neg hne, h]

theorem signAttempt_infinity (hk : k = intBE b % s.nat .q) (hne : k ≠ 0)
    (h : s.curveExp k s.basePoint = .ok .infinity) : signAttempt b s = .raise .config := by
  subst hk
  simp only [signAttempt, if_neg hne, h]

/-- An attempt whose nonce gives an affine point is degenerate or commits a signature (42_signature_engine.md R177). -/
theorem signAttempt_point {x y r sg : Nat} (hk : k = intBE b % s.nat .q) (hne : k ≠ 0)
    (h : s.curveExp k s.basePoint = .ok (.aff x y)) (hr : r = x % s.nat .q)
    (hsg : sg = (r * s.nat .d + k * s.digestE) % s.nat .q) :
    signAttempt b s = if r = 0 then .retry else if sg = 0 then .retry else .commit (s.signCommit r sg) := by
  subst hk hsg hr
  simp only [signAttempt, if_neg hne, h]

theorem signAttempt_half_zero {x y : Nat} (hk : k = intBE b % s.nat .q) (hne : k ≠ 0)
    (h : s.curveExp k s.basePoint = .ok (.aff x y))
    (hzero : x % s.nat .q = 0 ∨ (x % s.nat .q * s.nat .d + k * s.digestE) % s.nat .q = 0) :
    signAttempt b s = .retry := by
  rw [signAttempt_point hk hne h rfl rfl]
  obtain hr | hsg := hzero
  · rw [if_pos hr]
  · rw [if_pos hsg, ite_self]

end SignAttempt

/-- n is 32 or 64 (00_scope.md R7). -/
theorem State.n_eq (s : State) : s.n = 32 ∨ s.n = 64 := by
  obtain ⟨-, -, hn⟩ | ⟨-, -, hn⟩ := s.n_cases
  · exact .inl hn
  · exact .inr hn

/-- Settles O43: the attempt commits, and the signature string holds both halves. -/
theorem signGivesASignature : Obligations.SignGivesASignature := by
  intro s b rest x y k r sg hconfig hpos hlt hbytes hk hne hpoint hr hr0 hsg hsg0
  obtain ⟨-, hq, hfits, -⟩ := s.cfgSig_iff.mp hconfig
  have hrlt : r < s.nat .q := hr ▸ Nat.mod_lt _ (by omega)
  have hsglt : sg < s.nat .q := hsg ▸ Nat.mod_lt _ (by omega)
  rw [s.two_pow_bits] at hfits
  obtain ⟨hfirst, hsecond, htail⟩ := sigBytes_halves s.n_eq (hrlt.trans hfits) (hsglt.trans hfits)
  refine ⟨_, _, sigBytes s.n r sg, toNat_ofNat_big (hrlt.trans (s.nat_lt _)),
    toNat_ofNat_big (hsglt.trans (s.nat_lt _)), hfirst, hsecond, htail, ?_⟩
  rw [exec_sign_of_bytes hconfig hpos hlt hbytes,
    signAttempt_point (s := s.afterDraw rest) hk hne hpoint hr hsg, if_neg hr0, if_neg hsg0]
  rfl

/-- Settles O44: the other outcomes of the attempt. -/
theorem signAttemptsThatGiveNoSignature : Obligations.SignAttemptsThatGiveNoSignature := by
  intro s b rest k hconfig hpos hlt hbytes hk
  rw [exec_sign_of_bytes hconfig hpos hlt hbytes]
  refine ⟨fun hzero => ?nonce, fun hne hinfinity => ?infinity, fun hne e herror => ?error,
    fun hne x y hpoint hzero => ?halves⟩
  case nonce => rw [signAttempt_degenerate (s := s.afterDraw rest) (hk.symm.trans hzero), State.finish_retry]
  case infinity =>
    rw [signAttempt_infinity (s := s.afterDraw rest) hk hne hinfinity, State.finish_raise, State.raiseError_eq_failed]
  case error =>
    obtain rfl := pointExp_only _ _ _ _ e herror
    rw [signAttempt_error (s := s.afterDraw rest) hk hne herror, State.finish_raise, State.raiseError_eq_failed]
    exact ⟨rfl, rfl⟩
  case halves =>
    rw [signAttempt_half_zero (s := s.afterDraw rest) hk hne hpoint hzero, State.finish_retry]

end Sys2Proof.Machine

/-! A capped command (42_signature_engine.md R171, R172): each attempt with an answer ends the command or counts, and
the count stays below the cap. -/

namespace Sys2Proof.Machine

/-- A running command i whose count has not reached its cap, and nothing more to come from the host. -/
structure CappedRun (i : Instr) (s : State) : Prop where
  decoded : decode s.cmd = .ok i
  running : s.phase = .run
  noTurns : s.turns = []
  below : s.retryCnt.toNat < s.attemptMax.toNat

/-- Below a cap, which is a number of 32 bits, the count does not saturate (10_state.md R38). -/
theorem State.toNat_countedRetry_of_below {s : State} (h : s.retryCnt.toNat < s.attemptMax.toNat) :
    s.countedRetry.toNat = s.retryCnt.toNat + 1 := by
  have hcap := s.attemptMax.isLt
  rw [State.toNat_countedRetry]
  omega

/-- A step of a capped run on an answer ends the command, or leaves a capped run of the same cap with one answer fewer
and one attempt more counted. -/
theorem CappedRun.step {i : Instr} {s : State} {a : Answer} {rest : List Answer} (h : CappedRun i s)
    (hanswers : s.answers = a :: rest) :
    ∃ t, Machine.step s = .next t ∧ (t.phase = .idle ∨
      (CappedRun i t ∧ t.attemptMax = s.attemptMax ∧ t.answers = rest ∧ t.retryCnt.toNat = s.retryCnt.toNat + 1)) := by
  obtain ⟨t, hexec, hleaves⟩ := exec_cases i s
  refine ⟨t, by rw [step_nil h.noTurns, engineTurn_run h.running h.decoded, hexec], ?_⟩
  rcases hleaves with ⟨e, -, rfl⟩ | ⟨-, c, -, rfl⟩ | ⟨-, -, -, ⟨hnone, -⟩ | ⟨a', rest', hanswers', hattempt⟩⟩
  · exact .inl rfl
  · exact .inl rfl
  · exact nomatch hanswers.symm.trans hnone
  · obtain ⟨rfl, rfl⟩ : a = a' ∧ rest = rest' := by simpa using hanswers.symm.trans hanswers'
    rcases hattempt with ⟨e, -, rfl⟩ | ⟨c, -, rfl⟩ | rfl
    · exact .inl rfl
    · exact .inl rfl
    · have hcount := State.toNat_countedRetry_of_below (s := s.afterDraw rest) h.below
      rcases (s.afterDraw rest).retry_cases with ⟨-, -, hlimit⟩ | ⟨hbelow, hretry⟩
      · exact .inl (by rw [hlimit]; rfl)
      · have hcap : s.attemptMax ≠ 0 := fun hzero => by simpa [hzero] using h.below
        rw [hretry]
        have hlt := Nat.lt_of_not_le fun hreached => hbelow ⟨hcap, hreached⟩
        exact .inr ⟨⟨h.decoded, h.running, h.noTurns, hlt⟩, rfl, rfl, hcount⟩

theorem core_run_succ {s t : State} (h : step s = .next t) (k : Nat) :
    Sys2Proof.core.run (k + 1) s = Sys2Proof.core.run k t := by
  have hstep : Sys2Proof.core.step s = .next t := h
  simp only [Host.Core.run, hstep]

/-- By induction on a bound of the attempts still below the cap. -/
theorem CappedRun.ends {i : Instr} (m : Nat) {s : State} (h : CappedRun i s)
    (hcap : s.attemptMax.toNat ≤ s.retryCnt.toNat + m) (hanswers : m ≤ s.answers.length) :
    ∃ k t, k ≤ m ∧ Sys2Proof.core.run k s = .next t ∧ t.phase = .idle := by
  induction m generalizing s with
  | zero => exact absurd h.below (by omega)
  | succ m ih =>
    match hwaiting : s.answers with
    | [] => simp [hwaiting] at hanswers
    | a :: rest =>
      obtain ⟨t, ht, hidle | ⟨hrun, hsame, hrest, hcount⟩⟩ := h.step hwaiting
      · exact ⟨1, t, by omega, core_run_succ ht 0, hidle⟩
      · have hleft : m ≤ t.answers.length := by
          rw [hwaiting, List.length_cons] at hanswers
          rw [hrest]
          omega
        obtain ⟨k, u, hk, hu, hidle⟩ := ih hrun (by rw [hsame, hcount]; omega) hleft
        exact ⟨k + 1, u, by omega, (core_run_succ ht k).trans hu, hidle⟩

/-- Settles O10: the invariant says that the count is below the cap, so at most as many attempts as the cap are left. -/
theorem cappedCommandEndsWithinItsAttempts : Obligations.CappedCommandEndsWithinItsAttempts := by
  intro s i hgood hrun hdecode hdraws hcap hturns hanswers
  obtain ⟨-, -, j, hj, -, hcount⟩ := (State.good_run hrun).mp hgood
  obtain rfl : j = i := Except.ok.inj (hj.symm.trans hdecode)
  have hcases : s.attemptMax = 0 ∨ s.retryCnt.toNat < s.attemptMax.toNat := by
    simpa [State.countOk, hdraws] using hcount
  have hbelow := hcases.resolve_left hcap
  exact CappedRun.ends _ ⟨hdecode, hrun, hturns, hbelow⟩ (Nat.le_add_left _ _) hanswers

end Sys2Proof.Machine

/-! VERIFY by its equation (42_signature_engine.md R180, R183 to R185). -/

namespace Sys2Proof.Machine

/-- The reduced negative of a number is the number below the modulus that complements it. -/
theorem modInt_neg_eq {m z w : Nat} (hz : z < m) (h : (z + w) % m = 0) : modInt (-(w : Int)) m = z := by
  have hm : 0 < m := by omega
  have hsum : (z : ZMod m) + w = 0 := by
    exact_mod_cast (ZMod.natCast_eq_zero_iff (z + w) m).mpr (Nat.dvd_of_mod_eq_zero h)
  refine eq_of_residue_eq (modInt_lt _ hm) hz ?_
  rw [cast_modInt _ hm, Int.cast_neg, Int.cast_natCast, eq_neg_of_add_eq_zero_left hsum]

/-- The point of the equation where the digest value has no inverse modulo Q. -/
theorem State.verifyPoint_of_no_inverse {s : State} {e : Err} (r sg : Nat)
    (h : inv s.digestE (s.nat .q) = .error e) : s.verifyPoint r sg = .error e := by
  rw [State.verifyPoint, h]
  rfl

/-- The point of the equation is the sum of two multiples, with the scalars z1 and z2 (42_signature_engine.md R183). -/
theorem State.verifyPoint_eq {s : State} {v z1 z2 r sg : Nat} (hv : inv s.digestE (s.nat .q) = .ok v)
    (hz1 : z1 = sg * v % s.nat .q) (hlt : z2 < s.nat .q) (hz2 : (z2 + r * v) % s.nat .q = 0) :
    s.verifyPoint r sg =
      (s.curveExp z1 s.basePoint).bind fun C1 => (s.curveExp z2 s.pubPoint).bind fun C2 =>
        pointAdd (s.nat .p) (s.nat .a) C1 C2 := by
  have hneg : modInt (-((r : Int) * v)) (s.nat .q) = z2 := by exact_mod_cast modInt_neg_eq hlt hz2
  rw [State.verifyPoint, hv, hz1, ← hneg]
  rfl

/-- Once the signature is in range, an error of the equation is NOT_INVERTIBLE and ends VERIFY. -/
theorem exec_verify_of_error {s : State} {e : Err} (h : s.VerifyChecked) (hrange : s.SignatureInRange)
    (hpoint : s.verifyPoint s.sigR s.sigS = .error e) :
    e = .notInvertible ∧ exec .verify s = .next (s.failed .notInvertible) := by
  obtain rfl := s.verifyPoint_only _ _ e hpoint
  exact ⟨rfl, exec_verify_of_raise (verifyEnding_error h hrange hpoint)⟩

/-- Once the signature is in range, the point of the equation decides. -/
theorem exec_verify_of_point {s : State} {C : Point} (h : s.VerifyChecked) (hrange : s.SignatureInRange)
    (hpoint : s.verifyPoint s.sigR s.sigS = .ok C) :
    exec .verify s = .next ({ s with rflags := .verified (s.verifyCompare s.sigR C) } : State).succeeded :=
  exec_verify_of_commit (verifyEnding_ok h hrange hpoint)

/-- The comparison modulo Q (42_signature_engine.md R184). -/
theorem State.verifyCompare_mod {s : State} (r x y : Nat) (h : s.ctrl.vfyCompat = false) :
    s.verifyCompare r (.aff x y) = true ↔ x % s.nat .q = r := by
  simp [State.verifyCompare, h]

/-- The comparison of the raw abscissa (42_signature_engine.md R185). -/
theorem State.verifyCompare_raw {s : State} (r x y : Nat) (h : s.ctrl.vfyCompat = true) :
    s.verifyCompare r (.aff x y) = true ↔ x = r := by
  simp [State.verifyCompare, h]

/-- Settles O49: each value or error of the two multiples and of their sum is that of the point of the equation. -/
theorem verifyDecidesByTheEquation : Obligations.VerifyDecidesByTheEquation := by
  intro s hconfig hlength hx hy hr hr' hs hs'
  have hchecked : s.VerifyChecked := ⟨hconfig, hlength, hx, hy⟩
  have hrange : s.SignatureInRange := ⟨hr, hr', hs, hs'⟩
  refine ⟨fun hinv => ?noInverse, fun v z1 z2 hv hz1 hlt hz2 => ?_⟩
  case noInverse =>
    exact (exec_verify_of_error hchecked hrange (State.verifyPoint_of_no_inverse _ _ hinv)).2
  have hpoint := State.verifyPoint_eq (s := s) hv hz1 hlt hz2
  refine ⟨fun e h1 => ?first, fun C1 e h1 h2 => ?second, fun C1 C2 h1 h2 => ?_⟩
  case first => exact exec_verify_of_error hchecked hrange (by rw [hpoint, State.basePoint, h1]; rfl)
  case second =>
    exact exec_verify_of_error hchecked hrange (by rw [hpoint, State.basePoint, State.pubPoint, h1, h2]; rfl)
  have hsum : s.verifyPoint s.sigR s.sigS = pointAdd (s.nat .p) (s.nat .a) C1 C2 := by
    rw [hpoint, State.basePoint, State.pubPoint, h1, h2]
    rfl
  refine ⟨fun e h => ?third, fun h => ?infinity, fun x y h => ?affine⟩
  case third => exact exec_verify_of_error hchecked hrange (hsum.trans h)
  case infinity => exact exec_verify_of_point hchecked hrange (hsum.trans h)
  case affine =>
    exact ⟨s.verifyCompare s.sigR (.aff x y), State.verifyCompare_mod _ _ _, State.verifyCompare_raw _ _ _,
      exec_verify_of_point hchecked hrange (hsum.trans h)⟩

end Sys2Proof.Machine

/-! VERIFY on what SIGN made (42_signature_engine.md R186): the scalars of the equation add up to the nonce modulo Q, so
its point is the one SIGN took r from. -/

namespace Sys2Proof.Machine

/-- A point of the library's curve has one point of the block that stands for it. -/
theorem standsFor_inj {P A B : Nat} {X Y : Point} {Q : (fieldCurve P A B).Point} (hX : StandsFor X Q)
    (hY : StandsFor Y Q) : X = Y := by
  match X, Y, Q, hX, hY with
  | .infinity, .infinity, .zero, _, _ => rfl
  | .aff x y, .aff x' y', .some _ _ _, ⟨hx, hy, hX, hY⟩, ⟨hx', hy', hX', hY'⟩ =>
    rw [eq_of_residue_eq hx hx' (hX.trans hX'.symm), eq_of_residue_eq hy hy' (hY.trans hY'.symm)]

theorem eq_zero_of_standsFor_infinity {P A B : Nat} {Q : (fieldCurve P A B).Point} (h : StandsFor .infinity Q) :
    Q = 0 := by
  match Q, h with
  | .zero, _ => rfl

/-- Multiples by numbers of one residue modulo n agree on what n annihilates. -/
theorem nsmul_eq_of_residue_eq {M : Type} [AddGroup M] {g : M} {n j k : Nat} (hn : n • g = 0)
    (h : (j : ZMod n) = k) : j • g = k • g :=
  nsmul_eq_nsmul_iff_modEq.mpr
    (((ZMod.natCast_eq_natCast_iff j k n).mp h).of_dvd (addOrderOf_dvd_of_nsmul_eq_zero hn))

section SignedEquation

variable {P A B : Nat} [Fact P.Prime]

/-- What Exp returns stands for the multiple in the group. -/
theorem pointExp_standsFor (hcurve : ProperCurve P A B) {k : Nat} {X R : Point} {Q : (fieldCurve P A B).Point}
    (hX : StandsFor X Q) (h : pointExp P A k X = .ok R) : StandsFor R (k • Q) := by
  obtain ⟨R', hR', hstands⟩ := expIsScalarMultiplication P A B hcurve k X Q hX
  obtain rfl := Except.ok.inj (hR'.symm.trans h)
  exact hstands

/-- For G of order q and PUB = d·G, the sum z1·G + z2·PUB is k·G where z1 + z2·d is k modulo q. -/
theorem equationPoint_eq (hcurve : ProperCurve P A B) {q d k z1 z2 : Nat} {G PUB R : Point} (hG : OnCurve P A B G)
    (horder : pointExp P A q G = .ok .infinity) (hpub : pointExp P A d G = .ok PUB) (hR : pointExp P A k G = .ok R)
    (hscalars : ((z1 + z2 * d : Nat) : ZMod q) = k) :
    ((pointExp P A z1 G).bind fun C1 => (pointExp P A z2 PUB).bind fun C2 => pointAdd P A C1 C2) = .ok R := by
  obtain ⟨g, hg⟩ := hG.exists_standsFor hcurve
  have hzero : q • g = 0 := eq_zero_of_standsFor_infinity (pointExp_standsFor hcurve hg horder)
  obtain ⟨C1, hC1, hstands1⟩ := expIsScalarMultiplication P A B hcurve z1 G g hg
  obtain ⟨C2, hC2, hstands2⟩ :=
    expIsScalarMultiplication P A B hcurve z2 PUB (d • g) (pointExp_standsFor hcurve hg hpub)
  obtain ⟨C, hC, hstands⟩ := addIsTheGroupLaw P A B hcurve C1 C2 _ _ hstands1 hstands2
  have hsum : z1 • g + z2 • d • g = k • g :=
    calc z1 • g + z2 • d • g
      _ = (z1 + z2 * d) • g := by rw [add_nsmul, mul_nsmul']
      _ = k • g := nsmul_eq_of_residue_eq hzero hscalars
  obtain rfl : C = R := standsFor_inj hstands (hsum ▸ pointExp_standsFor hcurve hg hR)
  rw [hC1, hC2]
  exact hC

end SignedEquation

/-- The scalars of the equation of VERIFY on a signature of SIGN add up to the nonce k modulo Q. -/
theorem signature_scalars {q r d k e v sg z1 z2 : Nat} (hv : (e : ZMod q) * v = 1) (hsg : sg = (r * d + k * e) % q)
    (hz1 : z1 = sg * v % q) (hz2 : (z2 + r * v) % q = 0) : ((z1 + z2 * d : Nat) : ZMod q) = k := by
  have hsg' : (sg : ZMod q) = r * d + k * e := by rw [hsg, ZMod.natCast_mod]; push_cast; rfl
  have hz1' : (z1 : ZMod q) = sg * v := by rw [hz1, ZMod.natCast_mod, Nat.cast_mul]
  have hz2' : (z2 : ZMod q) + r * v = 0 := by
    exact_mod_cast (ZMod.natCast_eq_zero_iff (z2 + r * v) q).mpr (Nat.dvd_of_mod_eq_zero hz2)
  push_cast
  linear_combination hz1' + (v : ZMod q) * hsg' + (d : ZMod q) * hz2' + (k : ZMod q) * hv

/-- A degenerate attempt of a running command is no success: the block goes on, or shows an error. -/
theorem State.retry_no_success {s : State} (hrun : s.phase = .run) (hidle : s.retry.phase = .idle) :
    s.retry.status.err ≠ none := by
  rcases s.retry_cases with ⟨-, -, hlimit⟩ | ⟨-, hretry⟩
  · rw [hlimit]
    simp
  · rw [hretry, hrun] at hidle
    contradiction

/-- The conditions of an accepted attempt of SIGN with a nonce k whose multiple has the abscissa x
(42_signature_engine.md R177). -/
structure State.SignAccepts (s : State) (k x : Nat) : Prop where
  config : s.cfgSig = true
  key_pos : 0 < s.nat .d
  key_lt : s.nat .d < s.nat .q
  nonce : k ≠ 0
  r_ne_zero : x % s.nat .q ≠ 0
  s_ne_zero : (x % s.nat .q * s.nat .d + k * s.digestE) % s.nat .q ≠ 0

/-- A SIGN that ended without an error had all its conditions: a failing check ends with an error, and an attempt
without a signature is degenerate. -/
theorem signAccepts_of_success {s t : State} {draw : Vector Byte 64} {rest : List Answer} {k x y : Nat}
    (hbytes : s.answers = .bytes draw :: rest) (hk : k = intBE draw.toList % s.nat .q)
    (hpoint : s.curveExp k s.basePoint = .ok (.aff x y)) (hrun : s.phase = .run) (h : exec .sign s = .next t)
    (hidle : t.phase = .idle) (herr : t.status.err = none) : s.SignAccepts k x := by
  obtain ⟨hbad, hkey, -⟩ := signatureChecksComeFirst s
  have no_error {u : State} {e : Err} (hu : exec .sign s = .next (u.failed e)) : False := by
    obtain rfl := Host.Outcome.next.inj (h.symm.trans hu)
    exact nomatch herr
  have hconfig : s.cfgSig = true := by
    by_contra hconfig
    obtain ⟨-, hsign, -⟩ := hbad (Bool.eq_false_of_not_eq_true hconfig)
    exact no_error hsign
  have hrange : ¬(s.nat .d = 0 ∨ s.nat .q ≤ s.nat .d) := fun hrange => no_error (hkey hconfig hrange)
  obtain ⟨hpos, hlt⟩ : 0 < s.nat .d ∧ s.nat .d < s.nat .q := by omega
  obtain ⟨-, -, -, hhalves⟩ := signAttemptsThatGiveNoSignature s draw rest k hconfig hpos hlt hbytes hk
  have hne : k ≠ 0 := by
    rintro rfl
    exact nomatch hpoint
  have hnonzero : ¬(x % s.nat .q = 0 ∨ (x % s.nat .q * s.nat .d + k * s.digestE) % s.nat .q = 0) := by
    intro hzero
    obtain rfl := Host.Outcome.next.inj (h.symm.trans (hhalves hne x y hpoint hzero))
    exact State.retry_no_success (s := s.afterDraw rest) hrun hidle herr
  obtain ⟨hr, hs⟩ := not_or.mp hnonzero
  exact ⟨hconfig, hpos, hlt, hne, hr, hs⟩

/-- t is s after a SIGN that wrote the signature (r, sg): the inputs kept, and the two halves and the length of the
string (42_signature_engine.md R178). -/
structure SignedBy (s t : State) (r sg : Nat) : Prop where
  inputs : InputsKept s t
  sigR : t.sigR = r
  sigS : t.sigS = sg
  length : t.sigLen.toNat = 2 * t.n

theorem signedBy_of_accepts {s t : State} {draw : Vector Byte 64} {rest : List Answer} {k x y : Nat}
    (hbytes : s.answers = .bytes draw :: rest) (hk : k = intBE draw.toList % s.nat .q)
    (hpoint : s.curveExp k s.basePoint = .ok (.aff x y)) (haccepts : s.SignAccepts k x) (h : exec .sign s = .next t) :
    SignedBy s t (x % s.nat .q) ((x % s.nat .q * s.nat .d + k * s.digestE) % s.nat .q) := by
  obtain ⟨hconfig, hpos, hlt, hne, hr, hs⟩ := haccepts
  obtain ⟨vr, vs, buf, -, -, hfirst, hsecond, -, hexec⟩ :=
    signGivesASignature s draw rest x y k _ _ hconfig hpos hlt hbytes hk hne hpoint rfl hr rfl hs
  have hinputs := (exec_frame h).inputs
  obtain rfl := Host.Outcome.next.inj (h.symm.trans hexec)
  refine ⟨hinputs, hfirst, hsecond, ?_⟩
  show (BitVec.ofNat 8 (2 * s.n)).toNat = 2 * s.n
  rw [BitVec.toNat_ofNat]
  have := s.n_eq
  omega

theorem InputsKept.nat {s t : State} (h : InputsKept s t) {r : BN} (hr : r.readOnly = false) : t.nat r = s.nat r := by
  rw [State.nat, State.nat, h.bignums r hr]

theorem InputsKept.signatureAgree {s t : State} (h : InputsKept s t) : SignatureAgree s t :=
  ⟨⟨h.ctrl, h.nat rfl, h.nat rfl⟩, h.nat rfl, h.nat rfl, h.nat rfl⟩

theorem InputsKept.digestE {s t : State} (h : InputsKept s t) : t.digestE = s.digestE :=
  digestE_congr h.ctrl (h.nat rfl) (by rw [h.digbuf])

theorem InputsKept.pubPoint {s t : State} (h : InputsKept s t) : t.pubPoint = s.pubPoint := by
  rw [State.pubPoint, State.pubPoint, h.nat rfl, h.nat rfl]

theorem InputsKept.verifyPoint {s t : State} (h : InputsKept s t) (r sg : Nat) :
    t.verifyPoint r sg = s.verifyPoint r sg := by
  have hagree := h.signatureAgree
  simp only [State.verifyPoint, h.digestE, hagree.q, hagree.curveExp, hagree.basePoint, h.pubPoint, hagree.p, hagree.a]

theorem InputsKept.verifyCompare {s t : State} (h : InputsKept s t) (r : Nat) (C : Point) :
    t.verifyCompare r C = s.verifyCompare r C := by
  cases C with
  | infinity => rfl
  | aff x y => rw [State.verifyCompare, State.verifyCompare, h.ctrl, h.signatureAgree.q]

/-- Modulo a prime Q the digest value has an inverse. -/
theorem State.digestE_inverse {s : State} (hconfig : s.cfgSig = true) (hprime : (s.nat .q).Prime) :
    ∃ v : Nat, (s.digestE : ZMod (s.nat .q)) * v = 1 ∧ inv s.digestE (s.nat .q) = .ok v := by
  have : Fact (s.nat .q).Prime := ⟨hprime⟩
  obtain ⟨hpos, hlt⟩ := State.digestE_bounds hconfig
  have hne : (s.digestE : ZMod (s.nat .q)) ≠ 0 := fun hzero =>
    hpos.ne' (eq_of_residue_eq hlt hprime.pos (hzero.trans Nat.cast_zero.symm))
  obtain ⟨hunit, -⟩ | ⟨-, hinverse⟩ := inv_residue hprime.pos s.digestE
  · exact absurd hne.isUnit hunit
  · exact hinverse

/-- The point of the equation of VERIFY on (r, s) of SIGN is the multiple k·G of its nonce. -/
theorem State.verifyPoint_of_signature {s : State} {b k r sg : Nat} {R : Point} (hconfig : s.cfgSig = true)
    (hP : (s.nat .p).Prime) (hcurve : ProperCurve (s.nat .p) (s.nat .a) b) (hQ : (s.nat .q).Prime)
    (hG : OnCurve (s.nat .p) (s.nat .a) b s.basePoint)
    (horder : s.curveExp (s.nat .q) s.basePoint = .ok .infinity)
    (hpub : s.curveExp (s.nat .d) s.basePoint = .ok s.pubPoint) (hR : s.curveExp k s.basePoint = .ok R)
    (hsg : sg = (r * s.nat .d + k * s.digestE) % s.nat .q) : s.verifyPoint r sg = .ok R := by
  have : Fact (s.nat .p).Prime := ⟨hP⟩
  obtain ⟨v, hv, hinv⟩ := State.digestE_inverse hconfig hQ
  have hz2 : (modInt (-((r * v : Nat) : Int)) (s.nat .q) + r * v) % s.nat .q = 0 := by
    refine Nat.mod_eq_zero_of_dvd ((ZMod.natCast_eq_zero_iff _ _).mp ?_)
    rw [Nat.cast_add, cast_modInt _ hQ.pos, Int.cast_neg, Int.cast_natCast, neg_add_cancel]
  rw [State.verifyPoint_eq hinv rfl (modInt_lt _ hQ.pos) hz2]
  exact equationPoint_eq hcurve hG horder hpub hR (signature_scalars hv hsg rfl hz2)

/-- The comparison of VERIFY with r = x mod Q: always in the one mode, and for x below Q in the other. -/
theorem State.verifyCompare_residue {s : State} (x y : Nat) (hQ : 0 < s.nat .q) :
    s.verifyCompare (x % s.nat .q) (.aff x y) = true ↔ s.ctrl.vfyCompat = false ∨ x < s.nat .q := by
  cases hmode : s.ctrl.vfyCompat with
  | false => simp [State.verifyCompare_mod _ _ _ hmode]
  | true => simp [State.verifyCompare_raw _ _ _ hmode, eq_comm (a := x), Nat.mod_eq_iff_lt hQ.ne']

/-- The state that SIGN leaves passes the checks of VERIFY, and the signature is in range. -/
theorem SignedBy.verifiable {s t : State} {r sg : Nat} (h : SignedBy s t r sg) (hconfig : s.cfgSig = true)
    (hpub : s.pubPoint.inRange (s.nat .p) = true) (hr : 0 < r ∧ r < s.nat .q) (hs : 0 < sg ∧ sg < s.nat .q) :
    t.VerifyChecked ∧ t.SignatureInRange := by
  have hp : t.nat .p = s.nat .p := h.inputs.nat rfl
  have hq : t.nat .q = s.nat .q := h.inputs.nat rfl
  obtain ⟨hx, hy⟩ := Point.inRange_aff.mp (h.inputs.pubPoint ▸ hp ▸ hpub)
  refine ⟨⟨h.inputs.signatureAgree.cfgSig.trans hconfig, h.length, hx, hy⟩, ?_⟩
  constructor <;> simp only [h.sigR, h.sigS, hq, hr, hs]

theorem OnCurve.inRange {P A B : Nat} {X : Point} (h : OnCurve P A B X) : X.inRange P = true := by
  cases X with
  | infinity => rfl
  | aff x y => exact Point.inRange_aff.mpr ⟨h.1, h.2.1⟩

/-- Settles O51: SIGN leaves a state that passes the checks of VERIFY, whose point is then k·G. -/
theorem verifyAcceptsWhatSignMade : Obligations.VerifyAcceptsWhatSignMade := by
  intro s t b draw rest x y hP hcurve hQ hG horder hpub hbytes hpoint hrun hsign hidle herr
  have haccepts := signAccepts_of_success hbytes rfl hpoint hrun hsign hidle herr
  have hsigned := signedBy_of_accepts hbytes rfl hpoint haccepts hsign
  obtain ⟨PUB, hPUB, honCurve⟩ := multiplesLieOnTheCurve _ _ b (s.nat .d) _ hP hcurve hG
  obtain rfl : PUB = s.pubPoint := Except.ok.inj (hPUB.symm.trans hpub)
  obtain ⟨hchecked, hrange⟩ := hsigned.verifiable haccepts.config honCurve.inRange
    ⟨Nat.pos_of_ne_zero haccepts.r_ne_zero, Nat.mod_lt _ hQ.pos⟩
    ⟨Nat.pos_of_ne_zero haccepts.s_ne_zero, Nat.mod_lt _ hQ.pos⟩
  have hkG := State.verifyPoint_of_signature (r := x % s.nat .q) haccepts.config hP hcurve hQ hG horder hpub hpoint rfl
  have hverify : t.verifyPoint t.sigR t.sigS = .ok (.aff x y) := by
    rw [hsigned.sigR, hsigned.sigS, hsigned.inputs.verifyPoint, hkG]
  refine ⟨_, exec_verify_of_point hchecked hrange hverify, rfl, ?_⟩
  rw [hsigned.sigR, hsigned.inputs.verifyCompare]
  exact State.verifyCompare_residue x y hQ.pos

end Sys2Proof.Machine

/-! The control commands (43_control_commands.md R200, R202): a CTRL write without SRST, idle and busy, and NOP. -/

namespace Sys2Proof.Machine

/-! CTRL by the bits of its word (10_state.md R27). -/

theorem Ctrl.getLsbD_word (c : Ctrl) :
    c.word.getLsbD 0 = decide (c.mode = .m512) ∧ c.word.getLsbD 1 = c.ie ∧ c.word.getLsbD 2 = c.digLE ∧
      c.word.getLsbD 3 = c.vfyCompat := by
  obtain ⟨mode, ie, digLE, vfyCompat⟩ := c
  revert ie digLE vfyCompat
  cases mode <;> decide

theorem Mode.ofBit_eq_iff (b : Bool) (m : Mode) : Mode.ofBit b = m ↔ b = decide (m = .m512) := by
  cases b <;> cases m <;> decide

/-- The stored fields are bits 3:0 of the written word. -/
theorem word_ctrlAsked (v : Word32) : (ctrlAsked v).word = v &&& 0xF := by
  apply BitVec.eq_of_toNat_eq
  have hmode : (if Mode.ofBit (v.getLsbD 0) = .m512 then 1 else 0) = (v.getLsbD 0).toNat := by
    cases v.getLsbD 0 <;> rfl
  have hbits : (v.getLsbD 0).toNat + 2 * (v.getLsbD 1).toNat + 4 * (v.getLsbD 2).toNat + 8 * (v.getLsbD 3).toNat =
      v.toNat % 16 := by
    simp only [BitVec.getLsbD, Nat.toNat_testBit]
    omega
  have hmask : (v &&& 0xF).toNat = v.toNat % 16 := by
    rw [BitVec.toNat_and]
    exact Nat.and_two_pow_sub_one_eq_mod v.toNat 4
  rw [Ctrl.toNat_word, hmask, ← hbits, ← hmode]
  rfl

/-- The mask 0xD leaves the bits of MODE, DIG_LE and VFY_COMPAT. -/
theorem and_keptMask_eq_zero_iff (x : Word32) :
    x &&& 0xD = 0 ↔ x.getLsbD 0 = false ∧ x.getLsbD 2 = false ∧ x.getLsbD 3 = false := by
  constructor
  · intro h
    have hbit : ∀ k, (x &&& 0xD).getLsbD k = false := fun k => by rw [h]; exact BitVec.getLsbD_zero
    exact ⟨by simpa using hbit 0, by simpa using hbit 2, by simpa using hbit 3⟩
  · rintro ⟨hmode, hdigLE, hvfyCompat⟩
    apply BitVec.eq_of_getLsbD_eq
    intro k hk
    have hmask : ∀ j < 32, j = 0 ∨ j = 2 ∨ j = 3 ∨ (0xD : Word32).getLsbD j = false := by decide
    refine Eq.trans ?_ (BitVec.getLsbD_zero (w := 32) (i := k)).symm
    rw [BitVec.getLsbD_and]
    rcases hmask k hk with rfl | rfl | rfl | hclear
    · rw [hmode, Bool.false_and]
    · rw [hdigLE, Bool.false_and]
    · rw [hvfyCompat, Bool.false_and]
    · rw [hclear, Bool.and_false]

/-- Whether a write of v asks for another MODE, DIG_LE or VFY_COMPAT than c holds. -/
def Ctrl.differsFrom (c : Ctrl) (v : Word32) : Bool :=
  !decide (ctrlAsked v = { c with ie := v.getLsbD 1 })

theorem Ctrl.differsFrom_iff (c : Ctrl) (v : Word32) : c.differsFrom v = true ↔ (c.word ^^^ v) &&& 0xD ≠ 0 := by
  obtain ⟨hmode, -, hdigLE, hvfyCompat⟩ := c.getLsbD_word
  have hbit (k : Nat) : (c.word ^^^ v).getLsbD k = false ↔ v.getLsbD k = c.word.getLsbD k := by
    rw [BitVec.getLsbD_xor, bne_eq_false_iff_eq, eq_comm]
  have hsame : ctrlAsked v = { c with ie := v.getLsbD 1 } ↔ (c.word ^^^ v) &&& 0xD = 0 := by
    rw [and_keptMask_eq_zero_iff, hbit, hbit, hbit, hmode, hdigLE, hvfyCompat, ← Mode.ofBit_eq_iff]
    simp only [ctrlAsked, Ctrl.mk.injEq, true_and]
  rw [Ctrl.differsFrom, Bool.not_eq_true', decide_eq_false_iff_not, hsame]

/-! A CTRL write without SRST on a running block (10_state.md R27, 43_control_commands.md R202). -/

/-- The running block after a CTRL write has stored IE and, for a field it does not take, set WBUSY. -/
def State.takesCtrl (s : State) (v : Word32) : State :=
  { s with ctrl := { s.ctrl with ie := v.getLsbD 1 },
           status := { s.status with wbusy := s.status.wbusy || s.ctrl.differsFrom v } }

theorem State.writeCtrl_run {s : State} {v : Word32} (hrun : s.phase = .run) (hv : v.getLsbD 9 = false) :
    s.writeCtrl v = if v.getLsbD 8 then (s.takesCtrl v).raiseError .aborted else s.takesCtrl v := by
  have habort : (s.takesCtrl v).abort = (s.takesCtrl v).raiseError .aborted := State.abort_run hrun
  rw [← habort]
  simp only [State.writeCtrl, hv, State.busy_run hrun, Bool.false_eq_true, if_false, if_true]
  rfl

theorem State.busStep_ctrl (s : State) (v : Word32) :
    s.busStep (wr 0x008 v) = { s.writeCtrl v with reply := some (.write .ok) } :=
  State.busStep_wr_slot s v (by omega) (by omega) (sl := .ctrl) rfl

/-- Settles O58: on an idle block the four fields are stored; on a running one a dropped field shows in the mask. -/
theorem ctrlWriteServesItsFields : Obligations.CtrlWriteServesItsFields := by
  intro s v hsrst
  rw [State.busStep_ctrl]
  refine ⟨fun hidle => ⟨ctrlAsked v, ?idle, word_ctrlAsked v⟩,
    fun hrun => ⟨s.ctrl.differsFrom v, s.ctrl.differsFrom_iff v, fun hkeep => ?goesOn, fun habort => ?aborted⟩⟩
  case idle => rw [State.writeCtrl_idle hidle hsrst]
  case goesOn =>
    rw [State.writeCtrl_run hrun hsrst, hkeep]
    rfl
  case aborted =>
    rw [State.writeCtrl_run hrun hsrst, habort]
    rfl

/-! NOP (43_control_commands.md R200). -/

theorem exec_nop (s : State) : exec .nop s = .next s.succeeded := rfl

theorem engineTurn_nop {s : State} (hrun : s.phase = .run) (hcmd : s.cmd = encode .nop) :
    engineTurn s = .next s.succeeded :=
  (engineTurn_run hrun (hcmd ▸ decode_encode .nop)).trans (exec_nop s)

/-- A NOP written to an idle block and its one engine step: in the block only CMD and the end-of-command fields differ. -/
theorem core_run_nop {s : State} {rest : List Turn} (hidle : s.phase = .idle)
    (hturns : s.turns = .bus (cmdTxn .nop) :: .engine :: rest) :
    Sys2Proof.core.run 2 s = .next
      ({ s with cmd := encode .nop, reply := some (.write .ok), turns := rest } : State).succeeded := by
  have hwrite := State.busStep_legal_cmd (s := { s with turns := .engine :: rest }) hidle (legal_encode .nop)
  rw [core_run_succ ((step_bus hturns).trans (congrArg Host.Outcome.next hwrite))]
  exact core_run_succ ((step_engine rfl).trans (engineTurn_nop rfl rfl)) 0

/-- Settles O22: NOP is the plain row of opcode 0, and its two steps run from reset. -/
theorem nopOnlyEnds : Obligations.NopOnlyEnds :=
  ⟨exec_nop, illegal_of_plainOpcode rfl, decode_plainWord rfl, _, core_run_nop rfl rfl, by decide⟩

end Sys2Proof.Machine

/-! The end of a command with an error (60_exceptions.md R212, R216), and the interrupt output (60_exceptions.md R220,
10_state.md R51). -/

namespace Sys2Proof.Machine

/-- t is the block s after its command has ended with error e, as 60_exceptions.md R212 and R216 allow: beside the
end-of-command fields, a draw may have taken the oldest answer, and RETRY_LIMIT has counted one retry. -/
structure FailedWith (s : State) (e : Err) (t : State) : Prop where
  block : t = { s.failed e with retryCnt := t.retryCnt, answers := t.answers }
  answers : t.answers = s.answers ∨ ∃ a, s.answers = a :: t.answers
  uncounted : e ≠ .retryLimit → t.retryCnt = s.retryCnt
  counted : e = .retryLimit → t.retryCnt = s.countedRetry

theorem failedWith_raiseError {e : Err} (he : e ≠ .retryLimit) (s : State) : FailedWith s e (s.raiseError e) where
  block := rfl
  answers := .inl rfl
  uncounted _ := rfl
  counted hlimit := absurd hlimit he

theorem failedWith_afterDraw {s : State} {e : Err} {a : Answer} {rest : List Answer} (he : e ≠ .retryLimit)
    (ha : s.answers = a :: rest) : FailedWith s e ((s.afterDraw rest).raiseError e) where
  block := rfl
  answers := .inr ⟨a, ha⟩
  uncounted _ := rfl
  counted hlimit := absurd hlimit he

theorem failedWith_retryLimit {s : State} {a : Answer} {rest : List Answer} (ha : s.answers = a :: rest) :
    FailedWith s .retryLimit
      (({ s.afterDraw rest with retryCnt := (s.afterDraw rest).countedRetry } : State).raiseError .retryLimit) where
  block := rfl
  answers := .inr ⟨a, ha⟩
  uncounted hlimit := absurd rfl hlimit
  counted _ := rfl

/-- An engine step after which STATUS shows an error that was not there before has ended its command with that error. -/
theorem exec_failedWith {i : Instr} {s t : State} {e : Err} (hclear : s.status.err = none) (h : exec i s = .next t)
    (herr : t.status.err = some e) : FailedWith s e t := by
  rcases exec_leaves h with ⟨e', he', rfl⟩ | ⟨-, c, -, rfl⟩ | ⟨-, -, -, hdraw⟩
  case inl =>
    cases herr
    exact failedWith_raiseError he' s
  case inr.inl => exact nomatch herr
  case inr.inr =>
    rcases hdraw with ⟨-, rfl⟩ | ⟨a, rest, ha, ⟨e', he', rfl⟩ | ⟨c, -, rfl⟩ | rfl⟩
    · exact nomatch hclear.symm.trans herr
    · cases herr
      exact failedWith_afterDraw he' ha
    · exact nomatch herr
    · rcases (s.afterDraw rest).retry_cases with ⟨-, -, hlimit⟩ | ⟨-, hretry⟩
      · rw [hlimit] at herr ⊢
        cases herr
        exact failedWith_retryLimit ha
      · rw [hretry] at herr
        exact nomatch hclear.symm.trans herr

theorem FailedWith.phase {s t : State} {e : Err} (h : FailedWith s e t) : t.phase = .idle := by
  rw [h.block]
  rfl

/-- A CMD write of a command's word on an idle block starts the engine and clears DONE (10_state.md R31). -/
theorem State.busStep_cmd_starts {s : State} {w : Word32} {i : Instr} (hidle : s.phase = .idle) (h : decode w = .ok i) :
    (s.busStep (wr 0x010 w)).phase = .run ∧ (s.busStep (wr 0x010 w)).status.done = false := by
  have hlegal : illegalWord w = false := eq_encode_of_decode h ▸ legal_encode i
  rw [State.busStep_legal_cmd hidle hlegal]
  exact ⟨rfl, rfl⟩

/-- Settles O17: every error end of an engine step is one of the three ends with an error, and each leaves the block
idle. -/
theorem failedCommandCommitsNothing : Obligations.FailedCommandCommitsNothing := by
  intro i s t e hclear h herr
  have hfailed : FailedWith s e t := exec_failedWith hclear h herr
  refine ⟨hfailed.block, hfailed.answers, hfailed.uncounted, fun hlimit => ?_, fun w j hdecode => ?_⟩
  · rw [hfailed.counted hlimit, s.toNat_countedRetry]
  · exact (State.busStep_cmd_starts hfailed.phase hdecode).1

theorem State.irq_of_done {s : State} (h : s.status.done = true) : s.irq = s.ctrl.ie := by
  rw [State.irq, h, Bool.true_and]

theorem State.irq_of_not_done {s : State} (h : s.status.done = false) : s.irq = false := by
  rw [State.irq, h, Bool.false_and]

/-- An engine step that leaves a running block idle has set DONE. -/
theorem exec_done_of_idle {i : Instr} {s t : State} (hrun : s.phase = .run) (h : exec i s = .next t)
    (hidle : t.phase = .idle) : t.status.done = true := by
  rcases exec_ends_or_goes_on h with hend | hgoes
  · obtain ⟨-, hdone, -⟩ := hend.completion
    exact hdone
  · rw [hgoes.phase, hrun] at hidle
    contradiction

/-- The acknowledge of the host clears DONE (10_state.md R28, 30_encoding.md R106). -/
theorem State.busStep_clrdone_done (s : State) : (s.busStep clrdone).status.done = false := by
  rw [clrdone, State.busStep_wr_slot s _ (by omega) (by omega) (sl := .status) rfl]
  exact Bool.and_false s.status.done

/-- ABORT of a running block ends the command and stores the IE bit beside it (43_control_commands.md R202). -/
theorem State.busStep_abort {s : State} {v : Word32} (hrun : s.phase = .run) (habort : v.getLsbD 8 = true)
    (hsrst : v.getLsbD 9 = false) :
    s.busStep (wr 0x008 v) = { (s.takesCtrl v).raiseError .aborted with reply := some (.write .ok) } := by
  rw [State.busStep_ctrl, State.writeCtrl_run hrun hsrst, if_pos habort]

/-- Settles O21: irq is IE where DONE is set, by an end or an abort, and 0 where it is cleared. -/
theorem interruptFollowsCompletion : Obligations.InterruptFollowsCompletion := by
  refine fun s => ⟨fun i t hrun h hidle => ?commandEnd, fun w i hidle hdecode => ?commandStart, ?acknowledge,
    fun v hrun habort hsrst => ?abort, ?reset⟩
  case commandEnd => rw [State.irq_of_done (exec_done_of_idle hrun h hidle), (exec_frame h).inputs.ctrl]
  case commandStart => exact State.irq_of_not_done (State.busStep_cmd_starts hidle hdecode).2
  case acknowledge => exact State.irq_of_not_done s.busStep_clrdone_done
  case abort =>
    rw [State.busStep_abort hrun habort hsrst]
    exact State.irq_of_done rfl
  case reset => exact State.irq_of_not_done rfl

end Sys2Proof.Machine

/-! Written-out words (95_test_vectors.md section 3.1). A legal word decodes as the encoding of its command; an illegal one
is refused by the clause of 30_encoding.md R96 that it meets first. -/

namespace Sys2Proof.Machine

/-- The decoder answers an error only with the clause that the word meets. -/
theorem eq_rejection_of_decode {w : Word32} {e : IllegalWord} (h : decode w = .error e) : e = rejection w := by
  unfold decode at h
  split at h
  · contradiction
  · exact (Except.error.inj h).symm

/-- An illegal word is refused by the clause that it meets (30_encoding.md R96). -/
theorem decode_eq_rejection {w : Word32} (h : illegalWord w = true) : decode w = .error (rejection w) := by
  obtain ⟨e, he⟩ := decode_illegal h
  rw [he, eq_rejection_of_decode he]

/-- Settles O3: seven words are encodings of their commands, and each of the other four meets one clause. -/
theorem writtenWordsDecode : Obligations.WrittenWordsDecode :=
  ⟨decode_encode .nop, decode_encode (.modred .p), decode_encode (.modmul .q), decode_encode (.modinv .opm),
    decode_encode (.egcd .p), decode_encode .pmul, decode_encode .sign,
    decode_eq_rejection (w := 0x00000301) rfl, decode_eq_rejection (w := 0x00000112) rfl,
    decode_eq_rejection (w := 0x00000007) rfl, decode_eq_rejection (w := 0x80000012) rfl⟩

end Sys2Proof.Machine
